-- ==== Sys2Proof/Word.lean ====
section
/-!
DEFINITION. The 64-bit word of the block and the packets that cross its ports.
Rules R7, R11 (00_scope) and R43 (20_memory).
-/

namespace Sys2Proof

/-- A word: 64 bits, numbered 63 down to 0 (R11). Every sample, coefficient, delay register and
design parameter is one word, read as an IEEE 754 binary64 pattern (R7, R12). -/
abbrev Word := BitVec 64

/-- A packet: a finite ordered list of words. The transport marks its last word, so its length is
known without looking inside it; it may be empty (R43). -/
abbrev Packet := List Word

end Sys2Proof
end

