-- ==== Sys2Proof/Syntax.lean ====
section
/-!
DEFINITION. The commands of the block as terms: one constructor of `Instr` per row of
spec/opcode_table.json (30_encoding R67).
-/

namespace Sys2Proof

/-- The closed enumeration of filter types, in the order of their codes 0 to 7 (R63). -/
inductive FilterType where
  | lowPass
  | highPass
  | bandPass
  | notch
  | peaking
  | lowShelf
  | highShelf
  | allPass
  deriving DecidableEq, Repr

/-- The four operand words of format HP, in packet order (R64): sample rate in Hz, frequency in Hz,
the shape operand (Q, bandwidth in octaves or shelf slope), gain in dB. -/
structure DesignParams where
  fs : Word
  f : Word
  sh : Word
  g : Word
  deriving DecidableEq, Repr

/-- The five coefficients of a band, normalised so that a0 = 1 (R20, R21), in the order of format
HC (R65). -/
structure Coeffs where
  b0 : Word
  b1 : Word
  b2 : Word
  a1 : Word
  a2 : Word
  deriving DecidableEq, Repr

/-- One command. `idx` is the header field IDX (R62), `ft` the header field FT (R63); the other
arguments are the operand words of the command's format (R64 to R66). -/
inductive Instr where
  /-- DESIGN, R140. -/
  | design (ft : FilterType) (p : DesignParams)
  /-- BQ_NEW, R156. -/
  | bqNew
  /-- BQ_SETCOEF, R157. -/
  | bqSetcoef (idx : BitVec 8) (c : Coeffs)
  /-- BQ_RESET, R158. -/
  | bqReset (idx : BitVec 8)
  /-- BQ_PROC, R159. -/
  | bqProc (idx : BitVec 8) (x : Word)
  /-- BQ_PROCB, R160. -/
  | bqProcb (idx : BitVec 8) (xs : List Word)
  /-- EQ_ADD, R172. -/
  | eqAdd (ft : FilterType) (p : DesignParams)
  /-- EQ_SET, R173. -/
  | eqSet (idx : BitVec 8) (ft : FilterType) (p : DesignParams)
  /-- EQ_REMOVE, R174. -/
  | eqRemove (idx : BitVec 8)
  /-- EQ_RESET, R175. -/
  | eqReset
  /-- EQ_PROC, R176. -/
  | eqProc (x : Word)
  /-- EQ_PROCB, R178. -/
  | eqProcb (xs : List Word)
  /-- RD_COUNT, R190. -/
  | rdCount
  /-- RD_BAND, R191. -/
  | rdBand (idx : BitVec 8)
  deriving DecidableEq, Repr

end Sys2Proof
end

