-- ==== Sys2Proof/Config.lean ====
section
/-!
DEFINITION. What an implementation fixes, and the free values: MAXBANDS (R6), the type of the record
Numerics (R8; the implementation's record is in Machine/Numerics.lean, since R98 to R101 bind it), the
table SHAPE (R9) and the NaN words that R104 leaves open.
The opaque constants have no body: nothing proves a value of one.
-/

namespace Sys2Proof

/-! ### MAXBANDS (R6) -/

/-- FREE VALUE (log 5): the number of band slots less one. -/
opaque Config.maxBandsLessOne : Fin 255

/-- The number of band slots, between 1 and 255 (R6). -/
def Config.MAXBANDS : Nat := Config.maxBandsLessOne.val + 1

/-! ### Numerics (R8) -/

/-- The open fields of the record Numerics: total functions from F64 to F64 (R8). The other fields
are fixed, and are Machine/Float.lean and Machine/Flags.lean. The special values that R98 to R101
require are put on by Machine/Elementary.lean; the implementation's record is Config.numerics of
Machine/Numerics.lean. -/
structure Numerics where
  fsin : Word → Word
  fcos : Word → Word
  fpow10 : Word → Word
  fsinh : Word → Word

/-! ### SHAPE (R9) -/

/-- How the shape operand of a design request is read (R9). -/
inductive ShapeKind where
  | Q
  | BW
  | S
  deriving DecidableEq, Repr

/-- The table the spec decides (R9, R63): S for the shelves, Q for the other types (log 7). -/
def Config.SHAPE : FilterType → ShapeKind
  | .lowPass => .Q
  | .highPass => .Q
  | .bandPass => .Q
  | .notch => .Q
  | .peaking => .Q
  | .lowShelf => .S
  | .highShelf => .S
  | .allPass => .Q

/-! ### NaN words (R104) -/

/-- FREE VALUE (log 4): sign and low 51 fraction bits of the k-th NaN result. -/
opaque Config.nanBits : Nat → BitVec 52

/-- The k-th NaN result: exponent 2047, bit 51 set, everything else free. -/
def Config.qnan (k : Nat) : Word :=
  (Config.nanBits k).extractLsb' 51 1 ++ 0x7FF#11 ++ 1#1 ++ (Config.nanBits k).extractLsb' 0 51

end Sys2Proof
end

