-- ==== Sys2Proof/WellFormed.lean ====
section
/-!
DEFINITION. Which terms of `Instr` are commands that a packet can carry.
Every field of every command admits all its bit patterns (R62, R63, R64, R65, R66), so the one check
is the length of a block: `0 <= L <= MAXBLOCK` (R66).
-/

namespace Sys2Proof

/-- The largest block, in samples (R10, R66): the bound of the response's 32-bit CNT field. -/
def MAXBLOCK : Nat := 2 ^ 32 - 1

/-- A block of samples fits format HX (R66). -/
def blockFits (xs : List Word) : Bool := decide (xs.length ≤ MAXBLOCK)

/-- The well-formed commands. -/
def Instr.wf : Instr → Bool
  | .design _ _ => true
  | .bqNew => true
  | .bqSetcoef _ _ => true
  | .bqReset _ => true
  | .bqProc _ _ => true
  | .bqProcb _ xs => blockFits xs
  | .eqAdd _ _ => true
  | .eqSet _ _ _ => true
  | .eqRemove _ => true
  | .eqReset => true
  | .eqProc _ => true
  | .eqProcb xs => blockFits xs
  | .rdCount => true
  | .rdBand _ => true

end Sys2Proof
end

