-- ==== Sys2Proof/Decode.lean ====
section
/-!
DEFINITION. The command packets: header fields, the opcode map, the total decoder of rule R70, which
rejects by name, and the encoder of rule R73. All of 30_encoding but the response packets, which are
in Machine/Ops.lean.
-/

namespace Sys2Proof

/-! ### Header fields (R61) -/

/-- `OPC`, bits [7:0]. -/
def headerOpc (h : Word) : BitVec 8 := h.extractLsb' 0 8

/-- `IDX`, bits [15:8]. -/
def headerIdx (h : Word) : BitVec 8 := h.extractLsb' 8 8

/-- `FT`, bits [18:16]. -/
def headerFt (h : Word) : BitVec 3 := h.extractLsb' 16 3

/-- `RSV`, bits [63:19]. -/
def headerRsv (h : Word) : BitVec 45 := h.extractLsb' 19 45

/-- A header word with its reserved bits zero. -/
def headerWord (opc idx : BitVec 8) (ft : BitVec 3) : Word := 0#45 ++ ft ++ idx ++ opc

/-! ### Filter type codes (R63) -/

/-- The code of a filter type. -/
def FilterType.code : FilterType → BitVec 3
  | .lowPass => 0
  | .highPass => 1
  | .bandPass => 2
  | .notch => 3
  | .peaking => 4
  | .lowShelf => 5
  | .highShelf => 6
  | .allPass => 7

/-- The filter type of a code. All eight codes are used, so there is no reserved one. -/
def FilterType.ofCode (c : BitVec 3) : FilterType :=
  match c.toNat with
  | 0 => .lowPass
  | 1 => .highPass
  | 2 => .bandPass
  | 3 => .notch
  | 4 => .peaking
  | 5 => .lowShelf
  | 6 => .highShelf
  | _ => .allPass

/-! ### The opcode map (R67) -/

/-- The five packet formats (R60). -/
inductive Format where
  | H
  | HP
  | HC
  | HX1
  | HX
  deriving DecidableEq, Repr

/-- The fourteen opcodes, one per command. -/
inductive Opcode where
  | design
  | bqNew
  | bqSetcoef
  | bqReset
  | bqProc
  | bqProcb
  | eqAdd
  | eqSet
  | eqRemove
  | eqReset
  | eqProc
  | eqProcb
  | rdCount
  | rdBand
  deriving DecidableEq, Repr

/-- The column OPC of R67. -/
def Opcode.byte : Opcode → BitVec 8
  | .design => 0x01
  | .bqNew => 0x02
  | .bqSetcoef => 0x03
  | .bqReset => 0x04
  | .bqProc => 0x05
  | .bqProcb => 0x06
  | .eqAdd => 0x08
  | .eqSet => 0x09
  | .eqRemove => 0x0A
  | .eqReset => 0x0B
  | .eqProc => 0x0C
  | .eqProcb => 0x0D
  | .rdCount => 0x10
  | .rdBand => 0x11

/-- The column format of R67. -/
def Opcode.format : Opcode → Format
  | .design => .HP
  | .bqNew => .H
  | .bqSetcoef => .HC
  | .bqReset => .H
  | .bqProc => .HX1
  | .bqProcb => .HX
  | .eqAdd => .HP
  | .eqSet => .HP
  | .eqRemove => .H
  | .eqReset => .H
  | .eqProc => .HX1
  | .eqProcb => .HX
  | .rdCount => .H
  | .rdBand => .H

/-- Whether IDX stands in the column fields of R67. -/
def Opcode.usesIdx : Opcode → Bool
  | .design => false
  | .bqNew => false
  | .bqSetcoef => true
  | .bqReset => true
  | .bqProc => true
  | .bqProcb => true
  | .eqAdd => false
  | .eqSet => true
  | .eqRemove => true
  | .eqReset => false
  | .eqProc => false
  | .eqProcb => false
  | .rdCount => false
  | .rdBand => true

/-- Whether FT stands in the column fields of R67. -/
def Opcode.usesFt : Opcode → Bool
  | .design => true
  | .bqNew => false
  | .bqSetcoef => false
  | .bqReset => false
  | .bqProc => false
  | .bqProcb => false
  | .eqAdd => true
  | .eqSet => true
  | .eqRemove => false
  | .eqReset => false
  | .eqProc => false
  | .eqProcb => false
  | .rdCount => false
  | .rdBand => false

/-- The rows of R67 in its order. -/
def Opcode.all : List Opcode :=
  [.design, .bqNew, .bqSetcoef, .bqReset, .bqProc, .bqProcb, .eqAdd, .eqSet, .eqRemove, .eqReset,
   .eqProc, .eqProcb, .rdCount, .rdBand]

/-- The opcode of a byte; none for every value that R67 does not list (R71). -/
def Opcode.ofByte (b : BitVec 8) : Option Opcode := Opcode.all.find? fun o => o.byte == b

/-- The opcode of a command. -/
def Instr.opcode : Instr → Opcode
  | .design _ _ => .design
  | .bqNew => .bqNew
  | .bqSetcoef _ _ => .bqSetcoef
  | .bqReset _ => .bqReset
  | .bqProc _ _ => .bqProc
  | .bqProcb _ _ => .bqProcb
  | .eqAdd _ _ => .eqAdd
  | .eqSet _ _ _ => .eqSet
  | .eqRemove _ => .eqRemove
  | .eqReset => .eqReset
  | .eqProc _ => .eqProc
  | .eqProcb _ => .eqProcb
  | .rdCount => .rdCount
  | .rdBand _ => .rdBand

/-! ### The decoder (R70) -/

/-- Why a packet is an IllegalCommand (R71). The names are the model's: the block reports the one
status IllegalCommand for all of them (R200). -/
inductive DecodeError where
  /-- The packet has no word. -/
  | emptyPacket
  /-- `OPC` is not in the table of R67. -/
  | unknownOpcode
  /-- A bit of `RSV` is set. -/
  | reservedBits
  /-- `IDX` is not zero in a command that does not use it. -/
  | unusedIndex
  /-- `FT` is not zero in a command that does not use it. -/
  | unusedFilterType
  /-- The packet length does not fit the format H, HP, HC or HX1. -/
  | wrongLength
  /-- A block of more than `MAXBLOCK` samples. -/
  | blockTooLong
  deriving DecidableEq, Repr

/-- Format H: no operand word. -/
def readH (ops : List Word) (i : Instr) : Except DecodeError Instr :=
  match ops with
  | [] => .ok i
  | _ => .error .wrongLength

/-- Format HP: four design parameters (R64). -/
def readHP (ops : List Word) (k : DesignParams → Instr) : Except DecodeError Instr :=
  match ops with
  | [fs, f, sh, g] => .ok (k ⟨fs, f, sh, g⟩)
  | _ => .error .wrongLength

/-- Format HC: five coefficients (R65). -/
def readHC (ops : List Word) (k : Coeffs → Instr) : Except DecodeError Instr :=
  match ops with
  | [b0, b1, b2, a1, a2] => .ok (k ⟨b0, b1, b2, a1, a2⟩)
  | _ => .error .wrongLength

/-- Format HX1: one sample (R66). -/
def readHX1 (ops : List Word) (k : Word → Instr) : Except DecodeError Instr :=
  match ops with
  | [x] => .ok (k x)
  | _ => .error .wrongLength

/-- Format HX: a block of at most `MAXBLOCK` samples (R66). -/
def readHX (ops : List Word) (k : List Word → Instr) : Except DecodeError Instr :=
  if blockFits ops then .ok (k ops) else .error .blockTooLong

/-- The last part of R70: the length check of the opcode's format, and the command. -/
def Opcode.read (o : Opcode) (idx : BitVec 8) (ft : FilterType) (ops : List Word) :
    Except DecodeError Instr :=
  match o with
  | .design => readHP ops (.design ft)
  | .bqNew => readH ops .bqNew
  | .bqSetcoef => readHC ops (.bqSetcoef idx)
  | .bqReset => readH ops (.bqReset idx)
  | .bqProc => readHX1 ops (.bqProc idx)
  | .bqProcb => readHX ops (.bqProcb idx)
  | .eqAdd => readHP ops (.eqAdd ft)
  | .eqSet => readHP ops (.eqSet idx ft)
  | .eqRemove => readH ops (.eqRemove idx)
  | .eqReset => readH ops .eqReset
  | .eqProc => readHX1 ops .eqProc
  | .eqProcb => readHX ops .eqProcb
  | .rdCount => readH ops .rdCount
  | .rdBand => readH ops (.rdBand idx)

/-- The total decoder, its tests in the order of R70. It reads the packet alone (R72) and never the
value of an operand word. -/
def decode (p : Packet) : Except DecodeError Instr :=
  match p with
  | [] => .error .emptyPacket
  | h :: ops =>
    match Opcode.ofByte (headerOpc h) with
    | none => .error .unknownOpcode
    | some o =>
      if headerRsv h ≠ 0 then .error .reservedBits
      else if o.usesIdx = false ∧ headerIdx h ≠ 0 then .error .unusedIndex
      else if o.usesFt = false ∧ headerFt h ≠ 0 then .error .unusedFilterType
      else o.read (headerIdx h) (FilterType.ofCode (headerFt h)) ops

/-- The opcode byte a response echoes: bits [7:0] of the header word as received, 0 for an empty
packet (R68, R201). -/
def echoedOpc (p : Packet) : BitVec 8 :=
  match p with
  | [] => 0
  | h :: _ => headerOpc h

/-! ### The encoder (R73) -/

/-- The words of the four design parameters, in packet order (R64). -/
def DesignParams.words (p : DesignParams) : List Word := [p.fs, p.f, p.sh, p.g]

/-- The words of five coefficients, in packet order (R65). -/
def Coeffs.words (c : Coeffs) : List Word := [c.b0, c.b1, c.b2, c.a1, c.a2]

/-- The packet of a command: `RSV = 0` and zero in every unused field (R73). -/
def encode : Instr → Packet
  | .design ft p => headerWord 0x01 0 ft.code :: p.words
  | .bqNew => [headerWord 0x02 0 0]
  | .bqSetcoef idx c => headerWord 0x03 idx 0 :: c.words
  | .bqReset idx => [headerWord 0x04 idx 0]
  | .bqProc idx x => [headerWord 0x05 idx 0, x]
  | .bqProcb idx xs => headerWord 0x06 idx 0 :: xs
  | .eqAdd ft p => headerWord 0x08 0 ft.code :: p.words
  | .eqSet idx ft p => headerWord 0x09 idx ft.code :: p.words
  | .eqRemove idx => [headerWord 0x0A idx 0]
  | .eqReset => [headerWord 0x0B 0 0]
  | .eqProc x => [headerWord 0x0C 0 0, x]
  | .eqProcb xs => headerWord 0x0D 0 0 :: xs
  | .rdCount => [headerWord 0x10 0 0]
  | .rdBand idx => [headerWord 0x11 idx 0]

/-! ### Packets from the bits of an opcode-table row -/

/-- How many words a packet of a format has at the least: the packet length of R60, with the empty
block for format HX. -/
def Format.words : Format → Nat
  | .H => 1
  | .HP => 5
  | .HC => 6
  | .HX1 => 2
  | .HX => 1

/-- The packet whose bits are `w`, bit 0 the least significant bit of the first word, with every bit
above `nbits` zero. The end-of-packet mark of the transport is not among the bits (R43, R60), so the
packet is given the words that `nbits` needs and at least those its opcode's format needs, its
missing operand words zeros. -/
def tableWordPacket (nbits w : Nat) : Packet :=
  let v := w % 2 ^ nbits
  let h : Word := BitVec.ofNat 64 v
  let need := match Opcode.ofByte (headerOpc h) with
    | some o => o.format.words
    | none => 1
  (List.range (max need ((nbits + 63) / 64))).map fun k => BitVec.ofNat 64 (v >>> (64 * k))

/-- The command the decoder reads from the packet of `tableWordPacket`; none where it refuses. -/
def decodeTableWord (nbits w : Nat) : Option Instr :=
  match decode (tableWordPacket nbits w) with
  | .ok i => some i
  | .error _ => none

/-! ### The rows of spec/opcode_table.json as match and mask -/

/-- One row of the table: `header &&& mask = mtch` holds exactly for the headers of the command, and
the packet has between `minOps` and `maxOps` operand words. -/
structure TableRow where
  mtch : Word
  mask : Word
  minOps : Nat
  maxOps : Nat
  deriving DecidableEq, Repr

/-- The row of an opcode, copied from spec/opcode_table.json. -/
def Opcode.row : Opcode → TableRow
  | .design => ⟨0x0000000000000001, 0xFFFFFFFFFFF8FFFF, 4, 4⟩
  | .bqNew => ⟨0x0000000000000002, 0xFFFFFFFFFFFFFFFF, 0, 0⟩
  | .bqSetcoef => ⟨0x0000000000000003, 0xFFFFFFFFFFFF00FF, 5, 5⟩
  | .bqReset => ⟨0x0000000000000004, 0xFFFFFFFFFFFF00FF, 0, 0⟩
  | .bqProc => ⟨0x0000000000000005, 0xFFFFFFFFFFFF00FF, 1, 1⟩
  | .bqProcb => ⟨0x0000000000000006, 0xFFFFFFFFFFFF00FF, 0, MAXBLOCK⟩
  | .eqAdd => ⟨0x0000000000000008, 0xFFFFFFFFFFF8FFFF, 4, 4⟩
  | .eqSet => ⟨0x0000000000000009, 0xFFFFFFFFFFF800FF, 4, 4⟩
  | .eqRemove => ⟨0x000000000000000A, 0xFFFFFFFFFFFF00FF, 0, 0⟩
  | .eqReset => ⟨0x000000000000000B, 0xFFFFFFFFFFFFFFFF, 0, 0⟩
  | .eqProc => ⟨0x000000000000000C, 0xFFFFFFFFFFFFFFFF, 1, 1⟩
  | .eqProcb => ⟨0x000000000000000D, 0xFFFFFFFFFFFFFFFF, 0, MAXBLOCK⟩
  | .rdCount => ⟨0x0000000000000010, 0xFFFFFFFFFFFFFFFF, 0, 0⟩
  | .rdBand => ⟨0x0000000000000011, 0xFFFFFFFFFFFF00FF, 0, 0⟩

/-- A packet fits a row. -/
def TableRow.accepts (r : TableRow) (p : Packet) : Prop :=
  ∃ h ops, p = h :: ops ∧ h &&& r.mask = r.mtch ∧ r.minOps ≤ ops.length ∧ ops.length ≤ r.maxOps

end Sys2Proof
end

