-- ==== Sys2Proof/Machine/Flags.lean ====
section
/-!
DEFINITION. Classification and comparison of binary64 patterns (40_numerics R90, R97).
The block has no flags and no condition codes, and the IEEE exception flags are not kept (R28, R106):
what stands here are the predicates that the rules test, none of which is stored.
-/

namespace Sys2Proof.Machine

/-- The sign, bit 63 (R90). -/
def signBit (w : Word) : Bool := w.getLsbD 63

/-- The biased exponent, bits [62:52] (R90). -/
def expField (w : Word) : Nat := (w.extractLsb' 52 11).toNat

/-- The fraction, bits [51:0] (R90). -/
def fracField (w : Word) : Nat := (w.extractLsb' 0 52).toNat

/-- Bits [62:0]: exponent and fraction together. On numbers of one sign these patterns are ordered
as the magnitudes are. -/
def magField (w : Word) : Nat := (w.extractLsb' 0 63).toNat

/-- Finite: the exponent is not 2047 (R90, R97 `isfinite`). -/
def isFinite (w : Word) : Bool := expField w != 2047

/-- NaN: exponent 2047, fraction not 0 (R90). -/
def isNaN (w : Word) : Bool := expField w == 2047 && fracField w != 0

/-- Infinity: exponent 2047, fraction 0 (R90). -/
def isInf (w : Word) : Bool := expField w == 2047 && fracField w == 0

/-- Zero of either sign (R90). -/
def isZero (w : Word) : Bool := magField w == 0

/-- Subnormal: exponent 0, fraction not 0 (R90). -/
def isSubnormal (w : Word) : Bool := expField w == 0 && fracField w != 0

/-- Normal: exponent 1 to 2046 (R90). -/
def isNormal (w : Word) : Bool := expField w != 0 && expField w != 2047

/-- Quiet NaN: a NaN with bit 51 set (R90). -/
def isQuietNaN (w : Word) : Bool := isNaN w && w.getLsbD 51

/-- Signalling NaN: a NaN with bit 51 clear (R90). -/
def isSignallingNaN (w : Word) : Bool := isNaN w && !w.getLsbD 51

/-- The order of non-NaN patterns as an integer: the magnitude pattern with the sign, so that `+0`
and `-0` have the same place and the infinities the outermost ones. -/
def orderKey (w : Word) : Int := if signBit w then -(magField w : Int) else (magField w : Int)

/-- `flt(a, b)`: neither is a NaN and `a` is numerically less than `b` (R97). -/
def flt (a b : Word) : Bool := !isNaN a && !isNaN b && decide (orderKey a < orderKey b)

/-- `feq(a, b)`: neither is a NaN and they are numerically equal (R97). -/
def feq (a b : Word) : Bool := !isNaN a && !isNaN b && decide (orderKey a = orderKey b)

/-- Equal up to the freedom of R104: the same pattern, or both a NaN. -/
def SameF64 (a b : Word) : Prop := a = b ∨ (isNaN a = true ∧ isNaN b = true)

end Sys2Proof.Machine
end

