-- ==== Sys2Proof/Machine/Float.lean ====
section
/-!
DEFINITION. The five IEEE 754 binary64 operations and the sign operation (40_numerics R91 to R97,
R104 to R106). Every operation computes the exact result over the integers and rounds it once, to
nearest with ties to even. The first argument of an operation is the word it answers where R104 lets
any quiet NaN stand; the callers draw it from Config.

Magnitudes are counted in units of the least subnormal, 2^-1074, so that every finite magnitude is a
natural number.
-/

namespace Sys2Proof.Machine

/-! ### Constants (R12, R102) -/

def posZero : Word := 0x0000000000000000
def negZero : Word := 0x8000000000000000
def half : Word := 0x3FE0000000000000
def one : Word := 0x3FF0000000000000
def two : Word := 0x4000000000000000
def minusTwo : Word := 0xC000000000000000
def forty : Word := 0x4044000000000000
def posInf : Word := 0x7FF0000000000000
def negInf : Word := 0xFFF0000000000000

/-- The binary64 number nearest 2 pi (R102). -/
def TWO_PI : Word := 0x401921FB54442D18

/-- The binary64 number nearest (ln 2) / 2 (R102). -/
def LN2_HALF : Word := 0x3FD62E42FEFA39EF

/-! ### Exact values -/

/-- How many units of 2^-1074 make 1. -/
def unitsPerOne : Nat := 2 ^ 1074

/-- The magnitude of a finite number in units of 2^-1074 (R90): subnormals count their fraction,
normals their significand scaled by the exponent. -/
def magUnits (w : Word) : Nat :=
  if expField w = 0 then fracField w else (2 ^ 52 + fracField w) * 2 ^ (expField w - 1)

/-- The value of a finite number in units of 2^-1074. -/
def units (w : Word) : Int := if signBit w then -(magUnits w : Int) else (magUnits w : Int)

/-! ### Rounding (R91) -/

/-- The integer nearest `n / d`, ties to even. -/
def roundHalfEven (n d : Nat) : Nat :=
  let q := n / d
  let r := n % d
  if 2 * r < d then q else if d < 2 * r then q + 1 else q + q % 2

/-- The magnitude pattern of infinity, bits [62:0]. -/
def infMag : Nat := 2047 * 2 ^ 52

/-- The magnitude pattern of `n / d` units rounded to nearest, ties to even, subnormal where it has
to be (R105) and infinity on overflow (R106). With `k` the exponent of the spacing of the numbers
about `n / d`, the pattern of `r` spacings is `k * 2^52 + r`, also where `r` carries into the next
binade. -/
def roundMag (n d : Nat) : Nat :=
  let k := Nat.log2 (n / d) - 52
  min (k * 2 ^ 52 + roundHalfEven n (d * 2 ^ k)) infMag

/-- The word of a sign and a magnitude pattern. -/
def packMag (neg : Bool) (m : Nat) : Word := BitVec.ofNat 64 (if neg then 2 ^ 63 + m else m)

/-- `n / d` units with a sign, rounded to binary64. -/
def roundTo (neg : Bool) (n d : Nat) : Word := packMag neg (roundMag n d)

/-- The zero of a sign. -/
def signedZero (neg : Bool) : Word := if neg then negZero else posZero

/-- The infinity of a sign. -/
def signedInf (neg : Bool) : Word := if neg then negInf else posInf

/-! ### The operations -/

/-- `fneg(a)`: bit 63 inverted and nothing else, for every pattern (R97). -/
def fneg (a : Word) : Word := a ^^^ negZero

/-- `fadd(a, b)` (R92). An exact sum of zero is `+0` unless both operands are `-0`. -/
def fadd (nan a b : Word) : Word :=
  if isNaN a || isNaN b then nan
  else if isInf a then (if isInf b && (signBit a != signBit b) then nan else a)
  else if isInf b then b
  else
    let x := units a + units b
    if x = 0 then signedZero (signBit a && signBit b) else roundTo (decide (x < 0)) x.natAbs 1

/-- `fsub(a, b) = fadd(a, fneg(b))`, and a NaN for a NaN operand (R93). -/
def fsub (nan a b : Word) : Word := fadd nan a (fneg b)

/-- `fmul(a, b)` (R94). -/
def fmul (nan a b : Word) : Word :=
  let neg := signBit a != signBit b
  if isNaN a || isNaN b then nan
  else if isInf a then (if isZero b then nan else signedInf neg)
  else if isInf b then (if isZero a then nan else signedInf neg)
  else roundTo neg (magUnits a * magUnits b) unitsPerOne

/-- `fdiv(a, b)` (R95). -/
def fdiv (nan a b : Word) : Word :=
  let neg := signBit a != signBit b
  if isNaN a || isNaN b then nan
  else if isInf a then (if isInf b then nan else signedInf neg)
  else if isInf b then signedZero neg
  else if isZero b then (if isZero a then nan else signedInf neg)
  else roundTo neg (magUnits a * unitsPerOne) (magUnits b)

/-- The bits of the integer square root of `n`, from bit `b - 1` down, added to `r`. -/
def isqrtFrom (n : Nat) : Nat → Nat → Nat
  | 0, r => r
  | b + 1, r => if (r + 2 ^ b) * (r + 2 ^ b) ≤ n then isqrtFrom n b (r + 2 ^ b) else isqrtFrom n b r

/-- The integer square root. -/
def isqrt (n : Nat) : Nat := isqrtFrom n (Nat.log2 n / 2 + 1) 0

/-- `fsqrt(a)` (R96). The root of `m` units is the root of `m * 2^1074` as an integer count of units;
where it is not exact, half a unit above the integer root stands for it, since every number and every
midpoint in its range is a whole count of units. -/
def fsqrt (nan a : Word) : Word :=
  if isNaN a then nan
  else if isZero a then a
  else if signBit a then nan
  else if isInf a then a
  else
    let m := magUnits a * unitsPerOne
    let r := isqrt m
    roundTo false (if r * r = m then 2 * r else 2 * r + 1) 2

end Sys2Proof.Machine
end

