-- ==== Sys2Proof/Machine/State.lean ====
section
/-!
DEFINITION. The state of the machine as plain data (10_state), its reset value, and the reasons a
step can stop.
-/

namespace Sys2Proof.Machine

/-- The two delay registers of a band (R22, R23). -/
structure Delay where
  s1 : Word
  s2 : Word
  deriving DecidableEq, Repr

/-- One occupied slot of the band store: seven words (R20). -/
structure Band where
  coef : Coeffs
  dly : Delay
  deriving DecidableEq, Repr

/-- What the host does at the block's inputs (R17, R43). -/
inductive HostEvent where
  /-- A command packet on the command port. -/
  | packet (p : Packet)
  /-- The reset input asserted and released between two commands (R230, R232). -/
  | reset
  deriving DecidableEq, Repr

/-- The statuses of R200. -/
inductive Status where
  | OK
  | InvalidParameter
  | IndexOutOfRange
  | ChainFull
  | IllegalCommand
  deriving DecidableEq, Repr

/-- The faults of the machine. There are none: "No command traps, hangs, or blocks", and a model has
"no fault outcome and no stuck outcome for this block" (R18). Nothing raises one. -/
inductive Fault : Type
  deriving DecidableEq, Repr

/-- The refusals of the machine. -/
inductive Refusal where
  /-- Raised by the dispatcher for a command without a meaning; safe. Every command of the opcode
  table has its meaning, so nothing raises it. -/
  | notModelled (mnemonic : String)
  deriving DecidableEq, Repr

/-- The state. -/
structure State where
  /-- The occupied slots `band[0] .. band[N-1]` of the band store in slot order (R20, R24, R25). -/
  bands : List Band
  /-- What the host has put on the command port and the reset input and the engine has not looked
  at, oldest first (R43, R47). -/
  cmdPort : List HostEvent
  /-- The response packets emitted on the response port, oldest first (R43, R48). -/
  respPort : List Packet
  /-- The MODEL's own counter, not the spec's: how many NaN words of `Config.qnan` have been passed
  (R104, log 4). -/
  nanDraws : Nat
  deriving DecidableEq, Repr

/-- The band count `N` (R24): slots `0 .. N-1` are the occupied ones (R25). -/
def State.N (s : State) : Nat := s.bands.length

/-- The band count register: `N` in 8 bits (R24, R29). -/
def State.countReg (s : State) : BitVec 8 := BitVec.ofNat 8 s.N

/-- The machine right after reset: `N = 0` (R34, R230). Both ports empty and the NaN counter at 0 are
the model's own (DESIGN CHOICE, logs 1 and 4). -/
def State.reset : State :=
  { bands := []
    cmdPort := []
    respPort := []
    nanDraws := 0 }

end Sys2Proof.Machine
end

