-- ==== Sys2Proof/Machine/Ops.lean ====
section
/-!
DEFINITION. The shared operations: response packets (R68, R69), raising an error status (R14, R204),
the moves of the ports and of the reset input (R43, R47, R230), the band store (R40, R156, R172,
R174), and the draws of NaN words (R104).
-/

namespace Sys2Proof.Machine

/-! ### Responses (R68, R200) -/

/-- The code of a status (R200). -/
def Status.code : Status → BitVec 4
  | .OK => 0
  | .InvalidParameter => 1
  | .IndexOutOfRange => 2
  | .ChainFull => 3
  | .IllegalCommand => 4

/-- The header word of a response: CNT, reserved, VAL, OPC, reserved, STATUS (R68). -/
def responseHeader (st : Status) (opc val : BitVec 8) (cnt : Nat) : Word :=
  BitVec.ofNat 32 cnt ++ 0#8 ++ val ++ opc ++ 0#4 ++ st.code

/-- A response packet with its data words; CNT is their number (R68). -/
def responsePacket (opc : BitVec 8) (st : Status) (val : BitVec 8) (data : List Word) : Packet :=
  responseHeader st opc val data.length :: data

/-- `respond(st, val, data)`: the command ends and the block emits one response packet (R14). -/
def respond (opc : BitVec 8) (st : Status) (val : BitVec 8) (data : List Word) (s : State) : State :=
  { s with respPort := s.respPort ++ [responsePacket opc st val data] }

/-- `raise <Status>`: the error response, no other effect (R14, R204). It is what this block has in
the place of taking an exception (R209). -/
def raise (opc : BitVec 8) (st : Status) (s : State) : State := respond opc st 0 [] s

/-! ### The ports and the reset input -/

/-- The command port without its oldest event. -/
def State.dropEvent (s : State) : State := { s with cmdPort := s.cmdPort.tail }

/-- Hardware reset: `N = 0`, every slot free, no response (R230). The ports keep what has crossed
them. -/
def hardwareReset (s : State) : State := { s with bands := [] }

/-- The answer to a packet that the decoder rejects: IllegalCommand with the echoed byte, no state
change (R201). -/
def answerIllegal (p : Packet) (s : State) : State := raise (echoedOpc p) .IllegalCommand s

/-- A packet put first on the command port. -/
def State.withPacket (s : State) (p : Packet) : State :=
  { s with cmdPort := .packet p :: s.cmdPort }

/-! ### NaN words (R104) -/

/-- The NaN words of the command at hand: its i-th arithmetic operation answers the i-th of them if
it answers a NaN. -/
def State.draws (s : State) : Nat → Word := fun i => Config.qnan (s.nanDraws + i)

/-- The NaN words from the n-th on. -/
def skip (n : Nat) (q : Nat → Word) : Nat → Word := fun i => q (n + i)

/-- `n` NaN words are passed. -/
def State.spend (n : Nat) (s : State) : State := { s with nanDraws := s.nanDraws + n }

/-! ### The band store -/

/-- Both delay registers `+0` (R32, R158, R175). -/
def zeroDelay : Delay := ⟨posZero, posZero⟩

/-- The default pass-through coefficients (R33). -/
def passThrough : Coeffs := ⟨one, posZero, posZero, posZero, posZero⟩

/-- A band as it is created: delay registers `+0` (R32). -/
def newBand (c : Coeffs) : Band := ⟨c, zeroDelay⟩

/-- Slot `idx` is written. -/
def State.putBand (s : State) (idx : BitVec 8) (b : Band) : State :=
  { s with bands := s.bands.set idx.toNat b }

/-- The end of an append in a store of `cap` slots: ChainFull when `N` is `cap`, and otherwise the
new band in slot `N`, its index as VAL (R156, R172). `cost` NaN words were passed on the way. -/
def appendBand (cap : Nat) (opc : BitVec 8) (c : Coeffs) (cost : Nat) (s : State) : State :=
  if s.N = cap then raise opc .ChainFull s
  else respond opc .OK s.countReg []
    (State.spend cost { s with bands := s.bands ++ [newBand c] })

/-- Slot `idx` is dropped and the later ones shift down by one, all seven fields (R174). -/
def State.removeBand (s : State) (idx : BitVec 8) : State :=
  { s with bands := s.bands.eraseIdx idx.toNat }

/-- A band with its delay registers cleared (R158, R175). -/
def Band.cleared (b : Band) : Band := { b with dly := zeroDelay }

/-- The seven words of a band in the field order of R20 (R191). -/
def Band.words (b : Band) : List Word := b.coef.words ++ [b.dly.s1, b.dly.s2]

end Sys2Proof.Machine
end

