-- ==== Sys2Proof/Machine/Operands.lean ====
section
/-!
DEFINITION. The operand forms. The only addressing mode is band index direct (R41). The other
operands are the words of the packet, taken as they are (R64 to R66).
-/

namespace Sys2Proof.Machine

/-- The band of an index, if `IDX < N` (R41). -/
def State.band? (s : State) (idx : BitVec 8) : Option Band := s.bands[idx.toNat]?

/-- A command on band `idx`: IndexOutOfRange unless `IDX < N` (R41, R206), and otherwise what `k` does
with the band. -/
def withBand (opc : BitVec 8) (idx : BitVec 8) (s : State) (k : Band → State) : State :=
  match s.band? idx with
  | none => raise opc .IndexOutOfRange s
  | some b => k b

end Sys2Proof.Machine
end

