-- ==== Sys2Proof/Machine/Biquad.lean ====
section
/-!
DEFINITION. The biquad unit (42_biquad): the step, the block, and the commands BQ_NEW, BQ_SETCOEF,
BQ_RESET, BQ_PROC and BQ_PROCB.
-/

namespace Sys2Proof.Machine

/-- How many NaN words one step passes: one for each of its nine operations. -/
def bqStepDraws : Nat := 9

/-- `bq_step`: the output sample and the new delay registers (R152). -/
def bqStep (q : Nat → Word) (c : Coeffs) (d : Delay) (x : Word) : Word × Delay :=
  let y := fadd (q 1) (fmul (q 0) c.b0 x) d.s1
  let s1 := fadd (q 5) (fsub (q 4) (fmul (q 2) c.b1 x) (fmul (q 3) c.a1 y)) d.s2
  let s2 := fsub (q 8) (fmul (q 6) c.b2 x) (fmul (q 7) c.a2 y)
  (y, ⟨s1, s2⟩)

/-- `bq_block`: the step applied to a list of samples in order (R154). -/
def bqBlock (q : Nat → Word) (c : Coeffs) (d : Delay) : List Word → List Word × Delay
  | [] => ([], d)
  | x :: rest =>
    let r := bqStep q c d x
    let t := bqBlock (skip bqStepDraws q) c r.2 rest
    (r.1 :: t.1, t.2)

/-- BQ_NEW (R156). -/
def execBqNew (s : State) : Host.Outcome State Fault Refusal :=
  .next (appendBand Config.MAXBANDS Opcode.bqNew.byte passThrough 0 s)

/-- BQ_SETCOEF (R157): the delay registers stay. -/
def execBqSetcoef (idx : BitVec 8) (c : Coeffs) (s : State) : Host.Outcome State Fault Refusal :=
  .next <| withBand Opcode.bqSetcoef.byte idx s fun b =>
    respond Opcode.bqSetcoef.byte .OK 0 [] (s.putBand idx { b with coef := c })

/-- BQ_RESET (R158). -/
def execBqReset (idx : BitVec 8) (s : State) : Host.Outcome State Fault Refusal :=
  .next <| withBand Opcode.bqReset.byte idx s fun b =>
    respond Opcode.bqReset.byte .OK 0 [] (s.putBand idx b.cleared)

/-- BQ_PROC (R159). -/
def execBqProc (idx : BitVec 8) (x : Word) (s : State) : Host.Outcome State Fault Refusal :=
  .next <| withBand Opcode.bqProc.byte idx s fun b =>
    let r := bqStep s.draws b.coef b.dly x
    respond Opcode.bqProc.byte .OK 0 [r.1]
      ((s.putBand idx { b with dly := r.2 }).spend bqStepDraws)

/-- BQ_PROCB (R160). -/
def execBqProcb (idx : BitVec 8) (xs : List Word) (s : State) :
    Host.Outcome State Fault Refusal :=
  .next <| withBand Opcode.bqProcb.byte idx s fun b =>
    let r := bqBlock s.draws b.coef b.dly xs
    respond Opcode.bqProcb.byte .OK 0 r.1
      ((s.putBand idx { b with dly := r.2 }).spend (bqStepDraws * xs.length))

end Sys2Proof.Machine
end

