-- ==== Sys2Proof/Machine/Elementary.lean ====
section
/-!
DEFINITION. The four elementary functions (40_numerics R98 to R101) over a record `Numerics`: the
special values the rules require of every record stand here, and every other value is the record's.
Which records the implementation's is among is in Machine/Numerics.lean.
-/

namespace Sys2Proof.Machine

/-- A quiet NaN made of any word: exponent 2047 and bit 51 set, the other bits as they are. -/
def quieten (w : Word) : Word := w ||| 0x7FF8000000000000

/-- The word without its sign. -/
def clearSign (w : Word) : Word := w &&& 0x7FFFFFFFFFFFFFFF

/-- `fsin(w)` (R98): a NaN for a NaN or an infinity, `+0` for `+0`. -/
def fsin (num : Numerics) (w : Word) : Word :=
  if isNaN w || isInf w then quieten (num.fsin w)
  else if w = posZero then posZero
  else num.fsin w

/-- `fcos(w)` (R99): a NaN for a NaN or an infinity, `1.0` for a zero. -/
def fcos (num : Numerics) (w : Word) : Word :=
  if isNaN w || isInf w then quieten (num.fcos w)
  else if isZero w then one
  else num.fcos w

/-- `fpow10(e)` (R100): a NaN for a NaN, `1.0` for a zero, `+inf` and `+0` for the infinities, and
never negative and never `-0`. -/
def fpow10 (num : Numerics) (e : Word) : Word :=
  if isNaN e then quieten (num.fpow10 e)
  else if isZero e then one
  else if isInf e then (if signBit e then posZero else posInf)
  else clearSign (num.fpow10 e)

/-- `fsinh(t)` (R101): a NaN for a NaN, its operand for a zero or an infinity. -/
def fsinh (num : Numerics) (t : Word) : Word :=
  if isNaN t then quieten (num.fsinh t)
  else if isZero t || isInf t then t
  else num.fsinh t

end Sys2Proof.Machine
end

