-- ==== Sys2Proof/Laws/Float.lean ====
section
/-!
SUPPORT. Laws of the number format and of the five operations: the fields of a word as numbers, what
the operations do with NaNs, that they respect equality up to NaN payloads, and that rounding a
representable value gives it back.
-/

namespace Sys2Proof.Machine

/-! ### The fields as numbers -/

theorem magField_eq (w : Word) : magField w = w.toNat % 2 ^ 63 := by
  simp [magField]

theorem fracField_eq (w : Word) : fracField w = magField w % 2 ^ 52 := by
  simp only [fracField, magField_eq, BitVec.extractLsb'_toNat, Nat.shiftRight_zero]
  omega

theorem expField_eq (w : Word) : expField w = magField w / 2 ^ 52 := by
  have := w.isLt
  simp only [expField, magField_eq, BitVec.extractLsb'_toNat, Nat.shiftRight_eq_div_pow]
  omega

theorem magField_split (w : Word) : magField w = expField w * 2 ^ 52 + fracField w := by
  rw [expField_eq, fracField_eq]; omega

theorem magField_lt (w : Word) : magField w < 2 ^ 63 := by
  rw [magField_eq]; exact Nat.mod_lt _ (by decide)

theorem fracField_lt (w : Word) : fracField w < 2 ^ 52 := by
  rw [fracField_eq]; exact Nat.mod_lt _ (by decide)

theorem expField_lt (w : Word) : expField w < 2048 := by
  have := magField_lt w; rw [expField_eq]; omega

theorem signBit_eq (w : Word) : signBit w = decide (2 ^ 63 ≤ w.toNat) := by
  have := w.isLt
  have h : w.getLsbD 63 = w.msb := by simp [BitVec.msb_eq_getLsbD_last]
  rw [signBit, h, BitVec.msb_eq_decide]

/-- A word is its sign and its magnitude pattern. -/
theorem packMag_fields (w : Word) : packMag (signBit w) (magField w) = w := by
  have := w.isLt
  apply BitVec.eq_of_toNat_eq
  rw [packMag, signBit_eq, magField_eq, BitVec.toNat_ofNat]
  by_cases h : 2 ^ 63 ≤ w.toNat
  · rw [decide_eq_true h, if_pos rfl]; omega
  · rw [decide_eq_false h, if_neg Bool.false_ne_true]; omega

theorem word_ext {a b : Word} (hs : signBit a = signBit b) (hm : magField a = magField b) : a = b := by
  rw [← packMag_fields a, ← packMag_fields b, hs, hm]

theorem toNat_packMag {neg : Bool} {m : Nat} (h : m < 2 ^ 63) :
    (packMag neg m).toNat = if neg then 2 ^ 63 + m else m := by
  cases neg <;> simp [packMag] <;> omega

theorem magField_packMag {neg : Bool} {m : Nat} (h : m < 2 ^ 63) : magField (packMag neg m) = m := by
  rw [magField_eq, toNat_packMag h]; split_ifs <;> omega

theorem signBit_packMag {neg : Bool} {m : Nat} (h : m < 2 ^ 63) : signBit (packMag neg m) = neg := by
  rw [signBit_eq, toNat_packMag h]; cases neg <;> simp; omega

/-! ### Classes by the magnitude pattern -/

theorem isFinite_iff (w : Word) : isFinite w = true ↔ magField w < infMag := by
  have h1 := magField_split w
  have h2 := fracField_lt w
  have h3 := expField_lt w
  simp only [isFinite, bne_iff_ne, infMag]; omega

theorem isNaN_iff (w : Word) : isNaN w = true ↔ infMag < magField w := by
  have h1 := magField_split w
  have h2 := fracField_lt w
  have h3 := expField_lt w
  simp only [isNaN, Bool.and_eq_true, beq_iff_eq, bne_iff_ne, infMag]; omega

theorem isInf_iff (w : Word) : isInf w = true ↔ magField w = infMag := by
  have h1 := magField_split w
  have h2 := fracField_lt w
  have h3 := expField_lt w
  simp only [isInf, Bool.and_eq_true, beq_iff_eq, infMag]; omega

theorem isZero_iff (w : Word) : isZero w = true ↔ magField w = 0 := by simp [isZero]

theorem isNaN_of_isFinite {w : Word} (h : isFinite w = true) : isNaN w = false := by
  simp only [isFinite, bne_iff_ne] at h; simp [isNaN, h]

theorem isInf_of_isFinite {w : Word} (h : isFinite w = true) : isInf w = false := by
  simp only [isFinite, bne_iff_ne] at h; simp [isInf, h]

theorem isFinite_of_isZero {w : Word} (h : isZero w = true) : isFinite w = true := by
  rw [isFinite_iff, (isZero_iff w).mp h]; decide

/-- Every word is a NaN, an infinity or finite. -/
theorem class_cases (w : Word) : isNaN w = true ∨ isInf w = true ∨ isFinite w = true := by
  rw [isNaN_iff, isInf_iff, isFinite_iff]; omega

/-! ### fneg (R97) -/

@[simp] theorem signBit_fneg (w : Word) : signBit (fneg w) = !signBit w := by
  simp only [signBit, fneg, BitVec.getLsbD_xor]
  have : negZero.getLsbD 63 = true := by decide
  rw [this, Bool.xor_true]

@[simp] theorem magField_fneg (w : Word) : magField (fneg w) = magField w := by
  simp only [magField, fneg]
  congr 1
  apply BitVec.eq_of_getLsbD_eq
  intro i hi
  have hz : negZero.getLsbD i = false := by
    rw [show negZero = BitVec.twoPow 64 63 by decide, BitVec.getLsbD_twoPow]
    simp; omega
  simp [BitVec.getLsbD_extractLsb', BitVec.getLsbD_xor, hz]

@[simp] theorem expField_fneg (w : Word) : expField (fneg w) = expField w := by simp [expField_eq]
@[simp] theorem fracField_fneg (w : Word) : fracField (fneg w) = fracField w := by simp [fracField_eq]
@[simp] theorem isNaN_fneg (w : Word) : isNaN (fneg w) = isNaN w := by simp [isNaN]
@[simp] theorem isInf_fneg (w : Word) : isInf (fneg w) = isInf w := by simp [isInf]
@[simp] theorem isFinite_fneg (w : Word) : isFinite (fneg w) = isFinite w := by simp [isFinite]
@[simp] theorem isZero_fneg (w : Word) : isZero (fneg w) = isZero w := by simp [isZero]
@[simp] theorem magUnits_fneg (w : Word) : magUnits (fneg w) = magUnits w := by simp [magUnits]

@[simp] theorem units_fneg (w : Word) : units (fneg w) = -units w := by
  cases h : signBit w <;> simp [units, h]

/-! ### NaN words and NaN operands (R104) -/

theorem isNaN_quieten (w : Word) : isNaN (quieten w) = true := by
  have he : expField (quieten w) = 2047 := by
    have : (quieten w).extractLsb' 52 11 = 0x7FF#11 := by
      apply BitVec.eq_of_getLsbD_eq
      intro i hi
      simp only [quieten, BitVec.getLsbD_extractLsb', BitVec.getLsbD_or]
      interval_cases i <;> simp
    rw [expField, this]; rfl
  have hf : fracField (quieten w) ≠ 0 := by
    intro h0
    have hb : ((quieten w).extractLsb' 0 52).getLsbD 51 = true := by
      simp [quieten]
    have : (quieten w).extractLsb' 0 52 = 0#52 := BitVec.eq_of_toNat_eq (by simpa [fracField] using h0)
    rw [this] at hb
    simp at hb
  simp [isNaN, he, hf]

/-- Every NaN word of Config is a quiet NaN (R104). -/
theorem isQuietNaN_qnan (k : Nat) : isQuietNaN (Config.qnan k) = true := by
  have hw : Config.qnan k = quieten (Config.qnan k) := by
    apply BitVec.eq_of_getLsbD_eq
    intro i hi
    simp only [quieten, BitVec.getLsbD_or, Config.qnan, BitVec.getLsbD_append]
    interval_cases i <;> simp
  have hb : (Config.qnan k).getLsbD 51 = true := by
    rw [hw]; simp [quieten]
  rw [isQuietNaN, hb, Bool.and_true, hw]
  exact isNaN_quieten _

@[simp] theorem isNaN_qnan (k : Nat) : isNaN (Config.qnan k) = true := by
  have := isQuietNaN_qnan k
  simp only [isQuietNaN, Bool.and_eq_true] at this
  exact this.1

@[simp] theorem isNaN_draws (s : State) (i : Nat) : isNaN (s.draws i) = true := isNaN_qnan _

theorem fadd_nan {nan a b : Word} (h : isNaN a = true ∨ isNaN b = true) : fadd nan a b = nan := by
  rcases h with h | h <;> simp [fadd, h]

theorem fsub_nan {nan a b : Word} (h : isNaN a = true ∨ isNaN b = true) : fsub nan a b = nan :=
  fadd_nan (h.imp_right (by simp))

theorem fmul_nan {nan a b : Word} (h : isNaN a = true ∨ isNaN b = true) : fmul nan a b = nan := by
  rcases h with h | h <;> simp [fmul, h]

theorem fdiv_nan {nan a b : Word} (h : isNaN a = true ∨ isNaN b = true) : fdiv nan a b = nan := by
  rcases h with h | h <;> simp [fdiv, h]

theorem fsqrt_nan {nan a : Word} (h : isNaN a = true) : fsqrt nan a = nan := by simp [fsqrt, h]

/-! ### Equality up to NaN payloads -/

theorem SameF64.refl (a : Word) : SameF64 a a := .inl rfl

theorem SameF64.symm {a b : Word} (h : SameF64 a b) : SameF64 b a :=
  h.elim (fun e => .inl e.symm) fun e => .inr ⟨e.2, e.1⟩

theorem SameF64.trans {a b c : Word} (h : SameF64 a b) (k : SameF64 b c) : SameF64 a c := by
  rcases h with rfl | ⟨ha, hb⟩
  · exact k
  · rcases k with rfl | ⟨-, hc⟩
    · exact .inr ⟨ha, hb⟩
    · exact .inr ⟨ha, hc⟩

/-- An operation with a free NaN word gives equal results, or NaNs, for equal operands. -/
theorem SameF64.of_free {f : Word → Word} (hf : ∀ n m, f n = f m ∨ (f n = n ∧ f m = m))
    {n m : Word} (hn : isNaN n = true) (hm : isNaN m = true) : SameF64 (f n) (f m) := by
  rcases hf n m with h | ⟨h1, h2⟩
  · exact .inl h
  · exact .inr ⟨by rw [h1]; exact hn, by rw [h2]; exact hm⟩

section congruence
variable {n m a b c d : Word}

theorem SameF64.fneg (h : SameF64 a b) : SameF64 (fneg a) (fneg b) := by
  rcases h with rfl | ⟨h1, h2⟩
  · exact .refl _
  · exact .inr ⟨by simpa using h1, by simpa using h2⟩

theorem SameF64.fadd (hn : isNaN n = true) (hm : isNaN m = true) (h : SameF64 a b)
    (k : SameF64 c d) : SameF64 (fadd n a c) (fadd m b d) := by
  rcases h with rfl | ⟨h1, h2⟩
  · rcases k with rfl | ⟨k1, k2⟩
    · refine SameF64.of_free (f := fun n => Machine.fadd n a c) (fun n m => ?_) hn hm
      simp only [Machine.fadd]; split_ifs <;> simp
    · rw [fadd_nan (.inr k1), fadd_nan (.inr k2)]; exact .inr ⟨hn, hm⟩
  · rw [fadd_nan (.inl h1), fadd_nan (.inl h2)]; exact .inr ⟨hn, hm⟩

theorem SameF64.fsub (hn : isNaN n = true) (hm : isNaN m = true) (h : SameF64 a b)
    (k : SameF64 c d) : SameF64 (fsub n a c) (fsub m b d) := h.fadd hn hm k.fneg

theorem SameF64.fmul (hn : isNaN n = true) (hm : isNaN m = true) (h : SameF64 a b)
    (k : SameF64 c d) : SameF64 (fmul n a c) (fmul m b d) := by
  rcases h with rfl | ⟨h1, h2⟩
  · rcases k with rfl | ⟨k1, k2⟩
    · refine SameF64.of_free (f := fun n => Machine.fmul n a c) (fun n m => ?_) hn hm
      simp only [Machine.fmul]; split_ifs <;> simp
    · rw [fmul_nan (.inr k1), fmul_nan (.inr k2)]; exact .inr ⟨hn, hm⟩
  · rw [fmul_nan (.inl h1), fmul_nan (.inl h2)]; exact .inr ⟨hn, hm⟩

theorem SameF64.fdiv (hn : isNaN n = true) (hm : isNaN m = true) (h : SameF64 a b)
    (k : SameF64 c d) : SameF64 (fdiv n a c) (fdiv m b d) := by
  rcases h with rfl | ⟨h1, h2⟩
  · rcases k with rfl | ⟨k1, k2⟩
    · refine SameF64.of_free (f := fun n => Machine.fdiv n a c) (fun n m => ?_) hn hm
      simp only [Machine.fdiv]; split_ifs <;> simp
    · rw [fdiv_nan (.inr k1), fdiv_nan (.inr k2)]; exact .inr ⟨hn, hm⟩
  · rw [fdiv_nan (.inl h1), fdiv_nan (.inl h2)]; exact .inr ⟨hn, hm⟩

theorem SameF64.fsqrt (hn : isNaN n = true) (hm : isNaN m = true) (h : SameF64 a b) :
    SameF64 (fsqrt n a) (fsqrt m b) := by
  rcases h with rfl | ⟨h1, h2⟩
  · refine SameF64.of_free (f := fun n => Machine.fsqrt n a) (fun n m => ?_) hn hm
    simp only [Machine.fsqrt]; split_ifs <;> simp
  · rw [fsqrt_nan h1, fsqrt_nan h2]; exact .inr ⟨hn, hm⟩

variable (num : Numerics)

theorem SameF64.fsin (h : SameF64 a b) : SameF64 (fsin num a) (fsin num b) := by
  rcases h with rfl | ⟨h1, h2⟩
  · exact .refl _
  · exact .inr ⟨by simp [Machine.fsin, h1, isNaN_quieten], by simp [Machine.fsin, h2, isNaN_quieten]⟩

theorem SameF64.fcos (h : SameF64 a b) : SameF64 (fcos num a) (fcos num b) := by
  rcases h with rfl | ⟨h1, h2⟩
  · exact .refl _
  · exact .inr ⟨by simp [Machine.fcos, h1, isNaN_quieten], by simp [Machine.fcos, h2, isNaN_quieten]⟩

theorem SameF64.fpow10 (h : SameF64 a b) : SameF64 (fpow10 num a) (fpow10 num b) := by
  rcases h with rfl | ⟨h1, h2⟩
  · exact .refl _
  · exact .inr
      ⟨by simp [Machine.fpow10, h1, isNaN_quieten], by simp [Machine.fpow10, h2, isNaN_quieten]⟩

theorem SameF64.fsinh (h : SameF64 a b) : SameF64 (fsinh num a) (fsinh num b) := by
  rcases h with rfl | ⟨h1, h2⟩
  · exact .refl _
  · exact .inr
      ⟨by simp [Machine.fsinh, h1, isNaN_quieten], by simp [Machine.fsinh, h2, isNaN_quieten]⟩

end congruence

/-! ### Rounding a representable value (R91) -/

theorem roundHalfEven_mul (k : Nat) {d : Nat} (h : 0 < d) : roundHalfEven (k * d) d = k := by
  simp [roundHalfEven, Nat.mul_div_cancel _ h, Nat.mul_mod_left, h]

/-- The magnitude of a number as spacings of its binade. -/
theorem roundMag_scaled {r k d : Nat} (hd : 0 < d) (h1 : r < 2 ^ 53) (h2 : k = 0 ∨ 2 ^ 52 ≤ r)
    (h3 : k * 2 ^ 52 + r ≤ infMag) : roundMag (r * 2 ^ k * d) d = k * 2 ^ 52 + r := by
  have hk : Nat.log2 (r * 2 ^ k * d / d) - 52 = k := by
    rw [Nat.mul_div_cancel _ hd]
    rcases h2 with rfl | h2
    · by_cases h0 : r = 0
      · subst h0; simp
      · have : Nat.log2 r < 53 := (Nat.log2_lt h0).mpr h1
        simp; omega
    · have h0 : r ≠ 0 := by omega
      have hp : r * 2 ^ k ≠ 0 := by positivity
      have hlo : 52 + k ≤ Nat.log2 (r * 2 ^ k) := by
        rw [Nat.le_log2 hp, pow_add]; exact Nat.mul_le_mul_right _ h2
      have hhi : Nat.log2 (r * 2 ^ k) < 53 + k := by
        rw [Nat.log2_lt hp, pow_add]; exact Nat.mul_lt_mul_of_pos_right h1 (by positivity)
      omega
  have he : roundHalfEven (r * 2 ^ k * d) (d * 2 ^ k) = r := by
    rw [show r * 2 ^ k * d = r * (d * 2 ^ k) by ring]
    exact roundHalfEven_mul r (by positivity)
  simp only [roundMag]
  rw [hk, he]
  exact min_eq_left h3

/-- Rounding the magnitude of a finite number gives its pattern. -/
theorem roundMag_magUnits {w : Word} {d : Nat} (hd : 0 < d) (hf : isFinite w = true) :
    roundMag (magUnits w * d) d = magField w := by
  have hlt := (isFinite_iff w).mp hf
  have hs := magField_split w
  have hfr := fracField_lt w
  by_cases he : expField w = 0
  · have := roundMag_scaled (r := fracField w) (k := 0) hd (by omega) (.inl rfl)
      (by simp only [infMag]; omega)
    rw [magUnits, if_pos he]
    simpa [hs, he] using this
  · have := roundMag_scaled (r := 2 ^ 52 + fracField w) (k := expField w - 1) hd (by omega)
      (.inr (by omega)) (by simp only [infMag] at hlt ⊢; omega)
    rw [magUnits, if_neg he, this, hs]
    omega

/-- Rounding the value of a finite number gives the number. -/
theorem roundTo_magUnits {w : Word} {d : Nat} (hd : 0 < d) (hf : isFinite w = true) :
    roundTo (signBit w) (magUnits w * d) d = w := by
  rw [roundTo, roundMag_magUnits hd hf, packMag_fields]

theorem magUnits_eq_zero {w : Word} : magUnits w = 0 ↔ isZero w = true := by
  rw [isZero_iff, magField_split]
  by_cases he : expField w = 0
  · simp [magUnits, he]
  · have : (2 ^ 52 + fracField w) * 2 ^ (expField w - 1) ≠ 0 := by positivity
    simp only [magUnits, he, if_false]
    constructor
    · intro h; exact absurd h this
    · intro h; omega

theorem units_natAbs (w : Word) : (units w).natAbs = magUnits w := by
  cases h : signBit w <;> simp [units, h]

theorem units_eq_zero {w : Word} : units w = 0 ↔ isZero w = true := by
  rw [← magUnits_eq_zero, ← units_natAbs, Int.natAbs_eq_zero]

theorem roundMag_le (n d : Nat) : roundMag n d ≤ infMag := min_le_right _ _

theorem roundMag_lt (n d : Nat) : roundMag n d < 2 ^ 63 :=
  lt_of_le_of_lt (roundMag_le n d) (by decide)

/-- Rounding never makes a NaN. -/
theorem isNaN_roundTo (neg : Bool) (n d : Nat) : isNaN (roundTo neg n d) = false := by
  rw [← Bool.not_eq_true, isNaN_iff, roundTo, magField_packMag (roundMag_lt n d), not_lt]
  exact roundMag_le n d

theorem signBit_roundTo (neg : Bool) (n d : Nat) : signBit (roundTo neg n d) = neg := by
  rw [roundTo, signBit_packMag (roundMag_lt n d)]

theorem roundMag_zero {d : Nat} : roundMag 0 d = 0 := by
  simp only [roundMag, roundHalfEven, Nat.zero_div, Nat.zero_mod]
  simp [Nat.log2_zero]

theorem isZero_signedZero (neg : Bool) : isZero (signedZero neg) = true := by cases neg <;> decide

theorem isInf_signedInf (neg : Bool) : isInf (signedInf neg) = true := by cases neg <;> decide

/-! ### The identities of R92, R94 and R95 that the filter properties rest on -/

/-- `fadd(x, ±0) = x` for every non-zero non-NaN `x` (R92). -/
theorem fadd_zero_right {nan x z : Word} (hx : isNaN x = false) (h0 : isZero x = false)
    (hz : isZero z = true) : fadd nan x z = x := by
  have hzf := isFinite_of_isZero hz
  rcases class_cases x with h | h | h
  · rw [hx] at h; cases h
  · simp [fadd, hx, isNaN_of_isFinite hzf, isInf_of_isFinite hzf, h]
  · have hu : units z = 0 := units_eq_zero.mpr hz
    have hne : units x ≠ 0 := fun hc => by rw [units_eq_zero, h0] at hc; cases hc
    have hsign : decide (units x < 0) = signBit x := by
      cases hs : signBit x
      · simp [units, hs]
      · have : magUnits x ≠ 0 := fun hc => by rw [magUnits_eq_zero, h0] at hc; cases hc
        simp [units, hs]; omega
    have hr := roundTo_magUnits (w := x) (d := 1) (by decide) h
    simp only [fadd, isNaN_of_isFinite h, isNaN_of_isFinite hzf, isInf_of_isFinite h,
      isInf_of_isFinite hzf, hu, Bool.or_self, Bool.false_eq_true, if_false, Int.add_zero, hne]
    rw [hsign, units_natAbs]
    simpa using hr

theorem magUnits_one : magUnits one = unitsPerOne := by
  have he : expField one = 1023 := by decide
  have hf : fracField one = 0 := by decide
  rw [magUnits, he, hf, unitsPerOne, if_neg (by decide), Nat.add_zero, ← pow_add]

theorem unitsPerOne_pos : 0 < unitsPerOne := Nat.two_pow_pos _

/-- `fmul(1.0, x) = x` for every non-NaN `x` (R94). -/
theorem fmul_one_left {nan x : Word} (hx : isNaN x = false) : fmul nan one x = x := by
  have hone : isNaN one = false := by decide
  have honei : isInf one = false := by decide
  have honez : isZero one = false := by decide
  have hones : signBit one = false := by decide
  rcases class_cases x with h | h | h
  · rw [hx] at h; cases h
  · have hm := (isInf_iff x).mp h
    have : signedInf (signBit x) = x := by
      apply word_ext
      · cases hs : signBit x <;> decide
      · rw [hm]; cases signBit x <;> decide
    simp [fmul, hone, honei, honez, hones, hx, h, this]
  · have hr := roundTo_magUnits (w := x) (d := unitsPerOne) unitsPerOne_pos h
    simp only [fmul, hone, honei, hx, isInf_of_isFinite h, Bool.or_self, Bool.false_eq_true, if_false,
      hones, magUnits_one, Bool.false_bne]
    rw [Nat.mul_comm]; exact hr

theorem fmul_comm (nan a b : Word) : fmul nan a b = fmul nan b a := by
  have hs : (signBit a != signBit b) = (signBit b != signBit a) := by
    cases signBit a <;> cases signBit b <;> rfl
  have hz : ∀ w : Word, isZero w = true → isInf w = false := fun w h =>
    isInf_of_isFinite (isFinite_of_isZero h)
  simp only [fmul, hs, Bool.or_comm (isNaN a), Nat.mul_comm (magUnits a)]
  cases h1 : isInf a <;> cases h2 : isInf b <;> simp
  · cases h3 : isZero b
    · cases h4 : isZero a
      · rfl
      · rw [hz a h4] at h1; cases h1
    · rw [hz b h3] at h2; cases h2

/-- `fmul(x, 1.0) = x` for every non-NaN `x` (R94). -/
theorem fmul_one_right {nan x : Word} (hx : isNaN x = false) : fmul nan x one = x := by
  rw [fmul_comm]; exact fmul_one_left hx

/-- A finite number times a zero is the zero of the combined sign (R94). -/
theorem fmul_zero_right {nan x z : Word} (hx : isFinite x = true) (hz : isZero z = true) :
    fmul nan x z = signedZero (signBit x != signBit z) := by
  have hzf := isFinite_of_isZero hz
  simp only [fmul, isNaN_of_isFinite hx, isNaN_of_isFinite hzf, isInf_of_isFinite hx,
    isInf_of_isFinite hzf, Bool.or_self, Bool.false_eq_true, if_false, magUnits_eq_zero.mpr hz,
    Nat.mul_zero, roundTo, roundMag_zero]
  cases signBit x != signBit z <;> decide

/-- Sums of zeros are zeros (R92). -/
theorem isZero_fadd {nan a b : Word} (ha : isZero a = true) (hb : isZero b = true) :
    isZero (fadd nan a b) = true := by
  have haf := isFinite_of_isZero ha
  have hbf := isFinite_of_isZero hb
  simp only [fadd, isNaN_of_isFinite haf, isNaN_of_isFinite hbf, isInf_of_isFinite haf,
    isInf_of_isFinite hbf, units_eq_zero.mpr ha, units_eq_zero.mpr hb, Bool.or_self,
    Bool.false_eq_true, if_false, Int.add_zero, if_true, isZero_signedZero]

/-- Differences of zeros are zeros (R93). -/
theorem isZero_fsub {nan a b : Word} (ha : isZero a = true) (hb : isZero b = true) :
    isZero (fsub nan a b) = true := isZero_fadd ha (by simpa using hb)

/-- A finite number times a zero is a zero (R94). -/
theorem isZero_fmul {nan x z : Word} (hx : isFinite x = true) (hz : isZero z = true) :
    isZero (fmul nan x z) = true := by
  rw [fmul_zero_right hx hz]; exact isZero_signedZero _

/-- `fsub(x, x) = +0` for finite `x` (R93). -/
theorem fsub_self {nan x : Word} (hx : isFinite x = true) : fsub nan x x = posZero := by
  simp only [fsub, fadd, isNaN_fneg, isInf_fneg, isNaN_of_isFinite hx, isInf_of_isFinite hx,
    units_fneg, Bool.or_self, Bool.false_eq_true, if_false, Int.add_right_neg, if_true, signBit_fneg]
  cases signBit x <;> rfl

/-- `fdiv(x, x)` is `1.0` or a NaN (R95). -/
theorem fdiv_self (nan x : Word) (hn : isNaN nan = true) :
    fdiv nan x x = one ∨ isNaN (fdiv nan x x) = true := by
  rcases class_cases x with h | h | h
  · right; rw [fdiv_nan (.inl h)]; exact hn
  · right
    have : isNaN x = false := by
      simp only [isInf, Bool.and_eq_true, beq_iff_eq] at h; simp [isNaN, h.2]
    simp [fdiv, this, h, hn]
  · by_cases hz : isZero x = true
    · right; simp [fdiv, isNaN_of_isFinite h, isInf_of_isFinite h, hz, hn]
    · left
      have hz' : isZero x = false := by simpa using hz
      have hpos : 0 < magUnits x := Nat.pos_of_ne_zero fun hc => hz (magUnits_eq_zero.mp hc)
      have hr := roundTo_magUnits (w := one) (d := magUnits x) hpos (by decide)
      have hs : signBit one = false := by decide
      rw [magUnits_one, hs] at hr
      simp only [fdiv, isNaN_of_isFinite h, isInf_of_isFinite h, hz', Bool.or_self,
        Bool.false_eq_true, if_false, bne_self_eq_false]
      rw [Nat.mul_comm]; exact hr

end Sys2Proof.Machine
end

