-- ==== Sys2Proof/Machine/Exact.lean ====
section
/-!
DEFINITION. The mathematics that the rules are stated against: the value of a number (R90), rounding to nearest
(R91), faithful rounding (R98 to R101), the difference equation and the step in exact arithmetic
(R151, R153), and the closed forms of the designer in exact arithmetic (the formulas in the comments
of R126 to R136). No command computes with anything of this file; Machine/Numerics.lean says with
`Admissible` which records the implementation's is among.
-/

namespace Sys2Proof.Machine

/-! ### Values and roundings -/

/-- The value of a finite number. -/
def toRat (w : Word) : ℚ := (units w : ℚ) / (2 ^ 1074 : ℚ)

/-- The least magnitude that round to nearest takes to an infinity: the midpoint between the largest
finite number and 2^1024. -/
def overflowBound : ℚ := (2 ^ 54 - 1) * 2 ^ 970

/-- `w` is the binary64 rounding of the non-zero real number `x`, to nearest with ties to even (R91):
no finite number is nearer, and where another one is as near, `w` is the one with an even pattern;
from `overflowBound` on it is the infinity of the sign of `x`. -/
def RoundsNearestEven (x : ℝ) (w : Word) : Prop :=
  ((overflowBound : ℝ) ≤ x ∧ w = posInf) ∨ (x ≤ -(overflowBound : ℝ) ∧ w = negInf) ∨
    (|x| < (overflowBound : ℝ) ∧ isFinite w = true ∧ (signBit w = true ↔ x < 0) ∧
      ∀ v : Word, isFinite v = true →
        |(toRat w : ℝ) - x| ≤ |(toRat v : ℝ) - x| ∧
          (|(toRat w : ℝ) - x| = |(toRat v : ℝ) - x| →
            toRat v = toRat w ∨ w.getLsbD 0 = false))

/-- Half the least positive number: a power of ten below it underflows to `+0` (R100 e). That the rule's
underflow begins there, where zero is also the nearest number, is DEDUCED (log 6). -/
def underflowBound : ℚ := 1 / 2 ^ 1075

/-- The largest finite number, as a rational. -/
def maxFinite : ℚ := (2 ^ 53 - 1) * 2 ^ 971

/-- `y` is a faithful rounding of the real number `r` (R98 to R101): the largest F64 not above `r` or
the smallest F64 not below it, hence `r` itself where `r` is an F64. Beyond the largest finite number
the neighbours are that number and the infinity, and from 2^1024 on the infinity alone. -/
def Faithful (r : ℝ) (y : Word) : Prop :=
  (isFinite y = true ∧ |r| < 2 ^ 1024 ∧
    (((toRat y : ℝ) ≤ r ∧ ∀ v, isFinite v = true → (toRat v : ℝ) ≤ r → toRat v ≤ toRat y) ∨
      (r ≤ (toRat y : ℝ) ∧ ∀ v, isFinite v = true → r ≤ (toRat v : ℝ) → toRat y ≤ toRat v))) ∨
  (y = posInf ∧ (maxFinite : ℝ) < r) ∨ (y = negInf ∧ r < -(maxFinite : ℝ))

/-- What R98 to R101 assume of the record Numerics beside the special values: faithful rounding, the
sine of a number between 0 and pi above zero (R98 c, its own inference; a clause of its own here,
DEDUCED, log 6), and the underflow of the power of ten to `+0` (R100 e), which faithful rounding alone
does not give. The implementation's record meets it: `Config.numerics_admissible`. -/
structure Admissible (num : Numerics) : Prop where
  sin : ∀ w, isFinite w = true → Faithful (Real.sin (toRat w : ℝ)) (fsin num w)
  sin_pos : ∀ w, isFinite w = true → 0 < toRat w → (toRat w : ℝ) < Real.pi →
    0 < toRat (fsin num w)
  cos : ∀ w, isFinite w = true → Faithful (Real.cos (toRat w : ℝ)) (fcos num w)
  pow10 : ∀ e, isFinite e = true → Faithful ((10 : ℝ) ^ (toRat e : ℝ)) (fpow10 num e)
  pow10_underflow : ∀ e, isFinite e = true → (10 : ℝ) ^ (toRat e : ℝ) < (underflowBound : ℝ) →
    fpow10 num e = posZero
  sinh : ∀ t, isFinite t = true → Faithful (Real.sinh (toRat t : ℝ)) (fsinh num t)

/-! ### The biquad in exact arithmetic -/

/-- The coefficients of a band as exact numbers. -/
structure ExactCoeffs (K : Type) where
  b0 : K
  b1 : K
  b2 : K
  a1 : K
  a2 : K

/-- One step in exact arithmetic, from the registers `s = (s1, s2)` (R153). -/
def exactStep {K : Type} [Field K] (c : ExactCoeffs K) (s : K × K) (x : K) : K × (K × K) :=
  let y := c.b0 * x + s.1
  (y, (c.b1 * x - c.a1 * y + s.2, c.b2 * x - c.a2 * y))

/-- The registers before sample `n` of the input `x`, from zero registers. -/
def exactRegs {K : Type} [Field K] (c : ExactCoeffs K) (x : Nat → K) : Nat → K × K
  | 0 => (0, 0)
  | n + 1 => (exactStep c (exactRegs c x n) (x n)).2

/-- The output for sample `n`. -/
def exactOut {K : Type} [Field K] (c : ExactCoeffs K) (x : Nat → K) (n : Nat) : K :=
  (exactStep c (exactRegs c x n) (x n)).1

/-- A sequence delayed by one sample, zero before the first. -/
def delayed {K : Type} [Field K] (x : Nat → K) : Nat → K
  | 0 => 0
  | n + 1 => x n

/-! ### The closed forms in exact arithmetic -/

/-- The six unnormalised values of a type from `sn = sin w` (not used by any form but through
alpha), `cs = cos w`, `al = alpha`, `A` and `rA`, a square root of `A` (R129 to R136). -/
structure ExactForm (K : Type) where
  ub0 : K
  ub1 : K
  ub2 : K
  ua0 : K
  ua1 : K
  ua2 : K

/-- The formulas in the comments of R129 to R136. -/
def exactForm {K : Type} [Field K] (ft : FilterType) (cs al A rA : K) : ExactForm K :=
  match ft with
  | .lowPass =>
    ⟨(1 - cs) / 2, 1 - cs, (1 - cs) / 2, 1 + al, -2 * cs, 1 - al⟩
  | .highPass =>
    ⟨(1 + cs) / 2, -(1 + cs), (1 + cs) / 2, 1 + al, -2 * cs, 1 - al⟩
  | .bandPass => ⟨al, 0, -al, 1 + al, -2 * cs, 1 - al⟩
  | .notch => ⟨1, -2 * cs, 1, 1 + al, -2 * cs, 1 - al⟩
  | .peaking => ⟨1 + al * A, -2 * cs, 1 - al * A, 1 + al / A, -2 * cs, 1 - al / A⟩
  | .lowShelf =>
    ⟨A * ((A + 1) - (A - 1) * cs + 2 * rA * al), 2 * A * ((A - 1) - (A + 1) * cs),
      A * ((A + 1) - (A - 1) * cs - 2 * rA * al), (A + 1) + (A - 1) * cs + 2 * rA * al,
      -2 * ((A - 1) + (A + 1) * cs), (A + 1) + (A - 1) * cs - 2 * rA * al⟩
  | .highShelf =>
    ⟨A * ((A + 1) + (A - 1) * cs + 2 * rA * al), -2 * A * ((A - 1) + (A + 1) * cs),
      A * ((A + 1) + (A - 1) * cs - 2 * rA * al), (A + 1) - (A - 1) * cs + 2 * rA * al,
      2 * ((A - 1) - (A + 1) * cs), (A + 1) - (A - 1) * cs - 2 * rA * al⟩
  | .allPass => ⟨1 - al, -2 * cs, 1 + al, 1 + al, -2 * cs, 1 - al⟩

/-- The coefficients normalised by `ua0` (R137). -/
def ExactForm.normalised {K : Type} [Field K] (u : ExactForm K) : ExactCoeffs K :=
  ⟨u.ub0 / u.ua0, u.ub1 / u.ua0, u.ub2 / u.ua0, u.ua1 / u.ua0, u.ua2 / u.ua0⟩

end Sys2Proof.Machine
end

