-- ==== Sys2Proof/Laws/Rounding.lean ====
section
/-!
SUPPORT. The rounding of Machine/Float.lean against the mathematics of Machine/Exact.lean: the value
of a magnitude pattern, and that `roundMag` picks the pattern nearest to a real number.
-/

namespace Sys2Proof.Machine

/-! ### Values of magnitude patterns, in units of 2^-1074 -/

/-- The units of a magnitude pattern. -/
def patUnits (m : Nat) : Nat :=
  if m / 2 ^ 52 = 0 then m % 2 ^ 52 else (2 ^ 52 + m % 2 ^ 52) * 2 ^ (m / 2 ^ 52 - 1)

theorem magUnits_eq_patUnits (w : Word) : magUnits w = patUnits (magField w) := by
  rw [magUnits, patUnits, expField_eq, fracField_eq]

/-- The pattern of `r` spacings of exponent `k`. -/
theorem patUnits_scaled {r k : Nat} (h1 : r ≤ 2 ^ 53) (h2 : k = 0 ∨ 2 ^ 52 ≤ r) :
    patUnits (k * 2 ^ 52 + r) = r * 2 ^ k := by
  by_cases hr : r = 2 ^ 53
  · subst hr
    have e1 : (k * 2 ^ 52 + 2 ^ 53) / 2 ^ 52 = k + 2 := by omega
    have e2 : (k * 2 ^ 52 + 2 ^ 53) % 2 ^ 52 = 0 := by omega
    rw [patUnits, e1, e2, if_neg (by omega), show k + 2 - 1 = k + 1 by omega, pow_succ]
    ring
  · by_cases hs : 2 ^ 52 ≤ r
    · have e1 : (k * 2 ^ 52 + r) / 2 ^ 52 = k + 1 := by omega
      have e2 : (k * 2 ^ 52 + r) % 2 ^ 52 = r - 2 ^ 52 := by omega
      rw [patUnits, e1, e2, if_neg (by omega), Nat.add_sub_cancel,
        show 2 ^ 52 + (r - 2 ^ 52) = r by omega]
    · obtain rfl : k = 0 := by omega
      have e1 : (0 * 2 ^ 52 + r) / 2 ^ 52 = 0 := by omega
      have e2 : (0 * 2 ^ 52 + r) % 2 ^ 52 = r := by omega
      rw [patUnits, e1, e2, if_pos rfl]; simp

/-- Every value is below the bottom of a binade or a multiple of its spacing. -/
theorem patUnits_grid (m k : Nat) : patUnits m < 2 ^ (52 + k) ∨ ∃ j, patUnits m = j * 2 ^ k := by
  by_cases he : m / 2 ^ 52 ≤ k
  · left
    have hm : m % 2 ^ 52 < 2 ^ 52 := Nat.mod_lt _ (by decide)
    rw [patUnits]
    split_ifs with h0
    · exact lt_of_lt_of_le hm (Nat.pow_le_pow_right (by decide) (by omega))
    · calc (2 ^ 52 + m % 2 ^ 52) * 2 ^ (m / 2 ^ 52 - 1)
          < 2 ^ 53 * 2 ^ (m / 2 ^ 52 - 1) :=
            Nat.mul_lt_mul_of_pos_right (by omega) (Nat.two_pow_pos _)
        _ = 2 ^ (53 + (m / 2 ^ 52 - 1)) := (pow_add _ _ _).symm
        _ ≤ 2 ^ (52 + k) := Nat.pow_le_pow_right (by decide) (by omega)
  · right
    refine ⟨(2 ^ 52 + m % 2 ^ 52) * 2 ^ (m / 2 ^ 52 - 1 - k), ?_⟩
    rw [patUnits, if_neg (by omega), Nat.mul_assoc, ← pow_add]
    congr 2; omega

/-! ### Nearest integers -/

/-- `r` is an integer nearest `y`, the even one of two. -/
def NearestEven (r : Nat) (y : ℝ) : Prop :=
  |(r : ℝ) - y| ≤ 1 / 2 ∧ (|(r : ℝ) - y| = 1 / 2 → Even r)

theorem NearestEven.le {r : Nat} {y : ℝ} (h : NearestEven r y) (j : Nat) :
    |(r : ℝ) - y| ≤ |(j : ℝ) - y| ∧ (|(r : ℝ) - y| = |(j : ℝ) - y| → j = r ∨ Even r) := by
  by_cases hj : j = r
  · subst hj; exact ⟨le_refl _, fun _ => .inl rfl⟩
  · have h1 : (1 : ℝ) ≤ |(j : ℝ) - r| := by
      have : (1 : ℤ) ≤ |(j : ℤ) - r| := Int.one_le_abs (by omega)
      exact_mod_cast this
    have h2 : |(j : ℝ) - r| ≤ |(j : ℝ) - y| + |(r : ℝ) - y| := by
      have := abs_sub_le (j : ℝ) y r
      rwa [abs_sub_comm y (r : ℝ)] at this
    exact ⟨by linarith [h.1], fun he => .inr (h.2 (by linarith [h.1]))⟩

theorem nearestEven_roundHalfEven (n : Nat) {d : Nat} (hd : 0 < d) :
    NearestEven (roundHalfEven n d) ((n : ℝ) / d) := by
  have hd' : (0 : ℝ) < d := by exact_mod_cast hd
  have hn : (n : ℝ) / d = (n / d : ℕ) + ((n % d : ℕ) : ℝ) / d := by
    have : (n : ℝ) = d * (n / d : ℕ) + (n % d : ℕ) := by exact_mod_cast (Nat.div_add_mod n d).symm
    field_simp
    linarith
  have hlt : ((n % d : ℕ) : ℝ) < d := by exact_mod_cast Nat.mod_lt n hd
  have hr0 : (0 : ℝ) ≤ ((n % d : ℕ) : ℝ) / d := by positivity
  have hr1 : ((n % d : ℕ) : ℝ) / d < 1 := (div_lt_one hd').mpr hlt
  rw [NearestEven, hn, roundHalfEven]
  split_ifs with h1 h2
  · have : ((n % d : ℕ) : ℝ) / d < 1 / 2 := by
      rw [div_lt_div_iff₀ hd' two_pos]; exact_mod_cast (by omega : n % d * 2 < 1 * d)
    rw [show ((n / d : ℕ) : ℝ) - ((n / d : ℕ) + ((n % d : ℕ) : ℝ) / d) = -(((n % d : ℕ) : ℝ) / d) by ring,
      abs_neg, abs_of_nonneg hr0]
    exact ⟨this.le, fun h => absurd h this.ne⟩
  · have : 1 / 2 < ((n % d : ℕ) : ℝ) / d := by
      rw [div_lt_div_iff₀ two_pos hd']; exact_mod_cast (by omega : 1 * d < n % d * 2)
    push_cast
    rw [show ((n / d : ℕ) : ℝ) + 1 - ((n / d : ℕ) + ((n % d : ℕ) : ℝ) / d)
        = 1 - ((n % d : ℕ) : ℝ) / d by ring, abs_of_nonneg (by linarith)]
    exact ⟨by linarith, fun h => by linarith⟩
  · have he : ((n % d : ℕ) : ℝ) / d = 1 / 2 := by
      rw [div_eq_div_iff hd'.ne' two_ne_zero]; exact_mod_cast (by omega : n % d * 2 = 1 * d)
    rw [he]
    rcases Nat.even_or_odd (n / d) with hp | hp
    · rw [Nat.even_iff.mp hp, Nat.add_zero]
      exact ⟨by rw [show ((n / d : ℕ) : ℝ) - ((n / d : ℕ) + 1 / 2) = -(1 / 2) by ring]; norm_num,
        fun _ => hp⟩
    · rw [Nat.odd_iff.mp hp]
      push_cast
      exact ⟨by rw [show ((n / d : ℕ) : ℝ) + 1 - ((n / d : ℕ) + 1 / 2) = 1 / 2 by ring]; norm_num,
        fun _ => hp.add_one⟩

/-- Half a unit above an integer square root stands for the root: the grid of even spacings and its
midpoints are whole. -/
theorem nearestEven_root {m r k : Nat} {y : ℝ} (hk : 1 ≤ k) (h1 : (r : ℝ) < y) (h2 : y < r + 1)
    (hm : m = roundHalfEven (2 * r + 1) (2 * 2 ^ k)) : NearestEven m (y / 2 ^ k) := by
  obtain ⟨k, rfl⟩ : ∃ j, k = j + 1 := ⟨k - 1, by omega⟩
  have hP : (0 : ℝ) < 2 ^ (k + 1) := by positivity
  have hp : 0 < 2 ^ k := Nat.two_pow_pos k
  have hq : (2 * r + 1) / (2 * 2 ^ (k + 1)) = r / 2 ^ (k + 1) := by
    rw [← Nat.div_div_eq_div_mul]; congr 1; omega
  have hmod : (2 * r + 1) % (2 * 2 ^ (k + 1)) = 2 * (r % 2 ^ (k + 1)) + 1 := by
    have a1 := Nat.div_add_mod (2 * r + 1) (2 * 2 ^ (k + 1))
    have a2 := Nat.div_add_mod r (2 ^ (k + 1))
    rw [hq] at a1
    rw [Nat.mul_assoc] at a1
    omega
  have hr : (r : ℝ) = 2 ^ (k + 1) * (r / 2 ^ (k + 1) : ℕ) + (r % 2 ^ (k + 1) : ℕ) := by
    exact_mod_cast (Nat.div_add_mod r (2 ^ (k + 1))).symm
  have hp2 : (2 : ℕ) ^ (k + 1) = 2 * 2 ^ k := by rw [pow_succ]; ring
  have hP2 : (2 : ℝ) ^ (k + 1) = 2 * 2 ^ k := by rw [pow_succ]; ring
  have hlt := Nat.mod_lt r (show 0 < 2 ^ (k + 1) by positivity)
  rw [roundHalfEven] at hm
  simp only [hq, hmod] at hm
  rw [NearestEven]
  split_ifs at hm with c1 c2
  · have c : r % 2 ^ (k + 1) + 1 ≤ 2 ^ k := by omega
    have c' : ((r % 2 ^ (k + 1) : ℕ) : ℝ) + 1 ≤ 2 ^ k := by exact_mod_cast c
    have hlow : (0 : ℝ) ≤ (r % 2 ^ (k + 1) : ℕ) := by positivity
    subst hm
    have e : |((r / 2 ^ (k + 1) : ℕ) : ℝ) - y / 2 ^ (k + 1)| < 1 / 2 := by
      rw [abs_sub_comm, abs_lt]
      constructor
      · rw [lt_sub_iff_add_lt, lt_div_iff₀ hP]; nlinarith
      · rw [sub_lt_iff_lt_add, div_lt_iff₀ hP]; nlinarith
    exact ⟨e.le, fun h => absurd h e.ne⟩
  · have c : 2 ^ k ≤ r % 2 ^ (k + 1) := by omega
    have c' : (2 : ℝ) ^ k ≤ ((r % 2 ^ (k + 1) : ℕ) : ℝ) := by exact_mod_cast c
    have d' : ((r % 2 ^ (k + 1) : ℕ) : ℝ) + 1 ≤ 2 ^ (k + 1) := by exact_mod_cast hlt
    subst hm
    have e : |((r / 2 ^ (k + 1) + 1 : ℕ) : ℝ) - y / 2 ^ (k + 1)| < 1 / 2 := by
      push_cast
      rw [abs_sub_comm, abs_lt]
      constructor
      · rw [lt_sub_iff_add_lt, lt_div_iff₀ hP]; nlinarith
      · rw [sub_lt_iff_lt_add, div_lt_iff₀ hP]; nlinarith
    exact ⟨e.le, fun h => absurd h e.ne⟩
  · omega

/-! ### The nearest pattern -/

/-- The pattern of `r` spacings is nearest `y` among all patterns when `r` is nearest in spacings and
`y` is in the binade. -/
theorem patUnits_nearest {r k : Nat} {y : ℝ} (hlo : k = 0 ∨ (2 : ℝ) ^ (52 + k) ≤ y)
    (hr : NearestEven r (y / 2 ^ k)) (h1 : r ≤ 2 ^ 53) (h2 : k = 0 ∨ 2 ^ 52 ≤ r) (m : Nat) :
    |(patUnits (k * 2 ^ 52 + r) : ℝ) - y| ≤ |(patUnits m : ℝ) - y| ∧
      (|(patUnits (k * 2 ^ 52 + r) : ℝ) - y| = |(patUnits m : ℝ) - y| →
        patUnits m = patUnits (k * 2 ^ 52 + r) ∨ Even (k * 2 ^ 52 + r)) := by
  have hP : (0 : ℝ) < 2 ^ k := by positivity
  have hs : ∀ j : ℕ, |((j * 2 ^ k : ℕ) : ℝ) - y| = |(j : ℝ) - y / 2 ^ k| * 2 ^ k := by
    intro j
    rw [← abs_of_pos hP, ← abs_mul, abs_of_pos hP]
    push_cast
    congr 1; field_simp
  have heven : Even r → Even (k * 2 ^ 52 + r) := fun h =>
    Even.add (Even.mul_left (by decide) k) h
  have hgrid : ∀ j : ℕ, |(patUnits (k * 2 ^ 52 + r) : ℝ) - y| ≤ |((j * 2 ^ k : ℕ) : ℝ) - y| ∧
      (|(patUnits (k * 2 ^ 52 + r) : ℝ) - y| = |((j * 2 ^ k : ℕ) : ℝ) - y| →
        j * 2 ^ k = patUnits (k * 2 ^ 52 + r) ∨ Even (k * 2 ^ 52 + r)) := by
    intro j
    rw [patUnits_scaled h1 h2, hs, hs]
    obtain ⟨g1, g2⟩ := hr.le j
    refine ⟨mul_le_mul_of_nonneg_right g1 hP.le, fun he => ?_⟩
    rcases g2 (mul_right_cancel₀ hP.ne' he) with e | e
    · left; rw [e]
    · exact .inr (heven e)
  rcases patUnits_grid m k with hm | ⟨j, hj⟩
  · rcases hlo with rfl | hlo
    · have := hgrid (patUnits m)
      simpa using this
    · have hm' : (patUnits m : ℝ) < 2 ^ (52 + k) := by exact_mod_cast hm
      have hg := (hgrid (2 ^ 52)).1
      have e : ((2 ^ 52 * 2 ^ k : ℕ) : ℝ) = 2 ^ (52 + k) := by rw [pow_add]; push_cast; norm_num
      rw [e, abs_of_nonpos (by linarith : (2 : ℝ) ^ (52 + k) - y ≤ 0)] at hg
      rw [abs_of_nonpos (by linarith : (patUnits m : ℝ) - y ≤ 0)]
      exact ⟨by linarith, fun h => by linarith⟩
  · rw [hj]; exact hgrid j

/-- `overflowBound` in units. -/
def overflowUnits : ℝ := (2 ^ 54 - 1) * 2 ^ 2044

/-- What `k * 2^52 + r`, cut at the infinity, is for the real number `y` of a binade. -/
theorem cut_nearest {r k : Nat} {y : ℝ} (hlo : k = 0 ∨ (2 : ℝ) ^ (52 + k) ≤ y)
    (hhi : y < 2 ^ (53 + k)) (h0 : 0 ≤ y) (hr : NearestEven r (y / 2 ^ k)) :
    (overflowUnits ≤ y ∧ min (k * 2 ^ 52 + r) infMag = infMag) ∨
      (y < overflowUnits ∧ min (k * 2 ^ 52 + r) infMag < infMag ∧ ∀ m : Nat,
        |(patUnits (min (k * 2 ^ 52 + r) infMag) : ℝ) - y| ≤ |(patUnits m : ℝ) - y| ∧
          (|(patUnits (min (k * 2 ^ 52 + r) infMag) : ℝ) - y| = |(patUnits m : ℝ) - y| →
            patUnits m = patUnits (min (k * 2 ^ 52 + r) infMag) ∨
              Even (min (k * 2 ^ 52 + r) infMag))) := by
  have hP : (0 : ℝ) < 2 ^ k := by positivity
  have hY : y / 2 ^ k < 2 ^ 53 := by rw [div_lt_iff₀ hP, ← pow_add]; exact hhi
  have h1 : r ≤ 2 ^ 53 := by
    by_contra hc
    have hc' : ((2 ^ 53 + 1 : ℕ) : ℝ) ≤ r := by exact_mod_cast (by omega : 2 ^ 53 + 1 ≤ r)
    have := (abs_le.mp hr.1).2
    push_cast at hc'
    linarith
  have h2 : k = 0 ∨ 2 ^ 52 ≤ r := by
    refine hlo.imp_right fun hlo => ?_
    by_contra hc
    have hc' : ((r + 1 : ℕ) : ℝ) ≤ (2 ^ 52 : ℕ) := by exact_mod_cast (by omega : r + 1 ≤ 2 ^ 52)
    have hY' : (2 : ℝ) ^ 52 ≤ y / 2 ^ k := by rw [le_div_iff₀ hP, ← pow_add]; exact hlo
    have := (abs_le.mp hr.1).1
    push_cast at hc'
    linarith
  by_cases hb : overflowUnits ≤ y
  · left
    refine ⟨hb, min_eq_right ?_⟩
    rw [overflowUnits] at hb
    have hk : 2045 ≤ k := by
      by_contra hc
      have : (2 : ℝ) ^ (53 + k) ≤ 2 ^ 2097 := pow_le_pow_right₀ one_le_two (by omega)
      have e : (2 : ℝ) ^ 2097 = 2 ^ 53 * 2 ^ 2044 := by rw [← pow_add]
      have p : (0 : ℝ) < 2 ^ 2044 := by positivity
      rw [e] at this
      generalize (2 : ℝ) ^ 2044 = P at *
      linarith
    by_cases hk' : k = 2045
    · subst hk'
      have hr2 : 2 ^ 53 ≤ r := by
        by_contra hc
        have hc' : ((r + 1 : ℕ) : ℝ) ≤ (2 ^ 53 : ℕ) := by exact_mod_cast (by omega : r + 1 ≤ 2 ^ 53)
        push_cast at hc'
        have hY' : (2 ^ 53 - 1 / 2 : ℝ) ≤ y / 2 ^ 2045 := by
          rw [le_div_iff₀ hP]
          have e : (2 : ℝ) ^ 2045 = 2 * 2 ^ 2044 := by rw [pow_succ]; ring
          rw [e]; linarith
        have h3 := (abs_le.mp hr.1).1
        have hre : (r : ℝ) = 2 ^ 53 - 1 := by linarith
        have hye : y / 2 ^ 2045 = 2 ^ 53 - 1 / 2 := by linarith
        have hev := hr.2 (by rw [hre, hye, show (2 ^ 53 - 1 - (2 ^ 53 - 1 / 2) : ℝ) = -(1 / 2) by ring]; norm_num)
        have hrn : r = 2 ^ 53 - 1 := by
          have : ((r + 1 : ℕ) : ℝ) = ((2 ^ 53 : ℕ) : ℝ) := by push_cast; linarith
          have := Nat.cast_injective this
          omega
        rw [hrn] at hev
        exact absurd hev (by decide)
      simp only [infMag]; omega
    · have : 2 ^ 52 ≤ r := by omega
      simp only [infMag]; omega
  · right
    rw [not_le] at hb
    have hfin : k * 2 ^ 52 + r < infMag := by
      have hk : k ≤ 2045 := by
        by_contra hc
        rw [overflowUnits] at hb
        have hlo' : (2 : ℝ) ^ (52 + k) ≤ y := by rcases hlo with h | h; · omega
                                                 · exact h
        have a : (2 : ℝ) ^ 2098 ≤ 2 ^ (52 + k) := pow_le_pow_right₀ one_le_two (by omega)
        have e : (2 : ℝ) ^ 2098 = 2 ^ 54 * 2 ^ 2044 := by rw [← pow_add]
        have p : (0 : ℝ) < 2 ^ 2044 := by positivity
        rw [e] at a
        generalize (2 : ℝ) ^ 2044 = P at *
        linarith
      by_cases hk' : k = 2045
      · subst hk'
        have hr2 : r < 2 ^ 53 := by
          by_contra hc
          have hc' : ((2 ^ 53 : ℕ) : ℝ) ≤ r := by exact_mod_cast (by omega : 2 ^ 53 ≤ r)
          push_cast at hc'
          rw [overflowUnits] at hb
          have hY' : y / 2 ^ 2045 < (2 ^ 53 - 1 / 2 : ℝ) := by
            rw [div_lt_iff₀ hP]
            have e : (2 : ℝ) ^ 2045 = 2 * 2 ^ 2044 := by rw [pow_succ]; ring
            rw [e]; linarith
          have h3 := (abs_le.mp hr.1).2
          linarith
        simp only [infMag]; omega
      · simp only [infMag]; omega
    rw [min_eq_left hfin.le]
    exact ⟨hb, hfin, patUnits_nearest hlo hr h1 h2⟩

/-- `roundMag n d` is the pattern nearest `n / d` units. -/
theorem roundMag_nearest (n : Nat) {d : Nat} (hd : 0 < d) :
    (overflowUnits ≤ (n : ℝ) / d ∧ roundMag n d = infMag) ∨
      ((n : ℝ) / d < overflowUnits ∧ roundMag n d < infMag ∧ ∀ m : Nat,
        |(patUnits (roundMag n d) : ℝ) - n / d| ≤ |(patUnits m : ℝ) - n / d| ∧
          (|(patUnits (roundMag n d) : ℝ) - n / d| = |(patUnits m : ℝ) - n / d| →
            patUnits m = patUnits (roundMag n d) ∨ Even (roundMag n d))) := by
  have hd' : (0 : ℝ) < d := by exact_mod_cast hd
  have hfl : ((n / d : ℕ) : ℝ) ≤ n / d := Nat.cast_div_le
  have hfl2 : (n : ℝ) / d < (n / d : ℕ) + 1 := by
    rw [div_lt_iff₀ hd']; exact_mod_cast Nat.lt_mul_of_div_lt (Nat.lt_succ_self _) hd
  refine cut_nearest (k := Nat.log2 (n / d) - 52) ?_ ?_ (by positivity) ?_
  · by_cases hk : Nat.log2 (n / d) - 52 = 0
    · exact .inl hk
    · right
      have hne : n / d ≠ 0 := by intro h0; rw [h0] at hk; simp [Nat.log2_zero] at hk
      have : 2 ^ (52 + (Nat.log2 (n / d) - 52)) ≤ n / d := by
        rw [← Nat.le_log2 hne]; omega
      exact le_trans (by exact_mod_cast this) hfl
  · have : n / d + 1 ≤ 2 ^ (53 + (Nat.log2 (n / d) - 52)) := by
      by_cases h0 : n / d = 0
      · rw [h0]; exact Nat.one_le_two_pow
      · exact (Nat.log2_lt h0).mp (by omega)
    exact lt_of_lt_of_le hfl2 (by exact_mod_cast this)
  · have := nearestEven_roundHalfEven n (d := d * 2 ^ (Nat.log2 (n / d) - 52)) (by positivity)
    push_cast at this
    rwa [← div_div] at this

/-- The pattern `fsqrt` picks is nearest the square root of `m` units, for every `m` from 2^106 on. -/
theorem roundMag_root {m r : Nat} {y : ℝ} (hr1 : r * r < m) (hr2 : m < (r + 1) * (r + 1))
    (hbig : 2 ^ 53 ≤ r) (hy0 : 0 ≤ y) (hy : y * y = m) :
    (overflowUnits ≤ y ∧ roundMag (2 * r + 1) 2 = infMag) ∨
      (y < overflowUnits ∧ roundMag (2 * r + 1) 2 < infMag ∧ ∀ j : Nat,
        |(patUnits (roundMag (2 * r + 1) 2) : ℝ) - y| ≤ |(patUnits j : ℝ) - y| ∧
          (|(patUnits (roundMag (2 * r + 1) 2) : ℝ) - y| = |(patUnits j : ℝ) - y| →
            patUnits j = patUnits (roundMag (2 * r + 1) 2) ∨
              Even (roundMag (2 * r + 1) 2))) := by
  have hq : (2 * r + 1) / 2 = r := by omega
  have h1 : (r : ℝ) < y := by
    have : (r : ℝ) * r < y * y := by rw [hy]; exact_mod_cast hr1
    by_contra hc
    nlinarith [not_lt.mp hc]
  have h2 : y < r + 1 := by
    have : y * y < ((r : ℝ) + 1) * (r + 1) := by rw [hy]; exact_mod_cast hr2
    by_contra hc
    have : (0 : ℝ) ≤ r := by positivity
    nlinarith [not_lt.mp hc]
  have hne : r ≠ 0 := by omega
  have hlog : 53 ≤ Nat.log2 r := (Nat.le_log2 hne).mpr hbig
  refine cut_nearest (k := Nat.log2 ((2 * r + 1) / 2) - 52) ?_ ?_ hy0 ?_
  · right
    rw [hq]
    have : 2 ^ (52 + (Nat.log2 r - 52)) ≤ r := by rw [← Nat.le_log2 hne]; omega
    exact le_trans (by exact_mod_cast this) h1.le
  · rw [hq]
    have : r + 1 ≤ 2 ^ (53 + (Nat.log2 r - 52)) := (Nat.log2_lt hne).mp (by omega)
    exact lt_of_lt_of_le h2 (by exact_mod_cast this)
  · rw [hq]
    exact nearestEven_root (by omega) h1 h2 rfl

/-! ### Words and values -/

theorem toRat_cast (w : Word) : (toRat w : ℝ) = (units w : ℝ) / 2 ^ 1074 := by
  rw [toRat]; push_cast; rfl

/-- The value of a word from its sign and magnitude. -/
theorem units_cast (w : Word) :
    (units w : ℝ) = if signBit w then -(magUnits w : ℝ) else (magUnits w : ℝ) := by
  rw [units]; cases signBit w <;> simp

theorem abs_units (w : Word) : |(units w : ℝ)| = magUnits w := by
  rw [units_cast]; cases signBit w <;> simp

theorem getLsbD_zero_of_even {neg : Bool} {m : Nat} (h : m < 2 ^ 63) (he : Even m) :
    (packMag neg m).getLsbD 0 = false := by
  have : (packMag neg m).toNat % 2 = 0 := by
    rw [toNat_packMag h]; have := Nat.even_iff.mp he; split_ifs <;> omega
  simp [BitVec.getLsbD, Nat.testBit_zero, this]

theorem overflowBound_units : (overflowBound : ℝ) * 2 ^ 1074 = overflowUnits := by
  rw [overflowBound, overflowUnits]
  push_cast
  rw [mul_assoc, ← pow_add]

/-- A word with a sign and a magnitude pattern that is nearest `y` units is the rounding of the real
number of that sign and size. -/
theorem roundsNearestEven_of_mag {neg : Bool} {M : Nat} {y x : ℝ} (hy : 0 < y)
    (hx : x * 2 ^ 1074 = if neg then -y else y)
    (h : (overflowUnits ≤ y ∧ M = infMag) ∨
      (y < overflowUnits ∧ M < infMag ∧ ∀ m : Nat,
        |(patUnits M : ℝ) - y| ≤ |(patUnits m : ℝ) - y| ∧
          (|(patUnits M : ℝ) - y| = |(patUnits m : ℝ) - y| → patUnits m = patUnits M ∨ Even M))) :
    RoundsNearestEven x (packMag neg M) := by
  have hC : (0 : ℝ) < 2 ^ 1074 := by positivity
  have hcast := toRat_cast
  have hov := overflowBound_units
  rw [RoundsNearestEven]
  generalize (2 : ℝ) ^ 1074 = C at hx hC hcast hov
  generalize overflowUnits = Q at h hov
  have habs : |x| * C = y := by
    have : |x * C| = y := by rw [hx]; cases neg <;> simp [abs_of_pos hy]
    rwa [abs_mul, abs_of_pos hC] at this
  have hneg : x < 0 ↔ neg = true := by
    rcases abs_cases x with ⟨e, hs⟩ | ⟨e, hs⟩ <;> rw [e] at habs <;> cases neg <;>
      simp only [Bool.false_eq_true, if_false, if_true] at hx <;>
      simp only [Bool.false_eq_true, iff_false, iff_true] <;> linarith
  rcases h with ⟨hb, rfl⟩ | ⟨hb, hM, hn⟩
  · have hb' : (overflowBound : ℝ) ≤ |x| :=
      le_of_mul_le_mul_right (by rw [hov, habs]; exact hb) hC
    cases neg
    · have : 0 ≤ x := not_lt.mp fun hc => Bool.false_ne_true (hneg.mp hc)
      exact .inl ⟨by rwa [abs_of_nonneg this] at hb', by decide⟩
    · have : x < 0 := hneg.mpr rfl
      rw [abs_of_neg this] at hb'
      exact .inr (.inl ⟨le_neg_of_le_neg hb', by decide⟩)
  · right; right
    have hM' : M < 2 ^ 63 := lt_trans hM (by decide)
    have hmag : magUnits (packMag neg M) = patUnits M := by
      rw [magUnits_eq_patUnits, magField_packMag hM']
    have hdist : ∀ w : Word, |(toRat w : ℝ) - x| * C = |(units w : ℝ) - x * C| := by
      intro w
      have : |((toRat w : ℝ) - x) * C| = |(units w : ℝ) - x * C| := by
        rw [hcast]; congr 1; field_simp
      rwa [abs_mul, abs_of_pos hC] at this
    have hw : |(units (packMag neg M) : ℝ) - x * C| = |(patUnits M : ℝ) - y| := by
      rw [units_cast, signBit_packMag hM', hmag, hx]
      cases neg
      · simp
      · simp only [if_true]; rw [← abs_neg]; congr 1; ring
    have hv : ∀ v : Word, |(patUnits (magField v) : ℝ) - y| ≤ |(units v : ℝ) - x * C| := by
      intro v
      have := abs_abs_sub_abs_le_abs_sub (units v : ℝ) (x * C)
      rw [abs_units, magUnits_eq_patUnits, abs_mul, abs_of_pos hC, habs] at this
      exact this
    refine ⟨?_, ?_, ?_, fun v _ => ?_⟩
    · exact lt_of_mul_lt_mul_right (by rw [hov, habs]; exact hb) hC.le
    · rw [isFinite_iff, magField_packMag hM']; exact hM
    · rw [signBit_packMag hM', hneg]
    · obtain ⟨g1, g2⟩ := hn (magField v)
      have hle : |(patUnits M : ℝ) - y| ≤ |(units v : ℝ) - x * C| := le_trans g1 (hv v)
      constructor
      · exact le_of_mul_le_mul_right (by rw [hdist, hdist, hw]; exact hle) hC
      · intro he
        have he' : |(patUnits M : ℝ) - y| = |(units v : ℝ) - x * C| := by
          rw [← hw, ← hdist, ← hdist, he]
        have hq : |(patUnits M : ℝ) - y| = |(patUnits (magField v) : ℝ) - y| :=
          le_antisymm g1 (by rw [he']; exact hv v)
        rcases g2 hq with e | e
        · left
          have hmv : magUnits v = patUnits M := by rw [magUnits_eq_patUnits, e]
          have hu : (units v : ℝ) = units (packMag neg M) := by
            rw [units_cast, units_cast, hmag, hmv, signBit_packMag hM']
            rw [units_cast, hmv, hx] at he'
            have hp : (0 : ℝ) ≤ patUnits M := by positivity
            by_cases hs : signBit v = neg
            · rw [hs]
            · have hz : (patUnits M : ℝ) = 0 := by
                have h3 : |(patUnits M : ℝ) - y| = patUnits M + y := by
                  rw [he']
                  cases neg
                  · have : signBit v = true := by simpa using hs
                    simp only [this, if_true, Bool.false_eq_true, if_false]
                    rw [show -(patUnits M : ℝ) - y = -(patUnits M + y) by ring, abs_neg,
                      abs_of_nonneg (by linarith)]
                  · have : signBit v = false := by simpa using hs
                    simp only [this, if_true, Bool.false_eq_true, if_false]
                    rw [sub_neg_eq_add, abs_of_nonneg (by linarith)]
                rcases abs_cases ((patUnits M : ℝ) - y) with ⟨h4, -⟩ | ⟨h4, -⟩ <;> linarith
              rw [hz]; simp
          have : units v = units (packMag neg M) := by exact_mod_cast hu
          rw [toRat, toRat, this]
        · exact .inr (getLsbD_zero_of_even hM' e)

/-- `roundTo` rounds to nearest, ties to even (R91). -/
theorem roundsNearestEven_roundTo {neg : Bool} {n d : Nat} {x : ℝ} (hn : 0 < n) (hd : 0 < d)
    (hx : x * 2 ^ 1074 = if neg then -((n : ℝ) / d) else (n : ℝ) / d) :
    RoundsNearestEven x (roundTo neg n d) :=
  roundsNearestEven_of_mag (by positivity) hx (roundMag_nearest n hd)

/-! ### The integer square root -/

theorem isqrtFrom_spec (n : Nat) : ∀ b r : Nat, r * r ≤ n → n < (r + 2 ^ b) * (r + 2 ^ b) →
    isqrtFrom n b r * isqrtFrom n b r ≤ n ∧ n < (isqrtFrom n b r + 1) * (isqrtFrom n b r + 1)
  | 0, r, h1, h2 => ⟨h1, by simpa [isqrtFrom] using h2⟩
  | b + 1, r, h1, h2 => by
    rw [isqrtFrom]
    have e : r + 2 ^ (b + 1) = r + 2 ^ b + 2 ^ b := by rw [pow_succ]; omega
    rw [e] at h2
    split_ifs with h
    · exact isqrtFrom_spec n b _ h h2
    · exact isqrtFrom_spec n b r h1 (not_le.mp h)

/-- `isqrt n` is the largest number whose square is at most `n`. -/
theorem isqrt_spec (n : Nat) : isqrt n * isqrt n ≤ n ∧ n < (isqrt n + 1) * (isqrt n + 1) := by
  refine isqrtFrom_spec n _ 0 (Nat.zero_le _) ?_
  rw [Nat.zero_add, ← pow_add]
  rcases Nat.eq_zero_or_pos n with rfl | h
  · exact Nat.two_pow_pos _
  · exact lt_of_lt_of_le ((Nat.log2_lt (by omega)).mp (Nat.lt_succ_self _))
      (Nat.pow_le_pow_right (by decide) (by omega))

end Sys2Proof.Machine
end

