-- ==== Sys2Proof/Laws/Numerics.lean ====
section
/-!
SUPPORT. Every real number has a faithful rounding (R98 to R101), and one of a number between two F64
numbers is between them.
-/

namespace Sys2Proof.Machine

/-- The largest finite number as a word. -/
def maxWord : Word := 0x7FEFFFFFFFFFFFFF

theorem toRat_of_isZero {w : Word} (h : isZero w = true) : toRat w = 0 := by
  rw [toRat, units_eq_zero.mpr h]; simp

theorem toRat_one : toRat one = 1 := by
  have : units one = (2 : ℤ) ^ 1074 := by
    rw [units, show signBit one = false by decide, magUnits_one, unitsPerOne, if_neg (by decide)]
    exact Nat.cast_pow 2 1074
  rw [toRat, this]; push_cast; exact div_self (by positivity)

theorem toRat_fneg (w : Word) : toRat (fneg w) = -toRat w := by
  rw [toRat, toRat, units_fneg]; push_cast; ring

theorem toRat_maxWord : toRat maxWord = maxFinite := by
  have hu : units maxWord = (2 ^ 53 - 1) * (2 : ℤ) ^ 2045 := by
    have h1 : signBit maxWord = false := by decide
    have h2 : expField maxWord = 2046 := by decide
    have h3 : fracField maxWord = 2 ^ 52 - 1 := by decide
    rw [units, h1, magUnits, h2, h3]
    push_cast
    norm_num
  have hp : (2 : ℚ) ^ 2045 = 2 ^ 971 * 2 ^ 1074 := by rw [← pow_add]
  rw [toRat, hu, maxFinite]
  push_cast
  rw [hp]
  have hC : (2 : ℚ) ^ 1074 ≠ 0 := by positivity
  generalize (2 : ℚ) ^ 1074 = C at *
  generalize (2 : ℚ) ^ 971 = D at *
  field_simp
  ring

/-- Among the finite numbers not below `r` there is a least one. -/
theorem exists_ceil {r : ℝ} (h : r ≤ (maxFinite : ℝ)) :
    ∃ y : Word, isFinite y = true ∧ r ≤ (toRat y : ℝ) ∧
      ∀ v, isFinite v = true → r ≤ (toRat v : ℝ) → toRat y ≤ toRat v := by
  classical
  obtain ⟨y, hy, hmin⟩ := Finset.exists_min_image
    (Finset.univ.filter fun y : Fin (2 ^ 64) =>
      isFinite (BitVec.ofFin y) = true ∧ r ≤ (toRat (BitVec.ofFin y) : ℝ))
    (fun y => toRat (BitVec.ofFin y))
    ⟨maxWord.toFin, by
      simp only [Finset.mem_filter, Finset.mem_univ, true_and]
      exact ⟨by decide, by rw [show BitVec.ofFin maxWord.toFin = maxWord from rfl, toRat_maxWord]; exact h⟩⟩
  simp only [Finset.mem_filter, Finset.mem_univ, true_and] at hy hmin
  exact ⟨BitVec.ofFin y, hy.1, hy.2, fun v h1 h2 => hmin v.toFin ⟨h1, h2⟩⟩

theorem maxFinite_lt : (maxFinite : ℝ) < 2 ^ 1024 := by
  have h : (2 : ℝ) ^ 1024 = 2 ^ 53 * 2 ^ 971 := by rw [← pow_add]
  rw [maxFinite, h]
  push_cast
  have : (0 : ℝ) < 2 ^ 971 := by positivity
  clear h
  generalize (2 : ℝ) ^ 971 = D at *
  linarith

/-- Every real number has a faithful rounding, the least number not below it where there is one. -/
theorem exists_faithful (r : ℝ) :
    ∃ y, Faithful r y ∧ (r ≤ (maxFinite : ℝ) → -(maxFinite : ℝ) ≤ r →
      isFinite y = true ∧ r ≤ (toRat y : ℝ)) ∧ (0 < r → signBit y = false) := by
  by_cases h1 : (maxFinite : ℝ) < r
  · exact ⟨posInf, .inr (.inl ⟨rfl, h1⟩), fun h => absurd h (not_le.mpr h1), fun _ => by decide⟩
  · have h1' := not_lt.mp h1
    by_cases h2 : r < -(maxFinite : ℝ)
    · refine ⟨negInf, .inr (.inr ⟨rfl, h2⟩), fun _ h => absurd h (not_le.mpr h2), fun h => ?_⟩
      have : (0 : ℝ) < maxFinite := by rw [maxFinite]; push_cast; positivity
      linarith
    · have h2' := not_lt.mp h2
      obtain ⟨y, g1, g2, g3⟩ := exists_ceil h1'
      have habs : |r| < 2 ^ 1024 := lt_of_le_of_lt (abs_le.mpr ⟨h2', h1'⟩) maxFinite_lt
      refine ⟨y, .inl ⟨g1, habs, .inr ⟨g2, g3⟩⟩, fun _ _ => ⟨g1, g2⟩, fun hr => ?_⟩
      by_contra hs
      have hs' : signBit y = true := by simpa using hs
      have : (toRat y : ℝ) ≤ 0 := by
        rw [toRat_cast, units_cast, hs', if_pos rfl]
        exact div_nonpos_of_nonpos_of_nonneg (by simp) (by positivity)
      linarith

theorem faithful_zero {w : Word} (h : isZero w = true) : Faithful 0 w := by
  have hz := toRat_of_isZero h
  exact .inl ⟨isFinite_of_isZero h, by simp, .inl ⟨by rw [hz]; simp, fun v _ hv => by
    rw [hz]; exact_mod_cast hv⟩⟩

theorem faithful_one : Faithful 1 one := by
  refine .inl ⟨by decide, ?_, .inl ⟨by rw [toRat_one]; simp, fun v _ hv => ?_⟩⟩
  · rw [abs_one]; exact one_lt_pow₀ (by norm_num) (by decide)
  · rw [toRat_one]; exact_mod_cast hv

theorem one_le_maxFinite : (1 : ℝ) ≤ maxFinite := by
  rw [maxFinite]
  push_cast
  have : (1 : ℝ) ≤ 2 ^ 971 := one_le_pow₀ (by norm_num)
  generalize (2 : ℝ) ^ 971 = D at *
  nlinarith

theorem clearSign_eq {w : Word} (h : signBit w = false) : clearSign w = w := by
  apply BitVec.eq_of_getLsbD_eq
  intro i hi
  rw [clearSign, BitVec.getLsbD_and]
  by_cases h63 : i = 63
  · subst h63
    rw [signBit] at h
    rw [h, Bool.false_and]
  · have : (0x7FFFFFFFFFFFFFFF : Word).getLsbD i = true := by
      have hi' : i < 63 := by omega
      revert hi'
      clear hi h h63
      revert i
      decide
    rw [this, Bool.and_true]

/-- A faithful rounding of a number between two F64 numbers is between them. -/
theorem faithful_between {r : ℝ} {y a b : Word} (h : Faithful r y) (ha : isFinite a = true)
    (hb : isFinite b = true) (h1 : (toRat a : ℝ) ≤ r) (h2 : r ≤ (toRat b : ℝ))
    (hm : |r| ≤ (maxFinite : ℝ)) : isFinite y = true ∧ toRat a ≤ toRat y ∧ toRat y ≤ toRat b := by
  have hm' := abs_le.mp hm
  rcases h with ⟨hf, -, h | h⟩ | ⟨-, h⟩ | ⟨-, h⟩
  · refine ⟨hf, h.2 a ha h1, ?_⟩
    have : (toRat y : ℝ) ≤ toRat b := le_trans h.1 h2
    exact_mod_cast this
  · refine ⟨hf, ?_, h.2 b hb h2⟩
    have : (toRat a : ℝ) ≤ toRat y := le_trans h1 h.1
    exact_mod_cast this
  · linarith
  · linarith

end Sys2Proof.Machine
end

