-- ==== Sys2Proof/Laws/Admissible.lean ====
section
/-!
SUPPORT. A record Numerics that meets R98 to R101, built by a search that ends: what lets the
implementation's record be an opaque constant of the type of such records. A word is a faithful
rounding of a real number exactly when the numbers on both sides of it lie strictly beyond that real
number, so approximations with an error that goes to zero certify one after finitely many tries.
Nothing runs the search, and nothing proves that the implementation's record is this one.
-/

namespace Sys2Proof.Machine

/-! ### Tests against a real number -/

/-- Tests of growing precision: `below k x` shows that `x` is below the real number in question, and
`above k x` that it is above. -/
structure Tests where
  below : Nat → ℚ → Bool
  above : Nat → ℚ → Bool

/-- The tests are right about `r`, and from some precision on they decide every number but `r`. -/
structure Tests.Of (t : Tests) (r : ℝ) : Prop where
  below_sound : ∀ k x, t.below k x = true → (x : ℝ) < r
  above_sound : ∀ k x, t.above k x = true → r < (x : ℝ)
  below_complete : ∀ x : ℚ, (x : ℝ) < r → ∀ᶠ k in Filter.atTop, t.below k x = true
  above_complete : ∀ x : ℚ, r < (x : ℝ) → ∀ᶠ k in Filter.atTop, t.above k x = true

/-- Precision `k` shows that the word is a faithful rounding. -/
def Tests.certifies (t : Tests) (k : Nat) (y : Word) : Bool :=
  if isFinite y then
    t.below k (-2 ^ 1024) && t.above k (2 ^ 1024) &&
      decide (∀ v : Word, isFinite v = true →
        (toRat v < toRat y → t.below k (toRat v) = true) ∧
          (toRat y < toRat v → t.above k (toRat v) = true))
  else (y == posInf && t.below k maxFinite) || (y == negInf && t.above k (-maxFinite))

theorem faithful_of_certifies {t : Tests} {r : ℝ} {k : Nat} {y : Word} (ht : t.Of r)
    (h : t.certifies k y = true) : Faithful r y := by
  rw [Tests.certifies] at h
  split_ifs at h with hf
  · simp only [Bool.and_eq_true, decide_eq_true_eq] at h
    obtain ⟨⟨h1, h2⟩, h3⟩ := h
    have g1 := ht.below_sound k _ h1
    have g2 := ht.above_sound k _ h2
    push_cast at g1 g2
    refine .inl ⟨hf, abs_lt.mpr ⟨g1, g2⟩, ?_⟩
    rcases le_total (toRat y : ℝ) r with hy | hy
    · refine .inl ⟨hy, fun v hv hvr => le_of_not_gt fun hlt => ?_⟩
      exact absurd (ht.above_sound k _ ((h3 v hv).2 hlt)) (not_lt.mpr hvr)
    · refine .inr ⟨hy, fun v hv hvr => le_of_not_gt fun hlt => ?_⟩
      exact absurd (ht.below_sound k _ ((h3 v hv).1 hlt)) (not_lt.mpr hvr)
  · simp only [Bool.or_eq_true, Bool.and_eq_true, beq_iff_eq] at h
    rcases h with ⟨rfl, h⟩ | ⟨rfl, h⟩
    · exact .inr (.inl ⟨rfl, ht.below_sound k _ h⟩)
    · have := ht.above_sound k _ h
      push_cast at this
      exact .inr (.inr ⟨rfl, this⟩)

theorem exists_certifies {t : Tests} {r : ℝ} {y : Word} (ht : t.Of r) (h : Faithful r y) :
    ∃ k, t.certifies k y = true := by
  rcases h with ⟨hf, habs, h⟩ | ⟨rfl, h⟩ | ⟨rfl, h⟩
  · have hlo : ∀ v : Word, isFinite v = true → toRat v < toRat y → (toRat v : ℝ) < r := by
      intro v hv hlt
      have hlt' : (toRat v : ℝ) < toRat y := by exact_mod_cast hlt
      rcases h with ⟨h1, -⟩ | ⟨-, h2⟩
      · linarith
      · exact lt_of_not_ge fun hr => absurd (h2 v hv hr) (not_le.mpr hlt)
    have hhi : ∀ v : Word, isFinite v = true → toRat y < toRat v → r < (toRat v : ℝ) := by
      intro v hv hlt
      have hlt' : (toRat y : ℝ) < toRat v := by exact_mod_cast hlt
      rcases h with ⟨-, h2⟩ | ⟨h1, -⟩
      · exact lt_of_not_ge fun hr => absurd (h2 v hv hr) (not_le.mpr hlt)
      · linarith
    obtain ⟨g1, g2⟩ := abs_lt.mp habs
    have e1 := ht.below_complete (-2 ^ 1024) (by push_cast; exact g1)
    have e2 := ht.above_complete (2 ^ 1024) (by push_cast; exact g2)
    have e3 : ∀ᶠ k in Filter.atTop, ∀ v : Word, isFinite v = true →
        (toRat v < toRat y → t.below k (toRat v) = true) ∧
          (toRat y < toRat v → t.above k (toRat v) = true) := by
      have hfin : Finite Word := Finite.of_injective BitVec.toFin fun a b h => by
        cases a; cases b; cases h; rfl
      refine Filter.eventually_all.mpr fun v => ?_
      by_cases hv : isFinite v = true
      · have a : ∀ᶠ k in Filter.atTop, toRat v < toRat y → t.below k (toRat v) = true := by
          by_cases hlt : toRat v < toRat y
          · exact (ht.below_complete _ (hlo v hv hlt)).mono fun k hk _ => hk
          · exact .of_forall fun k hk => absurd hk hlt
        have b : ∀ᶠ k in Filter.atTop, toRat y < toRat v → t.above k (toRat v) = true := by
          by_cases hlt : toRat y < toRat v
          · exact (ht.above_complete _ (hhi v hv hlt)).mono fun k hk _ => hk
          · exact .of_forall fun k hk => absurd hk hlt
        exact (a.and b).mono fun k hk _ => hk
      · exact .of_forall fun k hk => absurd hk hv
    obtain ⟨k, h1, h2, h3⟩ := (e1.and (e2.and e3)).exists
    exact ⟨k, by rw [Tests.certifies, if_pos hf, h1, h2, decide_eq_true h3]; rfl⟩
  · obtain ⟨k, hk⟩ := (ht.below_complete _ h).exists
    exact ⟨k, by rw [Tests.certifies, if_neg (by decide), hk]; simp⟩
  · obtain ⟨k, hk⟩ := (ht.above_complete (-maxFinite) (by push_cast; exact h)).exists
    exact ⟨k, by rw [Tests.certifies, if_neg (by decide), hk]; simp⟩

/-! ### The search -/

/-- Try `n` is word `n mod 2^64` at precision `n / 2^64`. -/
def Tests.hit (t : Tests) (ok : Word → Bool) (n : Nat) : Bool :=
  t.certifies (n / 2 ^ 64) (BitVec.ofNat 64 n) && ok (BitVec.ofNat 64 n)

theorem exists_hit {t : Tests} {r : ℝ} {ok : Word → Bool} {y : Word} (ht : t.Of r)
    (h : Faithful r y) (hok : ok y = true) : ∃ n, t.hit ok n = true := by
  obtain ⟨k, hk⟩ := exists_certifies ht h
  have h1 : (2 ^ 64 * k + y.toNat) / 2 ^ 64 = k := by have := y.isLt; omega
  have h2 : BitVec.ofNat 64 (2 ^ 64 * k + y.toNat) = y := by
    apply BitVec.eq_of_toNat_eq
    have := y.isLt
    rw [BitVec.toNat_ofNat]
    omega
  exact ⟨2 ^ 64 * k + y.toNat, by rw [Tests.hit, h1, h2, hk, hok]; rfl⟩

/-- The first word that a precision certifies. -/
def Tests.search (t : Tests) (ok : Word → Bool) (h : ∃ n, t.hit ok n = true) : Word :=
  BitVec.ofNat 64 (Nat.find h)

theorem search_spec {t : Tests} {r : ℝ} {ok : Word → Bool} (ht : t.Of r)
    (h : ∃ n, t.hit ok n = true) :
    Faithful r (t.search ok h) ∧ ok (t.search ok h) = true := by
  have := Nat.find_spec h
  rw [Tests.hit, Bool.and_eq_true] at this
  exact ⟨faithful_of_certifies ht this.1, this.2⟩

/-! ### Power series -/

/-- The first `n` terms of a power series with the coefficients `c m / m!`. -/
def partialSum (c : Nat → ℚ) (x : ℚ) (n : Nat) : ℚ :=
  ∑ m ∈ Finset.range n, c m * (x ^ m / (m.factorial : ℚ))

/-- How many terms precision `k` takes. -/
def termCount (x : ℚ) (k : Nat) : Nat := k + ⌈2 * |x|⌉₊

/-- A bound of what the terms from the n-th on sum to, where the coefficients are at most 1. -/
def errorBound (x : ℚ) (n : Nat) : ℚ := |x| ^ n / (n.factorial : ℚ) * 2

/-- The tests by partial sums. -/
def seriesTests (c : Nat → ℚ) (x : ℚ) : Tests :=
  { below := fun k v =>
      decide (v < partialSum c x (termCount x k) - errorBound x (termCount x k))
    above := fun k v =>
      decide (partialSum c x (termCount x k) + errorBound x (termCount x k) < v) }

theorem errorBound_tendsto (x : ℚ) :
    Filter.Tendsto (fun k => ((errorBound x (termCount x k) : ℚ) : ℝ)) Filter.atTop (nhds 0) := by
  have h := (FloorSemiring.tendsto_pow_div_factorial_atTop |(x : ℝ)|).mul_const 2
  rw [zero_mul] at h
  have h2 := h.comp (Filter.tendsto_add_atTop_nat ⌈2 * |x|⌉₊)
  refine h2.congr fun k => ?_
  simp [errorBound, termCount]

theorem seriesTests_of {c : Nat → ℚ} {x : ℚ} {r : ℝ}
    (h : ∀ n : Nat, 2 * |x| ≤ n → |r - (partialSum c x n : ℝ)| ≤ (errorBound x n : ℝ)) :
    (seriesTests c x).Of r := by
  have hn : ∀ k, 2 * |x| ≤ (termCount x k : ℚ) := fun k => by
    rw [termCount]
    push_cast
    have := Nat.le_ceil (2 * |x|)
    have : (0 : ℚ) ≤ k := Nat.cast_nonneg k
    linarith
  have hb := fun k => abs_le.mp (h _ (hn k))
  have hz := errorBound_tendsto x
  refine ⟨fun k v hv => ?_, fun k v hv => ?_, fun v hv => ?_, fun v hv => ?_⟩
  · have hv' : (v : ℝ) < partialSum c x (termCount x k) - errorBound x (termCount x k) := by
      exact_mod_cast of_decide_eq_true hv
    linarith [(hb k).1]
  · have hv' : (partialSum c x (termCount x k) : ℝ) + errorBound x (termCount x k) < v := by
      exact_mod_cast of_decide_eq_true hv
    linarith [(hb k).2]
  · refine (hz.eventually (gt_mem_nhds (show (0 : ℝ) < (r - v) / 2 by linarith))).mono
      fun k hk => decide_eq_true ?_
    have : (v : ℝ) < partialSum c x (termCount x k) - errorBound x (termCount x k) := by
      linarith [(hb k).2]
    exact_mod_cast this
  · refine (hz.eventually (gt_mem_nhds (show (0 : ℝ) < (v - r) / 2 by linarith))).mono
      fun k hk => decide_eq_true ?_
    have : (partialSum c x (termCount x k) : ℝ) + errorBound x (termCount x k) < v := by
      linarith [(hb k).1]
    exact_mod_cast this

/-- The coefficients of the sine. -/
def sinCoeff (m : Nat) : ℚ := if m % 4 = 1 then 1 else if m % 4 = 3 then -1 else 0

/-- The coefficients of the cosine. -/
def cosCoeff (m : Nat) : ℚ := if m % 4 = 0 then 1 else if m % 4 = 2 then -1 else 0

/-- The coefficients of the hyperbolic sine. -/
def sinhCoeff (m : Nat) : ℚ := if m % 2 = 1 then 1 else 0

theorem I_pow_parts (m : Nat) :
    (Complex.I ^ m).im = (sinCoeff m : ℝ) ∧ (Complex.I ^ m).re = (cosCoeff m : ℝ) := by
  have e : Complex.I ^ m = Complex.I ^ (m % 4) := by
    conv_lhs => rw [← Nat.div_add_mod m 4, pow_add, pow_mul, Complex.I_pow_four, one_pow, one_mul]
  rw [e, sinCoeff, cosCoeff]
  have : m % 4 < 4 := Nat.mod_lt _ (by decide)
  interval_cases m % 4 <;> simp [pow_succ]

theorem exp_error {z : ℂ} {x : ℚ} (hz : ‖z‖ = ((|x| : ℚ) : ℝ)) {n : Nat} (hn : 2 * |x| ≤ n) :
    ‖Complex.exp z - ∑ m ∈ Finset.range n, z ^ m / (m.factorial : ℂ)‖ ≤ (errorBound x n : ℝ) := by
  have hn' : 2 * ((|x| : ℚ) : ℝ) ≤ n := by exact_mod_cast hn
  have := Complex.exp_bound' (x := z) (n := n) (by
    rw [hz, div_le_iff₀ (by positivity)]
    push_cast
    push_cast at hn'
    linarith)
  rw [hz] at this
  rw [errorBound]
  push_cast at this ⊢
  exact this

theorem term_parts (x : ℝ) (m : Nat) :
    (((x : ℂ) * Complex.I) ^ m / (m.factorial : ℂ)).im = (sinCoeff m : ℝ) * (x ^ m / m.factorial) ∧
    (((x : ℂ) * Complex.I) ^ m / (m.factorial : ℂ)).re = (cosCoeff m : ℝ) * (x ^ m / m.factorial) := by
  have e : ((x : ℂ) * Complex.I) ^ m / (m.factorial : ℂ) =
      ((x ^ m / m.factorial : ℝ) : ℂ) * Complex.I ^ m := by
    push_cast
    rw [mul_pow]
    ring
  rw [e, Complex.im_ofReal_mul, Complex.re_ofReal_mul, (I_pow_parts m).1, (I_pow_parts m).2]
  exact ⟨mul_comm _ _, mul_comm _ _⟩

theorem norm_mul_I (x : ℚ) : ‖((x : ℝ) : ℂ) * Complex.I‖ = ((|x| : ℚ) : ℝ) := by
  rw [norm_mul, Complex.norm_I, mul_one, Complex.norm_real, Real.norm_eq_abs, Rat.cast_abs]

theorem sin_tests (x : ℚ) : (seriesTests sinCoeff x).Of (Real.sin (x : ℝ)) := by
  refine seriesTests_of fun n hn => ?_
  have h := (Complex.abs_im_le_norm _).trans (exp_error (norm_mul_I x) hn)
  rw [Complex.sub_im, Complex.exp_ofReal_mul_I_im, Complex.im_sum] at h
  rw [partialSum]
  push_cast
  refine le_of_eq_of_le ?_ h
  congr 2
  exact Finset.sum_congr rfl fun m _ => ((term_parts (x : ℝ) m).1).symm

theorem cos_tests (x : ℚ) : (seriesTests cosCoeff x).Of (Real.cos (x : ℝ)) := by
  refine seriesTests_of fun n hn => ?_
  have h := (Complex.abs_re_le_norm _).trans (exp_error (norm_mul_I x) hn)
  rw [Complex.sub_re, Complex.exp_ofReal_mul_I_re, Complex.re_sum] at h
  rw [partialSum]
  push_cast
  refine le_of_eq_of_le ?_ h
  congr 2
  exact Finset.sum_congr rfl fun m _ => ((term_parts (x : ℝ) m).2).symm

/-- The exponential of a real number by its own partial sums. -/
theorem real_exp_error {x : ℚ} {y : ℝ} (hy : |y| = ((|x| : ℚ) : ℝ)) {n : Nat} (hn : 2 * |x| ≤ n) :
    |Real.exp y - ∑ m ∈ Finset.range n, y ^ m / (m.factorial : ℝ)| ≤ (errorBound x n : ℝ) := by
  have h := (Complex.abs_re_le_norm _).trans
    (exp_error (z := (y : ℂ)) (by rw [Complex.norm_real, Real.norm_eq_abs, hy]) hn)
  rw [Complex.sub_re, Complex.exp_ofReal_re, Complex.re_sum] at h
  refine le_of_eq_of_le ?_ h
  congr 2
  refine Finset.sum_congr rfl fun m _ => ?_
  have : ((y : ℂ)) ^ m / (m.factorial : ℂ) = ((y ^ m / m.factorial : ℝ) : ℂ) := by push_cast; rfl
  rw [this, Complex.ofReal_re]

theorem sinh_tests (x : ℚ) : (seriesTests sinhCoeff x).Of (Real.sinh (x : ℝ)) := by
  refine seriesTests_of fun n hn => ?_
  have h1 := abs_le.mp (real_exp_error (x := x) (y := (x : ℝ)) (by push_cast; rfl) hn)
  have h2 := abs_le.mp (real_exp_error (x := x) (y := -(x : ℝ)) (by push_cast; exact abs_neg _) hn)
  have hs : (partialSum sinhCoeff x n : ℝ) =
      (∑ m ∈ Finset.range n, (x : ℝ) ^ m / (m.factorial : ℝ) -
        ∑ m ∈ Finset.range n, (-(x : ℝ)) ^ m / (m.factorial : ℝ)) / 2 := by
    rw [← Finset.sum_sub_distrib, Finset.sum_div, partialSum]
    push_cast
    refine Finset.sum_congr rfl fun m _ => ?_
    rcases Nat.even_or_odd m with hm | hm
    · rw [hm.neg_pow, sinhCoeff, if_neg (by rw [Nat.even_iff.mp hm]; decide)]
      push_cast
      ring
    · rw [hm.neg_pow, sinhCoeff, if_pos (Nat.odd_iff.mp hm)]
      push_cast
      ring
  rw [Real.sinh_eq, hs]
  exact abs_le.mpr ⟨by linarith [h1.1, h2.2], by linarith [h1.2, h2.1]⟩

/-! ### Powers of ten -/

/-- The tests against `10^x`: both sides to the power of the denominator of `x`. -/
def powTests (x : ℚ) : Tests :=
  { below := fun _ v => decide (v ≤ 0) || decide (v ^ x.den < (10 : ℚ) ^ x.num)
    above := fun _ v => decide (0 < v) && decide ((10 : ℚ) ^ x.num < v ^ x.den) }

theorem rpow_den (x : ℚ) : ((10 : ℝ) ^ (x : ℝ)) ^ x.den = (10 : ℝ) ^ x.num := by
  rw [← Real.rpow_natCast, ← Real.rpow_mul (by norm_num), ← Real.rpow_intCast]
  congr 1
  exact_mod_cast Rat.mul_den_eq_num x

theorem pow_tests (x : ℚ) : (powTests x).Of ((10 : ℝ) ^ (x : ℝ)) := by
  have hpos : (0 : ℝ) < (10 : ℝ) ^ (x : ℝ) := Real.rpow_pos_of_pos (by norm_num) _
  have cast : (10 : ℝ) ^ x.num = (((10 : ℚ) ^ x.num : ℚ) : ℝ) := by push_cast; rfl
  have lt_iff : ∀ v : ℚ, 0 ≤ v → ((v : ℝ) < (10 : ℝ) ^ (x : ℝ) ↔ v ^ x.den < (10 : ℚ) ^ x.num) := by
    intro v hv
    have hv' : (0 : ℝ) ≤ v := by exact_mod_cast hv
    rw [← pow_lt_pow_iff_left₀ hv' hpos.le x.den_nz, rpow_den, cast]
    exact_mod_cast Iff.rfl
  have gt_iff : ∀ v : ℚ, 0 ≤ v → ((10 : ℝ) ^ (x : ℝ) < (v : ℝ) ↔ (10 : ℚ) ^ x.num < v ^ x.den) := by
    intro v hv
    have hv' : (0 : ℝ) ≤ v := by exact_mod_cast hv
    rw [← pow_lt_pow_iff_left₀ hpos.le hv' x.den_nz, rpow_den, cast]
    exact_mod_cast Iff.rfl
  have key1 : ∀ v : ℚ, (v : ℝ) < (10 : ℝ) ^ (x : ℝ) ↔
      (decide (v ≤ 0) || decide (v ^ x.den < (10 : ℚ) ^ x.num)) = true := by
    intro v
    rw [Bool.or_eq_true, decide_eq_true_eq, decide_eq_true_eq]
    by_cases hv : v ≤ 0
    · have : (v : ℝ) ≤ 0 := by exact_mod_cast hv
      exact ⟨fun _ => .inl hv, fun _ => by linarith⟩
    · rw [lt_iff v (le_of_lt (not_le.mp hv))]
      exact ⟨.inr, fun h => h.resolve_left hv⟩
  have key2 : ∀ v : ℚ, (10 : ℝ) ^ (x : ℝ) < (v : ℝ) ↔
      (decide (0 < v) && decide ((10 : ℚ) ^ x.num < v ^ x.den)) = true := by
    intro v
    rw [Bool.and_eq_true, decide_eq_true_eq, decide_eq_true_eq]
    by_cases hv : 0 < v
    · rw [gt_iff v hv.le]
      exact ⟨fun h => ⟨hv, h⟩, fun h => h.2⟩
    · have : (v : ℝ) ≤ 0 := by exact_mod_cast not_lt.mp hv
      exact ⟨fun h => absurd (hpos.trans h) (not_lt.mpr this), fun h => absurd h.1 hv⟩
  exact ⟨fun _ v h => (key1 v).mpr h, fun _ v h => (key2 v).mpr h,
    fun v h => .of_forall fun _ => (key1 v).mp h, fun v h => .of_forall fun _ => (key2 v).mp h⟩

/-! ### The record -/

/-- A number other than zero has a faithful rounding other than zero. -/
theorem exists_faithful_ne_zero {r : ℝ} (hr : r ≠ 0) (h1 : r ≤ 1) (h2 : -1 ≤ r) :
    ∃ y, Faithful r y ∧ (!isZero y) = true := by
  have hm := one_le_maxFinite
  have up : ∀ r : ℝ, 0 < r → r ≤ 1 → ∃ y, isFinite y = true ∧ r ≤ (toRat y : ℝ) ∧
      (∀ v, isFinite v = true → r ≤ (toRat v : ℝ) → toRat y ≤ toRat v) ∧ isZero y = false := by
    intro r h0 h1
    obtain ⟨y, g1, g2, g3⟩ := exists_ceil (h1.trans hm)
    refine ⟨y, g1, g2, g3, ?_⟩
    by_contra hz
    rw [toRat_of_isZero (by simpa using hz), Rat.cast_zero] at g2
    linarith
  have habs : |r| < 2 ^ 1024 :=
    lt_of_le_of_lt (abs_le.mpr ⟨by linarith, h1.trans hm⟩) maxFinite_lt
  rcases lt_or_gt_of_ne hr with h | h
  · obtain ⟨y, g1, g2, g3, g4⟩ := up (-r) (by linarith) (by linarith)
    have e : (toRat (fneg y) : ℝ) = -(toRat y : ℝ) := by rw [toRat_fneg]; push_cast; rfl
    refine ⟨fneg y, .inl ⟨by rw [isFinite_fneg]; exact g1, habs, .inl ⟨by rw [e]; linarith, ?_⟩⟩,
      by rw [isZero_fneg, g4]; rfl⟩
    intro v hv hvr
    have := g3 (fneg v) (by rw [isFinite_fneg]; exact hv)
      (by rw [toRat_fneg]; push_cast; linarith)
    rw [toRat_fneg] at this ⊢
    linarith
  · obtain ⟨y, g1, g2, g3, g4⟩ := up r h h1
    exact ⟨y, .inl ⟨g1, habs, .inr ⟨g2, g3⟩⟩, by rw [g4]; rfl⟩

theorem sin_ne_zero {x : ℚ} (hx : x ≠ 0) : Real.sin (x : ℝ) ≠ 0 := by
  intro h
  obtain ⟨n, hn⟩ := Real.sin_eq_zero_iff.mp h
  by_cases h0 : n = 0
  · rw [h0, Int.cast_zero, zero_mul] at hn
    exact hx (by exact_mod_cast hn.symm)
  · refine irrational_pi ⟨x / n, ?_⟩
    have : (n : ℝ) ≠ 0 := by exact_mod_cast h0
    push_cast
    rw [← hn]
    field_simp

theorem toRat_ne_zero {w : Word} (h : isZero w = false) : toRat w ≠ 0 := by
  rw [toRat]
  refine div_ne_zero ?_ (by positivity)
  have : units w ≠ 0 := fun h0 => by rw [units_eq_zero, h] at h0; cases h0
  exact_mod_cast this

theorem sin_hit {w : Word} (h : isZero w = false) :
    ∃ n, (seriesTests sinCoeff (toRat w)).hit (fun y => !isZero y) n = true := by
  obtain ⟨y, h1, h2⟩ := exists_faithful_ne_zero (sin_ne_zero (toRat_ne_zero h))
    (Real.sin_le_one _) (Real.neg_one_le_sin _)
  exact exists_hit (sin_tests _) h1 h2

theorem cos_hit (w : Word) : ∃ n, (seriesTests cosCoeff (toRat w)).hit (fun _ => true) n = true := by
  obtain ⟨y, h, -⟩ := exists_faithful (Real.cos (toRat w : ℝ))
  exact exists_hit (cos_tests _) h rfl

theorem sinh_hit (w : Word) :
    ∃ n, (seriesTests sinhCoeff (toRat w)).hit (fun _ => true) n = true := by
  obtain ⟨y, h, -⟩ := exists_faithful (Real.sinh (toRat w : ℝ))
  exact exists_hit (sinh_tests _) h rfl

/-- Zero is a faithful rounding of a positive number below half the least positive number. -/
theorem faithful_underflow {r : ℝ} (h0 : 0 < r) (h : r < (underflowBound : ℝ)) :
    Faithful r posZero := by
  have hz : toRat posZero = 0 := toRat_of_isZero (by decide)
  have hC : (1 : ℝ) ≤ 2 ^ 1074 := one_le_pow₀ (by norm_num)
  have hb : r * 2 ^ 1074 < 1 := by
    have e : (underflowBound : ℝ) * 2 ^ 1074 = 1 / 2 := by
      rw [underflowBound]
      push_cast
      rw [show 1075 = 1074 + 1 from rfl, pow_succ]
      generalize (2 : ℝ) ^ 1074 = C at *
      field_simp
    refine (mul_lt_mul_of_pos_right h (by positivity)).trans ?_
    rw [e]
    norm_num
  have hr1 : r < 1 := by
    generalize (2 : ℝ) ^ 1074 = C at *
    nlinarith
  have h1 : (1 : ℝ) ≤ 2 ^ 1024 := one_le_pow₀ (by norm_num)
  refine .inl ⟨by decide, by rw [abs_of_pos h0]; exact hr1.trans_le h1, .inl ⟨by rw [hz]; simpa using h0.le, ?_⟩⟩
  intro v _ hv
  rw [hz]
  by_contra hc
  have hu : 0 < units v := by
    by_contra hn
    refine hc ?_
    rw [toRat]
    exact div_nonpos_of_nonpos_of_nonneg (by exact_mod_cast not_lt.mp hn) (by positivity)
  have hu' : (1 : ℝ) ≤ units v := by exact_mod_cast hu
  rw [toRat_cast, div_le_iff₀ (by positivity)] at hv
  exact absurd (hu'.trans hv) (not_le.mpr hb)

/-- What the power of ten is to be beside faithful: `+0` where the exact power is below half the least
positive number, and not negative elsewhere (R100 e). -/
def powOk (x : ℚ) (y : Word) : Bool :=
  if (powTests x).above 0 underflowBound then y == posZero else !signBit y

theorem pow_hit (w : Word) : ∃ n, (powTests (toRat w)).hit (powOk (toRat w)) n = true := by
  have hpos : (0 : ℝ) < (10 : ℝ) ^ (toRat w : ℝ) := Real.rpow_pos_of_pos (by norm_num) _
  by_cases hu : (powTests (toRat w)).above 0 underflowBound = true
  · exact exists_hit (pow_tests _)
      (faithful_underflow hpos ((pow_tests (toRat w)).above_sound 0 _ hu)) (by simp [powOk, hu])
  · obtain ⟨y, h, -, hs⟩ := exists_faithful ((10 : ℝ) ^ (toRat w : ℝ))
    exact exists_hit (pow_tests _) h (by rw [powOk, if_neg hu, hs hpos]; rfl)

theorem signBit_of_powOk {x : ℚ} {y : Word} (h : powOk x y = true) : signBit y = false := by
  rw [powOk] at h
  split_ifs at h
  · rw [beq_iff_eq.mp h]; decide
  · simpa using h

/-- The record of the first words found. -/
def searchedNumerics : Numerics :=
  { fsin := fun w => if h : isZero w = false then Tests.search _ _ (sin_hit h) else w
    fcos := fun w => Tests.search _ _ (cos_hit w)
    fpow10 := fun w => Tests.search _ _ (pow_hit w)
    fsinh := fun w => Tests.search _ _ (sinh_hit w) }

/-- A faithful rounding of a positive number is not below zero. -/
theorem faithful_nonneg {r : ℝ} {y : Word} (h : Faithful r y) (hf : isFinite y = true)
    (hr : 0 < r) : 0 ≤ toRat y := by
  have hz : toRat posZero = 0 := toRat_of_isZero (by decide)
  rcases h with ⟨-, -, ⟨-, h⟩ | ⟨h, -⟩⟩ | ⟨rfl, -⟩ | ⟨rfl, -⟩
  · have := h posZero (by decide) (by rw [hz]; push_cast; exact hr.le)
    rwa [hz] at this
  · have : (0 : ℝ) ≤ toRat y := hr.le.trans h
    exact_mod_cast this
  · exact absurd hf (by decide)
  · exact absurd hf (by decide)

theorem searchedNumerics_admissible : Admissible searchedNumerics := by
  have fin : ∀ {w : Word}, isFinite w = true → (isNaN w || isInf w) = false := fun hw => by
    rw [isNaN_of_isFinite hw, isInf_of_isFinite hw]; rfl
  have sin_eq : ∀ {w : Word}, isFinite w = true → (h : isZero w = false) →
      fsin searchedNumerics w = Tests.search _ _ (sin_hit h) := by
    intro w hw h
    rw [fsin, fin hw, if_neg (by simp), if_neg (fun e => by rw [e] at h; exact absurd h (by decide))]
    exact dif_pos h
  refine ⟨fun w hw => ?_, fun w hw h0 hpi => ?_, fun w hw => ?_, fun e he => ?_, fun e he hu => ?_,
    fun t ht => ?_⟩
  · cases hz : isZero w with
    | false => rw [sin_eq hw hz]; exact (search_spec (sin_tests _) _).1
    | true =>
      have hs : isZero (fsin searchedNumerics w) = true := by
        rw [fsin, fin hw, if_neg (by simp)]
        split_ifs
        · decide
        · rw [searchedNumerics]
          simp [hz]
      rw [toRat_of_isZero hz]
      simpa using faithful_zero hs
  · have hz : isZero w = false := by
      by_contra hc
      rw [toRat_of_isZero (by simpa using hc)] at h0
      exact lt_irrefl _ h0
    rw [sin_eq hw hz]
    obtain ⟨h1, h2⟩ := search_spec (sin_tests (toRat w)) (sin_hit hz)
    have hs : 0 < Real.sin (toRat w : ℝ) := Real.sin_pos_of_pos_of_lt_pi (by exact_mod_cast h0) hpi
    have hm := one_le_maxFinite
    have hf : isFinite (Tests.search _ _ (sin_hit hz)) = true := by
      have b := Real.sin_le_one (toRat w : ℝ)
      rcases h1 with ⟨h, -⟩ | ⟨-, h⟩ | ⟨-, h⟩
      · exact h
      · linarith
      · linarith
    exact lt_of_le_of_ne (faithful_nonneg h1 hf hs) (Ne.symm (toRat_ne_zero (by simpa using h2)))
  · rw [fcos, fin hw, if_neg (by simp)]
    split_ifs with h
    · rw [toRat_of_isZero h]; simpa using faithful_one
    · exact (search_spec (cos_tests _) _).1
  · rw [fpow10, isNaN_of_isFinite he, isInf_of_isFinite he, if_neg (by simp),
      if_neg (c := false = true) (by simp)]
    split_ifs with h
    · rw [toRat_of_isZero h]; simpa using faithful_one
    · obtain ⟨h1, h2⟩ := search_spec (pow_tests (toRat e)) (pow_hit e)
      rw [searchedNumerics, clearSign_eq (signBit_of_powOk h2)]
      exact h1
  · obtain ⟨k, hk⟩ := ((pow_tests (toRat e)).above_complete _ hu).exists
    have hz : isZero e = false := by
      by_contra hc
      rw [toRat_of_isZero (by simpa using hc), Rat.cast_zero, Real.rpow_zero, underflowBound] at hu
      have : (1 : ℝ) ≤ 2 ^ 1075 := one_le_pow₀ (by norm_num)
      push_cast at hu
      rw [lt_div_iff₀ (by positivity), one_mul] at hu
      exact absurd hu (not_lt.mpr this)
    have h2 := (search_spec (pow_tests (toRat e)) (pow_hit e)).2
    rw [powOk, if_pos (show (powTests (toRat e)).above 0 underflowBound = true from hk),
      beq_iff_eq] at h2
    rw [fpow10, isNaN_of_isFinite he, isInf_of_isFinite he, hz]
    change clearSign (Tests.search _ _ (pow_hit e)) = posZero
    rw [h2]
    decide
  · rw [fsinh, isNaN_of_isFinite ht, isInf_of_isFinite ht, if_neg (by simp), Bool.or_false]
    split_ifs with h
    · rw [toRat_of_isZero h]; simpa using faithful_zero h
    · exact (search_spec (sinh_tests _) _).1

end Sys2Proof.Machine
end

