-- ==== Sys2Proof/Machine/Numerics.lean ====
section
/-!
DEFINITION. The elementary functions of the implementation (40_numerics R98 to R101): one record
Numerics among those that meet the rules, not said which.
-/

namespace Sys2Proof

/-- A record Numerics that meets R98 to R101. -/
def AdmissibleNumerics : Type := { num : Numerics // Machine.Admissible num }

/-- FREE VALUE (log 6): the record of this implementation. The argument only says that there is such
a record; nothing says that the implementation's is that one. -/
opaque Config.implementation [Inhabited AdmissibleNumerics] : AdmissibleNumerics

/-- The elementary functions of this implementation. -/
def Config.numerics : Numerics :=
  (@Config.implementation ⟨⟨Machine.searchedNumerics, Machine.searchedNumerics_admissible⟩⟩).val

/-- R98 to R101 hold of the machine's elementary functions, under no hypothesis. -/
theorem Config.numerics_admissible : Machine.Admissible Config.numerics :=
  (@Config.implementation ⟨⟨Machine.searchedNumerics, Machine.searchedNumerics_admissible⟩⟩).property

end Sys2Proof
end

