-- ==== Sys2Proof/Machine/Design.lean ====
section
/-!
DEFINITION. The coefficient designer (41_design) and the command DESIGN. Each rule is its fixed tree
of primitive calls (R103); `q i` is the NaN word of the i-th call.
-/

namespace Sys2Proof.Machine

/-! ### Validation (R121) -/

/-- The types whose gain is used (R63). -/
def usesGain : FilterType → Bool
  | .lowPass => false
  | .highPass => false
  | .bandPass => false
  | .notch => false
  | .peaking => true
  | .lowShelf => true
  | .highShelf => true
  | .allPass => false

/-- The tests V1 to V4 of R121. -/
def validParams (nan : Word) (ft : FilterType) (p : DesignParams) : Bool :=
  (isFinite p.fs && flt posZero p.fs) &&
  (flt posZero p.f && flt p.f (fdiv nan p.fs two)) &&
  (isFinite p.sh && flt posZero p.sh) &&
  (!usesGain ft || isFinite p.g)

/-! ### Shared terms (R122, R123) and alpha (R124, R126 to R128) -/

/-- The angular frequency `w` (R122). -/
def angularFrequency (q : Nat → Word) (fs f : Word) : Word :=
  fdiv (q 1) (fmul (q 0) TWO_PI f) fs

/-- The linear gain `A` of R123. -/
def linearGain (num : Numerics) (nan g : Word) : Word := fpow10 num (fdiv nan g forty)

/-- Alpha from Q (R126). -/
def alphaFromQ (q : Nat → Word) (sn sh : Word) : Word := fdiv (q 1) sn (fmul (q 0) two sh)

/-- Alpha from a bandwidth in octaves (R127). -/
def alphaFromBW (num : Numerics) (q : Nat → Word) (w sn sh : Word) : Word :=
  fmul (q 3) sn (fsinh num (fdiv (q 2) (fmul (q 1) (fmul (q 0) LN2_HALF sh) w) sn))

/-- Alpha from a shelf slope (R128). -/
def alphaFromS (q : Nat → Word) (A sn sh : Word) : Word :=
  fmul (q 8) (fdiv (q 0) sn two)
    (fsqrt (q 7)
      (fadd (q 6)
        (fmul (q 5) (fadd (q 2) A (fdiv (q 1) one A)) (fsub (q 4) (fdiv (q 3) one sh) one))
        two))

/-- Alpha by the reading of the shape operand (R124). -/
def alphaBy (num : Numerics) (kind : ShapeKind) (q : Nat → Word) (w sn A sh : Word) : Word :=
  match kind with
  | .Q => alphaFromQ q sn sh
  | .BW => alphaFromBW num q w sn sh
  | .S => alphaFromS q A sn sh

/-! ### The eight closed forms (R129 to R136) -/

/-- The six unnormalised values. -/
structure Unnormalised where
  ub0 : Word
  ub1 : Word
  ub2 : Word
  ua0 : Word
  ua1 : Word
  ua2 : Word
  deriving DecidableEq, Repr

/-- LowPass (R129). -/
def lowPassForm (q : Nat → Word) (cs al : Word) : Unnormalised :=
  let t := fsub (q 0) one cs
  { ub0 := fdiv (q 1) t two
    ub1 := t
    ub2 := fdiv (q 2) t two
    ua0 := fadd (q 3) one al
    ua1 := fmul (q 4) minusTwo cs
    ua2 := fsub (q 5) one al }

/-- HighPass (R130). -/
def highPassForm (q : Nat → Word) (cs al : Word) : Unnormalised :=
  let t := fadd (q 0) one cs
  { ub0 := fdiv (q 1) t two
    ub1 := fneg t
    ub2 := fdiv (q 2) t two
    ua0 := fadd (q 3) one al
    ua1 := fmul (q 4) minusTwo cs
    ua2 := fsub (q 5) one al }

/-- BandPass, constant 0 dB peak gain (R131). -/
def bandPassForm (q : Nat → Word) (cs al : Word) : Unnormalised :=
  { ub0 := al
    ub1 := posZero
    ub2 := fneg al
    ua0 := fadd (q 0) one al
    ua1 := fmul (q 1) minusTwo cs
    ua2 := fsub (q 2) one al }

/-- Notch (R132). -/
def notchForm (q : Nat → Word) (cs al : Word) : Unnormalised :=
  { ub0 := one
    ub1 := fmul (q 0) minusTwo cs
    ub2 := one
    ua0 := fadd (q 1) one al
    ua1 := fmul (q 2) minusTwo cs
    ua2 := fsub (q 3) one al }

/-- AllPass (R133). -/
def allPassForm (q : Nat → Word) (cs al : Word) : Unnormalised :=
  { ub0 := fsub (q 0) one al
    ub1 := fmul (q 1) minusTwo cs
    ub2 := fadd (q 2) one al
    ua0 := fadd (q 3) one al
    ua1 := fmul (q 4) minusTwo cs
    ua2 := fsub (q 5) one al }

/-- Peaking (R134). -/
def peakingForm (q : Nat → Word) (cs al A : Word) : Unnormalised :=
  { ub0 := fadd (q 1) one (fmul (q 0) al A)
    ub1 := fmul (q 2) minusTwo cs
    ub2 := fsub (q 4) one (fmul (q 3) al A)
    ua0 := fadd (q 6) one (fdiv (q 5) al A)
    ua1 := fmul (q 7) minusTwo cs
    ua2 := fsub (q 9) one (fdiv (q 8) al A) }

/-- LowShelf (R135). -/
def lowShelfForm (q : Nat → Word) (cs al A : Word) : Unnormalised :=
  let ap := fadd (q 0) A one
  let am := fsub (q 1) A one
  let r := fmul (q 4) (fmul (q 3) two (fsqrt (q 2) A)) al
  let apc := fmul (q 5) ap cs
  let amc := fmul (q 6) am cs
  { ub0 := fmul (q 9) A (fadd (q 8) (fsub (q 7) ap amc) r)
    ub1 := fmul (q 12) (fmul (q 10) two A) (fsub (q 11) am apc)
    ub2 := fmul (q 15) A (fsub (q 14) (fsub (q 13) ap amc) r)
    ua0 := fadd (q 17) (fadd (q 16) ap amc) r
    ua1 := fmul (q 19) minusTwo (fadd (q 18) am apc)
    ua2 := fsub (q 21) (fadd (q 20) ap amc) r }

/-- HighShelf (R136). -/
def highShelfForm (q : Nat → Word) (cs al A : Word) : Unnormalised :=
  let ap := fadd (q 0) A one
  let am := fsub (q 1) A one
  let r := fmul (q 4) (fmul (q 3) two (fsqrt (q 2) A)) al
  let apc := fmul (q 5) ap cs
  let amc := fmul (q 6) am cs
  { ub0 := fmul (q 9) A (fadd (q 8) (fadd (q 7) ap amc) r)
    ub1 := fmul (q 12) (fmul (q 10) minusTwo A) (fadd (q 11) am apc)
    ub2 := fmul (q 15) A (fsub (q 14) (fadd (q 13) ap amc) r)
    ua0 := fadd (q 17) (fsub (q 16) ap amc) r
    ua1 := fmul (q 19) two (fsub (q 18) am apc)
    ua2 := fsub (q 21) (fsub (q 20) ap amc) r }

/-- The closed form of a type. -/
def closedForm (q : Nat → Word) (ft : FilterType) (cs al A : Word) : Unnormalised :=
  match ft with
  | .lowPass => lowPassForm q cs al
  | .highPass => highPassForm q cs al
  | .bandPass => bandPassForm q cs al
  | .notch => notchForm q cs al
  | .peaking => peakingForm q cs al A
  | .lowShelf => lowShelfForm q cs al A
  | .highShelf => highShelfForm q cs al A
  | .allPass => allPassForm q cs al

/-- Normalisation: five divisions by `ua0` (R137). -/
def normalise (q : Nat → Word) (u : Unnormalised) : Coeffs :=
  { b0 := fdiv (q 0) u.ub0 u.ua0
    b1 := fdiv (q 1) u.ub1 u.ua0
    b2 := fdiv (q 2) u.ub2 u.ua0
    a1 := fdiv (q 3) u.ua1 u.ua0
    a2 := fdiv (q 4) u.ua2 u.ua0 }

/-! ### The function (R120, R125) -/

/-- The gain factor of a type: R123 where the type uses the gain. No decided rule reads it for the
other types; there it stands for 0 dB (log 8). -/
def gainFactor (num : Numerics) (nan : Word) (ft : FilterType) (g : Word) : Word :=
  if usesGain ft then linearGain num nan g else one

/-- Alpha, closed form and normalisation from the shared terms. -/
def designFromTerms (num : Numerics) (shape : FilterType → ShapeKind) (q : Nat → Word)
    (ft : FilterType) (w sn cs A sh : Word) : Coeffs :=
  let al := alphaBy num (shape ft) q w sn A sh
  normalise (skip 31 q) (closedForm (skip 9 q) ft cs al A)

/-- The coefficients of valid parameters. -/
def designCoeffs (num : Numerics) (shape : FilterType → ShapeKind) (q : Nat → Word)
    (ft : FilterType) (p : DesignParams) : Coeffs :=
  let w := angularFrequency q p.fs p.f
  let sn := fsin num w
  let cs := fcos num w
  let A := gainFactor num (q 2) ft p.g
  designFromTerms num shape (skip 4 q) ft w sn cs A p.sh

/-- How many NaN words a design passes: one for each primitive call of the longest tree. -/
def designDraws : Nat := 40

/-- `design(FT, fs, f, sh, g)`: none is the verdict InvalidParameter (R120). -/
def design (num : Numerics) (shape : FilterType → ShapeKind) (q : Nat → Word) (ft : FilterType)
    (p : DesignParams) : Option Coeffs :=
  if validParams (q 3) ft p then some (designCoeffs num shape q ft p) else none

/-- The one `design` function of the block's commands (R141), with the NaN words of the state. -/
def State.design (s : State) (ft : FilterType) (p : DesignParams) : Option Coeffs :=
  Sys2Proof.Machine.design Config.numerics Config.SHAPE s.draws ft p

/-! ### The command -/

/-- DESIGN (R140). -/
def execDesign (ft : FilterType) (p : DesignParams) (s : State) :
    Host.Outcome State Fault Refusal :=
  .next <| match s.design ft p with
    | none => raise Opcode.design.byte .InvalidParameter s
    | some c => respond Opcode.design.byte .OK 0 c.words (s.spend designDraws)

end Sys2Proof.Machine
end

