-- ==== Sys2Proof/Machine/Equalizer.lean ====
section
/-!
DEFINITION. The chain controller (43_equalizer): the walk over the bands, the loop over the samples,
and the commands EQ_ADD, EQ_SET, EQ_REMOVE, EQ_RESET, EQ_PROC and EQ_PROCB.
-/

namespace Sys2Proof.Machine

/-- `eq_step`: one sample through the bands in increasing order, each band fed with the output of the
band before it (R171, R177). The bands come back with their new delay registers. -/
def eqStep (q : Nat → Word) : List Band → Word → Word × List Band
  | [], x => (x, [])
  | b :: rest, x =>
    let r := bqStep q b.coef b.dly x
    let t := eqStep (skip bqStepDraws q) rest r.1
    (t.1, { b with dly := r.2 } :: t.2)

/-- How many NaN words one sample passes in a chain of `n` bands. -/
def eqStepDraws (n : Nat) : Nat := bqStepDraws * n

/-- The loop of EQ_PROCB: the outer loop over the samples, the inner one over the bands (R178). -/
def eqBlock (q : Nat → Word) (bands : List Band) : List Word → List Word × List Band
  | [] => ([], bands)
  | x :: rest =>
    let r := eqStep q bands x
    let t := eqBlock (skip (eqStepDraws bands.length) q) r.2 rest
    (r.1 :: t.1, t.2)

/-- EQ_ADD (R172): parameters first, then the store (R202). -/
def execEqAdd (ft : FilterType) (p : DesignParams) (s : State) :
    Host.Outcome State Fault Refusal :=
  .next <| match s.design ft p with
    | none => raise Opcode.eqAdd.byte .InvalidParameter s
    | some c => appendBand Config.MAXBANDS Opcode.eqAdd.byte c designDraws s

/-- EQ_SET (R173): parameters first, then the index (R202); the delay registers stay. -/
def execEqSet (idx : BitVec 8) (ft : FilterType) (p : DesignParams) (s : State) :
    Host.Outcome State Fault Refusal :=
  .next <| match s.design ft p with
    | none => raise Opcode.eqSet.byte .InvalidParameter s
    | some c => withBand Opcode.eqSet.byte idx s fun b =>
        respond Opcode.eqSet.byte .OK 0 []
          ((s.putBand idx { b with coef := c }).spend designDraws)

/-- EQ_REMOVE (R174). -/
def execEqRemove (idx : BitVec 8) (s : State) : Host.Outcome State Fault Refusal :=
  .next <| withBand Opcode.eqRemove.byte idx s fun _ =>
    respond Opcode.eqRemove.byte .OK 0 [] (s.removeBand idx)

/-- EQ_RESET (R175). -/
def execEqReset (s : State) : Host.Outcome State Fault Refusal :=
  .next (respond Opcode.eqReset.byte .OK 0 [] { s with bands := s.bands.map Band.cleared })

/-- EQ_PROC (R176). -/
def execEqProc (x : Word) (s : State) : Host.Outcome State Fault Refusal :=
  let r := eqStep s.draws s.bands x
  .next (respond Opcode.eqProc.byte .OK 0 [r.1]
    (State.spend (eqStepDraws s.N) { s with bands := r.2 }))

/-- EQ_PROCB (R178). -/
def execEqProcb (xs : List Word) (s : State) : Host.Outcome State Fault Refusal :=
  let r := eqBlock s.draws s.bands xs
  .next (respond Opcode.eqProcb.byte .OK 0 r.1
    (State.spend (eqStepDraws s.N * xs.length) { s with bands := r.2 }))

end Sys2Proof.Machine
end

