-- ==== Sys2Proof/Machine/Readback.lean ====
section
/-!
DEFINITION. The read-back commands RD_COUNT and RD_BAND (44_readback). They change nothing.
-/

namespace Sys2Proof.Machine

/-- RD_COUNT (R190). -/
def execRdCount (s : State) : Host.Outcome State Fault Refusal :=
  .next (respond Opcode.rdCount.byte .OK s.countReg [] s)

/-- RD_BAND (R191). -/
def execRdBand (idx : BitVec 8) (s : State) : Host.Outcome State Fault Refusal :=
  .next <| withBand Opcode.rdBand.byte idx s fun b =>
    respond Opcode.rdBand.byte .OK 0 b.words s

end Sys2Proof.Machine
end

