-- ==== Sys2Proof/Machine/Dispatch.lean ====
section
/-!
DEFINITION. One arm per command, each a direct call of its meaning.
-/

namespace Sys2Proof.Machine

def exec (i : Instr) (s : State) : Host.Outcome State Fault Refusal :=
  match i with
  | .design ft p => Sys2Proof.Machine.execDesign ft p s
  | .bqNew => Sys2Proof.Machine.execBqNew s
  | .bqSetcoef idx c => Sys2Proof.Machine.execBqSetcoef idx c s
  | .bqReset idx => Sys2Proof.Machine.execBqReset idx s
  | .bqProc idx x => Sys2Proof.Machine.execBqProc idx x s
  | .bqProcb idx xs => Sys2Proof.Machine.execBqProcb idx xs s
  | .eqAdd ft p => Sys2Proof.Machine.execEqAdd ft p s
  | .eqSet idx ft p => Sys2Proof.Machine.execEqSet idx ft p s
  | .eqRemove idx => Sys2Proof.Machine.execEqRemove idx s
  | .eqReset => Sys2Proof.Machine.execEqReset s
  | .eqProc x => Sys2Proof.Machine.execEqProc x s
  | .eqProcb xs => Sys2Proof.Machine.execEqProcb xs s
  | .rdCount => Sys2Proof.Machine.execRdCount s
  | .rdBand idx => Sys2Proof.Machine.execRdBand idx s

end Sys2Proof.Machine
end

