-- ==== Sys2Proof/Machine/Step.lean ====
section
/-!
DEFINITION. One step of the engine: one whole command, or one reset pulse (R15, R47, R230).
-/

namespace Sys2Proof.Machine

/-- The oldest event at the block's inputs is taken: a packet is decoded and performed, or answered
IllegalCommand; a reset pulse resets the block. With nothing there the block is idle (R213). -/
def step (s : State) : Host.Outcome State Fault Refusal :=
  match s.cmdPort with
  | [] => .next s
  | .reset :: _ => .next (hardwareReset s.dropEvent)
  | .packet p :: _ =>
    match decode p with
    | .ok i => exec i s.dropEvent
    | .error _ => .next (answerIllegal p s.dropEvent)

/-- The packet of `tableWordPacket` put where `step` takes its next command: first on the command
port (log 9). -/
def State.withFetchWord (s : State) (nbits w : Nat) : State := s.withPacket (tableWordPacket nbits w)

end Sys2Proof.Machine
end

