-- ==== Sys2Proof/Safety.lean ====
section
/-!
DEFINITION. The terms that claims about runs use: the fields of a response (R68), the invariant of
the machine (R24, R48, R68, R200), which status a command owes (R202), runs of several commands, and
equality up to the freedom of R104.
-/

namespace Sys2Proof.Machine

/-! ### The fields of a response header (R68) -/

/-- `STATUS`, bits [3:0]. -/
def respStatus (h : Word) : BitVec 4 := h.extractLsb' 0 4

/-- The reserved bits [7:4]. -/
def respRsvLow (h : Word) : BitVec 4 := h.extractLsb' 4 4

/-- `OPC`, bits [15:8]. -/
def respOpc (h : Word) : BitVec 8 := h.extractLsb' 8 8

/-- `VAL`, bits [23:16]. -/
def respVal (h : Word) : BitVec 8 := h.extractLsb' 16 8

/-- The reserved bits [31:24]. -/
def respRsvHigh (h : Word) : BitVec 8 := h.extractLsb' 24 8

/-- `CNT`, bits [63:32]. -/
def respCnt (h : Word) : BitVec 32 := h.extractLsb' 32 32

/-- A well-formed response: reserved bits zero, a status of R200, CNT the number of data words that
follow, and neither VAL nor data where the status is not OK (R68, R69, R200). -/
def ResponseWf (r : Packet) : Prop :=
  match r with
  | [] => False
  | h :: data =>
    respRsvLow h = 0 ∧ respRsvHigh h = 0 ∧ (respStatus h).toNat ≤ 4 ∧
      (respCnt h).toNat = data.length ∧ (respStatus h ≠ 0 → respVal h = 0 ∧ data = [])

/-! ### The invariant -/

/-- The invariant: the count is in its range (R24), and every response that has left the block is
well formed. -/
def State.Inv (s : State) : Prop :=
  s.N ≤ Config.MAXBANDS ∧ ∀ r ∈ s.respPort, ResponseWf r

/-! ### Statuses (R200, R202) -/

/-- The commands that validate design parameters, with them (R205). -/
def designRequest? : Instr → Option (FilterType × DesignParams)
  | .design ft p => some (ft, p)
  | .eqAdd ft p => some (ft, p)
  | .eqSet _ ft p => some (ft, p)
  | .bqNew => none
  | .bqSetcoef _ _ => none
  | .bqReset _ => none
  | .bqProc _ _ => none
  | .bqProcb _ _ => none
  | .eqRemove _ => none
  | .eqReset => none
  | .eqProc _ => none
  | .eqProcb _ => none
  | .rdCount => none
  | .rdBand _ => none

/-- The band index of the commands that use IDX (R206). -/
def index? : Instr → Option (BitVec 8)
  | .bqSetcoef idx _ => some idx
  | .bqReset idx => some idx
  | .bqProc idx _ => some idx
  | .bqProcb idx _ => some idx
  | .eqSet idx _ _ => some idx
  | .eqRemove idx => some idx
  | .rdBand idx => some idx
  | .design _ _ => none
  | .bqNew => none
  | .eqAdd _ _ => none
  | .eqReset => none
  | .eqProc _ => none
  | .eqProcb _ => none
  | .rdCount => none

/-- The appending commands (R41). -/
def appends : Instr → Bool
  | .bqNew => true
  | .eqAdd _ _ => true
  | .design _ _ => false
  | .bqSetcoef _ _ => false
  | .bqReset _ => false
  | .bqProc _ _ => false
  | .bqProcb _ _ => false
  | .eqSet _ _ _ => false
  | .eqRemove _ => false
  | .eqReset => false
  | .eqProc _ => false
  | .eqProcb _ => false
  | .rdCount => false
  | .rdBand _ => false

/-- The status a decoded command owes: the tests of R202 in their order, by the conditions of R121,
R206 and R200. -/
def owedStatus (i : Instr) (s : State) : Status :=
  if (designRequest? i).any (fun r => !validParams posZero r.1 r.2) then .InvalidParameter
  else if (index? i).any (fun idx => decide (s.N ≤ idx.toNat)) then .IndexOutOfRange
  else if appends i = true ∧ s.N = Config.MAXBANDS then .ChainFull
  else .OK

/-! ### Runs -/

/-- A list of commands performed in order, stopping at the first fault or refusal. -/
def execAll : List Instr → State → Host.Outcome State Fault Refusal
  | [], s => .next s
  | i :: rest, s =>
    match exec i s with
    | .next t => execAll rest t
    | .fault r => .fault r
    | .refused r => .refused r

/-- A safe outcome: the machine goes on. -/
def Safe (o : Host.Outcome State Fault Refusal) : Prop := ∃ t, o = .next t

/-! ### Band-major processing (R180) -/

/-- Band 0 over the whole block, then band 1 over its outputs, and so on: the second form of R180.
`q` gives each band its own NaN words. -/
def bandMajor (q : Nat → Nat → Word) : List Band → List Word → List Word × List Band
  | [], xs => (xs, [])
  | b :: rest, xs =>
    let r := bqBlock (q 0) b.coef b.dly xs
    let t := bandMajor (fun k => q (k + 1)) rest r.1
    (t.1, { b with dly := r.2 } :: t.2)

/-! ### Equality up to the freedom of R104 -/

/-- Coefficients equal up to NaN payloads. -/
def SameCoeffs (c d : Coeffs) : Prop :=
  SameF64 c.b0 d.b0 ∧ SameF64 c.b1 d.b1 ∧ SameF64 c.b2 d.b2 ∧ SameF64 c.a1 d.a1 ∧
    SameF64 c.a2 d.a2

/-- Bands equal up to NaN payloads. -/
def SameBand (a b : Band) : Prop :=
  SameCoeffs a.coef b.coef ∧ SameF64 a.dly.s1 b.dly.s1 ∧ SameF64 a.dly.s2 b.dly.s2

/-- Responses with the same header and data words equal up to NaN payloads. -/
def SameResponse (r t : Packet) : Prop :=
  r.head? = t.head? ∧ List.Forall₂ SameF64 r.tail t.tail

/-- States equal up to NaN payloads; the counter of NaN words may differ. -/
def SameState (s t : State) : Prop :=
  List.Forall₂ SameBand s.bands t.bands ∧ s.cmdPort = t.cmdPort ∧
    List.Forall₂ SameResponse s.respPort t.respPort

/-- Every word of a sequence is a NaN. -/
def AllNaN (q : Nat → Word) : Prop := ∀ i, isNaN (q i) = true

/-! ### Shapes of bands that the properties speak of -/

/-- All five coefficients are finite. -/
def coeffsFinite (c : Coeffs) : Bool :=
  isFinite c.b0 && isFinite c.b1 && isFinite c.b2 && isFinite c.a1 && isFinite c.a2

/-- Both delay registers are zeros, of either sign. -/
def Delay.zeros (d : Delay) : Bool := isZero d.s1 && isZero d.s2

/-- The shape of R164: `b0 = 1.0`, `b1` and `a1` the same pattern, `b2` and `a2` the same pattern, all
finite. -/
def identityShape (c : Coeffs) : Prop :=
  c.b0 = one ∧ c.b1 = c.a1 ∧ c.b2 = c.a2 ∧ coeffsFinite c = true

/-! ### Answers -/

/-- The command completes: `exec` answers a next state whose band store is `bands` (so its length is
the new `N`), which has left the command port alone and has emitted one response with this status,
VAL and data after the earlier ones. The one field of the state this says nothing of is the model's
own counter of NaN words (log 4). -/
def Answers (i : Instr) (s : State) (st : Status) (val : BitVec 8) (data : List Word)
    (bands : List Band) : Prop :=
  ∃ t, exec i s = .next t ∧ t.bands = bands ∧ t.cmdPort = s.cmdPort ∧
    t.respPort = s.respPort ++ [responsePacket i.opcode.byte st val data]

/-! ### Illegal packets (R71) -/

/-- How many operand words a format admits (R60). -/
def Format.admits (f : Format) (n : Nat) : Prop :=
  match f with
  | .H => n = 0
  | .HP => n = 4
  | .HC => n = 5
  | .HX1 => n = 1
  | .HX => n ≤ MAXBLOCK

/-- The list of R71: the empty packet, an opcode not in R67, a bit of RSV, a non-zero IDX or FT in a
command that does not use the field, a length that does not fit the format. -/
def illegalPacket (p : Packet) : Prop :=
  match p with
  | [] => True
  | h :: ops =>
    match Opcode.ofByte (headerOpc h) with
    | none => True
    | some o =>
      headerRsv h ≠ 0 ∨ (o.usesIdx = false ∧ headerIdx h ≠ 0) ∨
        (o.usesFt = false ∧ headerFt h ≠ 0) ∨ ¬ Format.admits o.format ops.length

/-! ### Processing as relations

`n` is any NaN word: what the rules leave open (R104) is left open by `SameF64`. -/

/-- R152: the output and the new registers of one step. -/
def StepOf (n : Word) (c : Coeffs) (d : Delay) (x y : Word) (d' : Delay) : Prop :=
  SameF64 y (fadd n (fmul n c.b0 x) d.s1) ∧
    SameF64 d'.s1 (fadd n (fsub n (fmul n c.b1 x) (fmul n c.a1 y)) d.s2) ∧
    SameF64 d'.s2 (fsub n (fmul n c.b2 x) (fmul n c.a2 y))

/-- R154: a block through one band. -/
inductive BlockOf (n : Word) (c : Coeffs) : Delay → List Word → List Word → Delay → Prop where
  | nil (d : Delay) : BlockOf n c d [] [] d
  | cons {d d' d'' : Delay} {x y : Word} {xs ys : List Word} :
    StepOf n c d x y d' → BlockOf n c d' xs ys d'' → BlockOf n c d (x :: xs) (y :: ys) d''

/-- R171: one sample through the bands in increasing order. -/
inductive WalkOf (n : Word) : List Band → Word → Word → List Band → Prop where
  | nil (x : Word) : WalkOf n [] x x []
  | cons {b : Band} {bs bs' : List Band} {x v y : Word} {d' : Delay} :
    StepOf n b.coef b.dly x v d' → WalkOf n bs v y bs' →
      WalkOf n (b :: bs) x y (⟨b.coef, d'⟩ :: bs')

/-- R178: a block through the chain, each sample through all the bands before the next. -/
inductive ChainOf (n : Word) : List Band → List Word → List Word → List Band → Prop where
  | nil (bs : List Band) : ChainOf n bs [] [] bs
  | cons {bs bs' bs'' : List Band} {x y : Word} {xs ys : List Word} :
    WalkOf n bs x y bs' → ChainOf n bs' xs ys bs'' → ChainOf n bs (x :: xs) (y :: ys) bs''

/-! ### Exact values -/

/-- A number that is the value of some finite F64. -/
def Representable (x : ℚ) : Prop := ∃ v : Word, isFinite v = true ∧ toRat v = x

/-- The values of finite coefficients. -/
def exactCoeffs (c : Coeffs) : ExactCoeffs ℚ :=
  ⟨toRat c.b0, toRat c.b1, toRat c.b2, toRat c.a1, toRat c.a2⟩

end Sys2Proof.Machine
end

