-- ==== Sys2Proof/Certificates/Slice0/Obligations.lean ====
section
/-!
DEFINITION. The statements for the provers. Rule numbers are of spec/. `Answers i s st val data bands`
(Safety.lean) says that `exec i s` answers a next state with the band store `bands`, the command port
as it was and one more response; so every statement with it in its conclusion is a completion
statement with the whole frame of the command.
-/

open Sys2Proof Sys2Proof.Machine

/-! ### Encoding -/

/-- R73, the spec's own inference: the encoder writes zero in RSV and in every unused field, and
decoding and encoding are inverse to each other. -/
def Obligations.EncodingIsCanonical : Prop :=
  (∀ i : Instr, i.wf = true → decode (encode i) = .ok i) ∧
  (∀ (p : Packet) (i : Instr), decode p = .ok i → encode i = p) ∧
  (∀ i : Instr, ∃ h ops, encode i = h :: ops ∧ headerRsv h = 0 ∧
    (i.opcode.usesIdx = false → headerIdx h = 0) ∧ (i.opcode.usesFt = false → headerFt h = 0))

/-- The decoder accepts for an opcode exactly the packets of its row in opcode_table.json (R67,
R70). -/
def Obligations.DecoderMatchesOpcodeTable : Prop :=
  ∀ (p : Packet) (o : Opcode), (∃ i, decode p = .ok i ∧ i.opcode = o) ↔ o.row.accepts p

/-- R71, R201: which packets are illegal, and their answer: IllegalCommand with bits [7:0] of the
header word as received, 0 for an empty packet, and no change. -/
def Obligations.IllegalPacketsChangeNothing : Prop :=
  (∀ b : BitVec 8, Opcode.ofByte b = none ↔
    b = 0x00 ∨ b = 0x07 ∨ b = 0x0E ∨ b = 0x0F ∨ 0x12 ≤ b) ∧
  (∀ p : Packet, (∃ e, decode p = .error e) ↔ illegalPacket p) ∧
  (∀ (s : State) (p : Packet) (rest : List HostEvent),
    s.cmdPort = .packet p :: rest → illegalPacket p →
      ∃ t opc, step s = .next t ∧ t.bands = s.bands ∧ t.cmdPort = rest ∧
        t.respPort = s.respPort ++ [responsePacket opc .IllegalCommand 0 []] ∧
        (p = [] → opc = 0) ∧ (∀ h ops, p = h :: ops → opc = h.extractLsb' 0 8))

/-- R75, the spec's own inference: the worked encoding with its two responses; and words of the
other formats, written out from R61 to R67. -/
def Obligations.WordsWrittenOutDecode : Prop :=
  decode [0x0000000000060209, 0x40E7700000000000, 0x40BF400000000000, 0x3FF0000000000000,
      0xC018000000000000]
    = .ok (.eqSet 2 .highShelf ⟨0x40E7700000000000, 0x40BF400000000000, 0x3FF0000000000000,
        0xC018000000000000⟩) ∧
  (∀ s : State, 2 < s.N →
    ∃ t, exec (.eqSet 2 .highShelf ⟨0x40E7700000000000, 0x40BF400000000000, 0x3FF0000000000000,
        0xC018000000000000⟩) s = .next t ∧ t.respPort = s.respPort ++ [[0x0000000000000900]]) ∧
  (∀ s : State, s.N ≤ 2 →
    ∃ t, exec (.eqSet 2 .highShelf ⟨0x40E7700000000000, 0x40BF400000000000, 0x3FF0000000000000,
        0xC018000000000000⟩) s = .next t ∧ t.respPort = s.respPort ++ [[0x0000000000000902]]) ∧
  decode [0x0000000000000010] = .ok .rdCount ∧
  decode [0x000000000000020A] = .ok (.eqRemove 2) ∧
  decode [0x0000000000000103, 0x3FE0000000000000, 0x3FD0000000000000, 0x3FC0000000000000,
      0xBFE0000000000000, 0x3FD0000000000000]
    = .ok (.bqSetcoef 1 ⟨0x3FE0000000000000, 0x3FD0000000000000, 0x3FC0000000000000,
        0xBFE0000000000000, 0x3FD0000000000000⟩) ∧
  decode [0x0000000000000005, 0x3FF0000000000000] = .ok (.bqProc 0 0x3FF0000000000000) ∧
  decode [0x000000000000000D, 0x3FF0000000000000, 0xBFD0000000000000]
    = .ok (.eqProcb [0x3FF0000000000000, 0xBFD0000000000000])

/-! ### The step, reset and the responses -/

/-- A packet on the command port that decodes is performed by `exec`, after it is taken from the
port; with nothing on the port the block is idle, which is the model's reading of R213 (log 1). -/
def Obligations.StepRunsTheDecodedCommand : Prop :=
  (∀ (s : State) (p : Packet) (rest : List HostEvent) (i : Instr),
    s.cmdPort = .packet p :: rest → decode p = .ok i →
      step s = exec i { s with cmdPort := rest }) ∧
  (∀ (s : State) (i : Instr), i.wf = true →
    step { s with cmdPort := .packet (encode i) :: s.cmdPort } = exec i s) ∧
  (∀ s : State, s.cmdPort = [] → step s = .next s)

/-- R230: a reset pulse leaves no band and emits no response; the first packet after it is decoded
like any other. That the events not yet looked at survive the pulse (`t.cmdPort = rest`) is the
model's choice (log 3, DESIGN CHOICE), not R230's. -/
def Obligations.HardwareResetEmptiesTheChain : Prop :=
  ∀ (s : State) (rest : List HostEvent), s.cmdPort = .reset :: rest →
    ∃ t, step s = .next t ∧ t.N = 0 ∧ t.bands = [] ∧ t.respPort = s.respPort ∧ t.cmdPort = rest ∧
      ∀ p rest' i, rest = .packet p :: rest' → decode p = .ok i →
        step t = exec i { t with cmdPort := rest' }

/-- R34: `N = 0` after reset, and the empty chain is the identity. -/
def Obligations.ResetStateIsTheEmptyChain : Prop :=
  State.reset.N = 0 ∧ State.reset.countReg = 0 ∧ State.reset.bands = [] ∧
    ∀ x : Word, Answers (.eqProc x) State.reset .OK 0 [x] []

/-- R203: every packet, legal or not, in every state, is taken and answered once. -/
def Obligations.OneResponsePerPacket : Prop :=
  ∀ (s : State) (p : Packet) (rest : List HostEvent), s.cmdPort = .packet p :: rest →
    ∃ t h data, step s = .next t ∧ t.cmdPort = rest ∧ t.respPort = s.respPort ++ [h :: data]

/-- R68: the fields of a response header, the byte it echoes, and VAL, which is 0 but for the
commands that R69 gives one. -/
def Obligations.ResponseLayout : Prop :=
  (∀ (st : Status) (opc val : BitVec 8) (data : List Word), data.length ≤ MAXBLOCK →
    ∃ h, responsePacket opc st val data = h :: data ∧
      h.extractLsb' 0 4 = st.code ∧ h.extractLsb' 4 4 = 0#4 ∧ h.extractLsb' 8 8 = opc ∧
      h.extractLsb' 16 8 = val ∧ h.extractLsb' 24 8 = 0#8 ∧
      (h.extractLsb' 32 32).toNat = data.length) ∧
  Status.OK.code = 0 ∧ Status.InvalidParameter.code = 1 ∧ Status.IndexOutOfRange.code = 2 ∧
  Status.ChainFull.code = 3 ∧ Status.IllegalCommand.code = 4 ∧
  (∀ (s t : State) (p : Packet) (rest : List HostEvent), s.cmdPort = .packet p :: rest →
    step s = .next t → ∃ h data, t.respPort = s.respPort ++ [h :: data] ∧
      (p = [] → h.extractLsb' 8 8 = 0#8) ∧
      (∀ h' ops, p = h' :: ops → h.extractLsb' 8 8 = h'.extractLsb' 0 8) ∧
      (h.extractLsb' 32 32).toNat = data.length ∧
      (h.extractLsb' 16 8 ≠ 0 → decode p = .ok .bqNew ∨ decode p = .ok .rdCount ∨
        ∃ ft q, decode p = .ok (.eqAdd ft q)))

/-- The table of R69: VAL and the number of data words of every command that succeeds, and neither
where the status is not OK. (Which words they are is in the statements of the commands.) -/
def Obligations.ResponseContents : Prop :=
  ∀ (i : Instr) (s : State), ∃ val data bands, Answers i s (owedStatus i s) val data bands ∧
    if owedStatus i s = .OK then
      (val, data.length) = (match i with
        | .design _ _ => (0, 5)
        | .bqNew => (s.countReg, 0)
        | .eqAdd _ _ => (s.countReg, 0)
        | .bqSetcoef _ _ => (0, 0)
        | .bqReset _ => (0, 0)
        | .eqSet _ _ _ => (0, 0)
        | .eqRemove _ => (0, 0)
        | .eqReset => (0, 0)
        | .bqProc _ _ => (0, 1)
        | .eqProc _ => (0, 1)
        | .bqProcb _ xs => (0, xs.length)
        | .eqProcb xs => (0, xs.length)
        | .rdCount => (s.countReg, 0)
        | .rdBand _ => (0, 7))
    else val = 0 ∧ data = []

/-- The invariant holds after reset: `N` is in its range, and no response is ill formed. -/
def Obligations.ResetMeetsInvariant : Prop := State.reset.Inv

/-- Every step keeps the invariant: `0 <= N <= MAXBANDS` (R24), and every response that has left the
block has reserved bits zero, a status of R200, CNT the number of its data words, and neither VAL
nor data unless its status is OK (R68, R69). -/
def Obligations.StepKeepsInvariant : Prop :=
  ∀ s t : State, s.Inv → step s = .next t → t.Inv

/-- R204: a response whose status is not OK carries no data words, and the band store and `N` are as
before. -/
def Obligations.AnErrorChangesNothing : Prop :=
  ∀ (s : State) (p : Packet) (rest : List HostEvent), s.cmdPort = .packet p :: rest →
    ∃ t h data, step s = .next t ∧ t.respPort = s.respPort ++ [h :: data] ∧
      (respStatus h ≠ 0 → t.bands = s.bands ∧ t.N = s.N ∧ data = [])

/-- R202: the status of a response is given by the first test that fails: decoding, then the design
parameters, then the check against `N`; and no command meets both IndexOutOfRange and ChainFull. -/
def Obligations.StatusPriority : Prop :=
  (∀ (s : State) (p : Packet) (rest : List HostEvent), s.cmdPort = .packet p :: rest →
    ∃ t h data, step s = .next t ∧ t.respPort = s.respPort ++ [h :: data] ∧
      respStatus h = match decode p with
        | .error _ => Status.IllegalCommand.code
        | .ok i => (owedStatus i s).code) ∧
  (∀ i : Instr, ¬ ((index? i).isSome = true ∧ appends i = true))

/-- R207: whatever the samples, coefficients and registers, the chain commands answer OK and the
biquad commands OK or, for a band that does not exist, IndexOutOfRange. -/
def Obligations.ProcessingNeverFails : Prop :=
  ∀ (s : State) (idx : BitVec 8) (x : Word) (xs : List Word),
    (∃ data bands, Answers (.eqProc x) s .OK 0 data bands) ∧
    (∃ data bands, Answers (.eqProcb xs) s .OK 0 data bands) ∧
    (idx.toNat < s.N → (∃ data bands, Answers (.bqProc idx x) s .OK 0 data bands) ∧
      ∃ data bands, Answers (.bqProcb idx xs) s .OK 0 data bands) ∧
    (s.N ≤ idx.toNat → (∃ data bands, Answers (.bqProc idx x) s .IndexOutOfRange 0 data bands) ∧
      ∃ data bands, Answers (.bqProcb idx xs) s .IndexOutOfRange 0 data bands)

/-- The written and moved columns of R35, the spec's own inference: what each command leaves as it
was. -/
def Obligations.CommandFrames : Prop :=
  ∀ (i : Instr) (s : State), ∃ t, exec i s = .next t ∧ t.cmdPort = s.cmdPort ∧
    (∃ r, t.respPort = s.respPort ++ [r]) ∧
    match i with
    | .design _ _ => t.bands = s.bands
    | .rdCount => t.bands = s.bands
    | .rdBand _ => t.bands = s.bands
    | .bqNew => t.bands = s.bands ∨ ∃ b, t.bands = s.bands ++ [b]
    | .eqAdd _ _ => t.bands = s.bands ∨ ∃ b, t.bands = s.bands ++ [b]
    | .bqSetcoef idx _ => t.bands.map Band.dly = s.bands.map Band.dly ∧
        ∀ j, j ≠ idx.toNat → t.bands[j]? = s.bands[j]?
    | .eqSet idx _ _ => t.bands.map Band.dly = s.bands.map Band.dly ∧
        ∀ j, j ≠ idx.toNat → t.bands[j]? = s.bands[j]?
    | .bqReset idx => t.bands.map Band.coef = s.bands.map Band.coef ∧
        ∀ j, j ≠ idx.toNat → t.bands[j]? = s.bands[j]?
    | .bqProc idx _ => t.bands.map Band.coef = s.bands.map Band.coef ∧
        ∀ j, j ≠ idx.toNat → t.bands[j]? = s.bands[j]?
    | .bqProcb idx _ => t.bands.map Band.coef = s.bands.map Band.coef ∧
        ∀ j, j ≠ idx.toNat → t.bands[j]? = s.bands[j]?
    | .eqRemove idx => ∀ j, j < idx.toNat → t.bands[j]? = s.bands[j]?
    | .eqReset => t.bands.map Band.coef = s.bands.map Band.coef
    | .eqProc _ => t.bands.map Band.coef = s.bands.map Band.coef
    | .eqProcb _ => t.bands.map Band.coef = s.bands.map Band.coef

/-- The writes of `N` (R24): a successful EQ_ADD or BQ_NEW adds one, a successful EQ_REMOVE takes
one away, hardware reset writes 0, an illegal packet and every other command leave it; and while `N
<= MAXBANDS` the 8-bit register holds it exactly. -/
def Obligations.BandCountWrites : Prop :=
  (∀ (i : Instr) (s : State), ∃ t, exec i s = .next t ∧
    t.N = if owedStatus i s = .OK then
        (match i with
          | .bqNew => s.N + 1
          | .eqAdd _ _ => s.N + 1
          | .eqRemove _ => s.N - 1
          | _ => s.N)
      else s.N) ∧
  (∀ (s : State) (rest : List HostEvent), s.cmdPort = .reset :: rest →
    ∃ t, step s = .next t ∧ t.N = 0) ∧
  (∀ (s : State) (p : Packet) (rest : List HostEvent) (e : DecodeError),
    s.cmdPort = .packet p :: rest → decode p = .error e → ∃ t, step s = .next t ∧ t.N = s.N) ∧
  (∀ s : State, s.N ≤ Config.MAXBANDS → s.countReg.toNat = s.N)

/-! ### The commands on one band (42_biquad) -/

/-- R156. -/
def Obligations.BqNewAppendsPassThrough : Prop :=
  ∀ s : State,
    (s.N < Config.MAXBANDS →
      Answers .bqNew s .OK (BitVec.ofNat 8 s.N) []
        (s.bands ++ [⟨⟨0x3FF0000000000000, 0, 0, 0, 0⟩, ⟨0, 0⟩⟩])) ∧
    (s.N = Config.MAXBANDS → Answers .bqNew s .ChainFull 0 [] s.bands)

/-- R157: the five words as received, the delay registers kept. -/
def Obligations.BqSetcoefReplacesCoefficients : Prop :=
  ∀ (s : State) (idx : BitVec 8) (c : Coeffs),
    (∀ b, s.bands[idx.toNat]? = some b →
      Answers (.bqSetcoef idx c) s .OK 0 [] (s.bands.set idx.toNat ⟨c, b.dly⟩)) ∧
    (s.N ≤ idx.toNat → Answers (.bqSetcoef idx c) s .IndexOutOfRange 0 [] s.bands)

/-- R158. -/
def Obligations.BqResetClearsRegisters : Prop :=
  ∀ (s : State) (idx : BitVec 8),
    (∀ b, s.bands[idx.toNat]? = some b →
      Answers (.bqReset idx) s .OK 0 [] (s.bands.set idx.toNat ⟨b.coef, ⟨0, 0⟩⟩)) ∧
    (s.N ≤ idx.toNat → Answers (.bqReset idx) s .IndexOutOfRange 0 [] s.bands)

/-- R159 with the step of R152. -/
def Obligations.BqProcRunsOneStep : Prop :=
  ∀ (s : State) (idx : BitVec 8) (x n : Word), isNaN n = true →
    (∀ b, s.bands[idx.toNat]? = some b →
      ∃ y d, StepOf n b.coef b.dly x y d ∧
        Answers (.bqProc idx x) s .OK 0 [y] (s.bands.set idx.toNat ⟨b.coef, d⟩)) ∧
    (s.N ≤ idx.toNat → Answers (.bqProc idx x) s .IndexOutOfRange 0 [] s.bands)

/-- R160 with the block function of R154. -/
def Obligations.BqProcbRunsTheBlock : Prop :=
  ∀ (s : State) (idx : BitVec 8) (xs : List Word) (n : Word), isNaN n = true →
    (∀ b, s.bands[idx.toNat]? = some b →
      ∃ ys d, BlockOf n b.coef b.dly xs ys d ∧ ys.length = xs.length ∧
        Answers (.bqProcb idx xs) s .OK 0 ys (s.bands.set idx.toNat ⟨b.coef, d⟩)) ∧
    (s.N ≤ idx.toNat → Answers (.bqProcb idx xs) s .IndexOutOfRange 0 [] s.bands)

/-! ### The designer and the configuration commands (41_design, 43_equalizer) -/

/-- R121: which parameters are valid, in numbers. -/
def Obligations.DesignValidation : Prop :=
  ∀ (num : Numerics) (shape : FilterType → ShapeKind) (q : Nat → Word) (n : Word) (ft : FilterType)
    (p : DesignParams),
    (design num shape q ft p).isSome = true ↔
      (isFinite p.fs = true ∧ 0 < toRat p.fs) ∧
      (isFinite p.f = true ∧ 0 < toRat p.f ∧ toRat p.f < toRat (fdiv n p.fs two)) ∧
      (isFinite p.sh = true ∧ 0 < toRat p.sh) ∧
      ((ft = .peaking ∨ ft = .lowShelf ∨ ft = .highShelf) → isFinite p.g = true)

/-- R142: the gain of a type that does not use it has no effect. -/
def Obligations.UnusedGainHasNoEffect : Prop :=
  ∀ (num : Numerics) (shape : FilterType → ShapeKind) (q : Nat → Word) (ft : FilterType)
    (fs f sh g g' : Word),
    (ft = .lowPass ∨ ft = .highPass ∨ ft = .bandPass ∨ ft = .notch ∨ ft = .allPass) →
      design num shape q ft ⟨fs, f, sh, g⟩ = design num shape q ft ⟨fs, f, sh, g'⟩

/-- The expression trees of LowPass, HighPass, BandPass, Notch and AllPass: R122, R126, R129 to
R133, R137. `n` is any NaN word. -/
def Obligations.DesignTreesFromQ : Prop :=
  ∀ (num : Numerics) (q : Nat → Word) (n fs f sh g : Word), AllNaN q → isNaN n = true →
    let w := fdiv n (fmul n TWO_PI f) fs
    let sn := fsin num w
    let cs := fcos num w
    let al := fdiv n sn (fmul n two sh)
    let ua0 := fadd n one al
    let a1 := fdiv n (fmul n minusTwo cs) ua0
    let a2 := fdiv n (fsub n one al) ua0
    (∀ c, design num Config.SHAPE q .lowPass ⟨fs, f, sh, g⟩ = some c →
      SameCoeffs c ⟨fdiv n (fdiv n (fsub n one cs) two) ua0, fdiv n (fsub n one cs) ua0,
        fdiv n (fdiv n (fsub n one cs) two) ua0, a1, a2⟩) ∧
    (∀ c, design num Config.SHAPE q .highPass ⟨fs, f, sh, g⟩ = some c →
      SameCoeffs c ⟨fdiv n (fdiv n (fadd n one cs) two) ua0, fdiv n (fneg (fadd n one cs)) ua0,
        fdiv n (fdiv n (fadd n one cs) two) ua0, a1, a2⟩) ∧
    (∀ c, design num Config.SHAPE q .bandPass ⟨fs, f, sh, g⟩ = some c →
      SameCoeffs c ⟨fdiv n al ua0, fdiv n posZero ua0, fdiv n (fneg al) ua0, a1, a2⟩) ∧
    (∀ c, design num Config.SHAPE q .notch ⟨fs, f, sh, g⟩ = some c →
      SameCoeffs c ⟨fdiv n one ua0, a1, fdiv n one ua0, a1, a2⟩) ∧
    (∀ c, design num Config.SHAPE q .allPass ⟨fs, f, sh, g⟩ = some c →
      SameCoeffs c ⟨a2, a1, fdiv n (fadd n one al) ua0, a1, a2⟩)

/-- The expression trees of Peaking, LowShelf and HighShelf: R122, R123, R126, R128, R134 to R137.
-/
def Obligations.DesignTreesWithGain : Prop :=
  ∀ (num : Numerics) (q : Nat → Word) (n fs f sh g : Word), AllNaN q → isNaN n = true →
    let w := fdiv n (fmul n TWO_PI f) fs
    let sn := fsin num w
    let cs := fcos num w
    let A := fpow10 num (fdiv n g forty)
    let alQ := fdiv n sn (fmul n two sh)
    let alS := fmul n (fdiv n sn two)
      (fsqrt n (fadd n (fmul n (fadd n A (fdiv n one A)) (fsub n (fdiv n one sh) one)) two))
    let ap := fadd n A one
    let am := fsub n A one
    let r := fmul n (fmul n two (fsqrt n A)) alS
    let apc := fmul n ap cs
    let amc := fmul n am cs
    let u0 := fadd n one (fdiv n alQ A)
    let l0 := fadd n (fadd n ap amc) r
    let h0 := fadd n (fsub n ap amc) r
    (∀ c, design num Config.SHAPE q .peaking ⟨fs, f, sh, g⟩ = some c →
      SameCoeffs c ⟨fdiv n (fadd n one (fmul n alQ A)) u0, fdiv n (fmul n minusTwo cs) u0,
        fdiv n (fsub n one (fmul n alQ A)) u0, fdiv n (fmul n minusTwo cs) u0,
        fdiv n (fsub n one (fdiv n alQ A)) u0⟩) ∧
    (∀ c, design num Config.SHAPE q .lowShelf ⟨fs, f, sh, g⟩ = some c →
      SameCoeffs c ⟨fdiv n (fmul n A (fadd n (fsub n ap amc) r)) l0,
        fdiv n (fmul n (fmul n two A) (fsub n am apc)) l0,
        fdiv n (fmul n A (fsub n (fsub n ap amc) r)) l0,
        fdiv n (fmul n minusTwo (fadd n am apc)) l0,
        fdiv n (fsub n (fadd n ap amc) r) l0⟩) ∧
    (∀ c, design num Config.SHAPE q .highShelf ⟨fs, f, sh, g⟩ = some c →
      SameCoeffs c ⟨fdiv n (fmul n A (fadd n (fadd n ap amc) r)) h0,
        fdiv n (fmul n (fmul n minusTwo A) (fadd n am apc)) h0,
        fdiv n (fmul n A (fsub n (fadd n ap amc) r)) h0,
        fdiv n (fmul n two (fsub n am apc)) h0,
        fdiv n (fsub n (fsub n ap amc) r) h0⟩)

/-- R140. `design` with any NaN words stands for the rule's `design`: R104 leaves them open. -/
def Obligations.DesignAnswersTheCoefficients : Prop :=
  ∀ (s : State) (ft : FilterType) (p : DesignParams) (q : Nat → Word), AllNaN q →
    (design Config.numerics Config.SHAPE q ft p = none →
      Answers (.design ft p) s .InvalidParameter 0 [] s.bands) ∧
    (∀ c, design Config.numerics Config.SHAPE q ft p = some c →
      ∃ c', SameCoeffs c' c ∧
        Answers (.design ft p) s .OK 0 [c'.b0, c'.b1, c'.b2, c'.a1, c'.a2] s.bands)

/-- R172. -/
def Obligations.EqAddAppendsTheDesign : Prop :=
  ∀ (s : State) (ft : FilterType) (p : DesignParams) (q : Nat → Word), AllNaN q →
    (design Config.numerics Config.SHAPE q ft p = none →
      Answers (.eqAdd ft p) s .InvalidParameter 0 [] s.bands) ∧
    (∀ c, design Config.numerics Config.SHAPE q ft p = some c →
      (s.N = Config.MAXBANDS → Answers (.eqAdd ft p) s .ChainFull 0 [] s.bands) ∧
      (s.N < Config.MAXBANDS → ∃ c', SameCoeffs c' c ∧
        Answers (.eqAdd ft p) s .OK (BitVec.ofNat 8 s.N) [] (s.bands ++ [⟨c', ⟨0, 0⟩⟩])))

/-- R173: the delay registers are kept. -/
def Obligations.EqSetReplacesTheDesign : Prop :=
  ∀ (s : State) (idx : BitVec 8) (ft : FilterType) (p : DesignParams) (q : Nat → Word), AllNaN q →
    (design Config.numerics Config.SHAPE q ft p = none →
      Answers (.eqSet idx ft p) s .InvalidParameter 0 [] s.bands) ∧
    (∀ c, design Config.numerics Config.SHAPE q ft p = some c →
      (s.N ≤ idx.toNat → Answers (.eqSet idx ft p) s .IndexOutOfRange 0 [] s.bands) ∧
      (∀ b, s.bands[idx.toNat]? = some b → ∃ c', SameCoeffs c' c ∧
        Answers (.eqSet idx ft p) s .OK 0 [] (s.bands.set idx.toNat ⟨c', b.dly⟩)))

/-- R141: there is one `design` function. In one state the three commands compute the same five
words, bit for bit, and in any two states the same words up to NaN payloads. -/
def Obligations.OneDesignFunction : Prop :=
  ∀ (ft : FilterType) (p : DesignParams), validParams posZero ft p = true → ∀ s s' : State,
    ∃ c c', SameCoeffs c c' ∧
      Answers (.design ft p) s .OK 0 c.words s.bands ∧
      Answers (.design ft p) s' .OK 0 c'.words s'.bands ∧
      (s.N < Config.MAXBANDS → Answers (.eqAdd ft p) s .OK (BitVec.ofNat 8 s.N) []
        (s.bands ++ [⟨c, ⟨0, 0⟩⟩])) ∧
      (∀ (idx : BitVec 8) (b : Band), s.bands[idx.toNat]? = some b →
        Answers (.eqSet idx ft p) s .OK 0 [] (s.bands.set idx.toNat ⟨c, b.dly⟩))

/-- R174: the slots below `IDX` stay, every later band moves down by one with all its fields. -/
def Obligations.EqRemoveShiftsDown : Prop :=
  ∀ (s : State) (idx : BitVec 8),
    (idx.toNat < s.N → ∃ bs, Answers (.eqRemove idx) s .OK 0 [] bs ∧ bs.length = s.N - 1 ∧
      (∀ j, j < idx.toNat → bs[j]? = s.bands[j]?) ∧
      (∀ j, idx.toNat ≤ j → bs[j]? = s.bands[j + 1]?)) ∧
    (s.N ≤ idx.toNat → Answers (.eqRemove idx) s .IndexOutOfRange 0 [] s.bands)

/-- R175. -/
def Obligations.EqResetClearsAllRegisters : Prop :=
  ∀ s : State, Answers .eqReset s .OK 0 [] (s.bands.map fun b => ⟨b.coef, ⟨0, 0⟩⟩)

/-! ### The chain and read-back -/

/-- R176 with the walk of R171. -/
def Obligations.EqProcWalksTheChain : Prop :=
  ∀ (s : State) (x n : Word), isNaN n = true →
    ∃ y bs, WalkOf n s.bands x y bs ∧ Answers (.eqProc x) s .OK 0 [y] bs

/-- R178: sample by sample, each through the whole chain. -/
def Obligations.EqProcbRunsTheSamples : Prop :=
  ∀ (s : State) (xs : List Word) (n : Word), isNaN n = true →
    ∃ ys bs, ChainOf n s.bands xs ys bs ∧ ys.length = xs.length ∧
      (s.bands = [] → ys = xs) ∧ Answers (.eqProcb xs) s .OK 0 ys bs

/-- R190. -/
def Obligations.RdCountAnswersN : Prop :=
  ∀ s : State, Answers .rdCount s .OK (BitVec.ofNat 8 s.N) [] s.bands

/-- R191: the seven words in the field order of R20, exactly as stored. -/
def Obligations.RdBandAnswersTheBand : Prop :=
  ∀ (s : State) (idx : BitVec 8),
    (∀ b, s.bands[idx.toNat]? = some b →
      Answers (.rdBand idx) s .OK 0
        [b.coef.b0, b.coef.b1, b.coef.b2, b.coef.a1, b.coef.a2, b.dly.s1, b.dly.s2] s.bands) ∧
    (s.N ≤ idx.toNat → Answers (.rdBand idx) s .IndexOutOfRange 0 [] s.bands)

/-! ### Arithmetic (40_numerics) -/

/-- R91: a finite result that is not an exact zero is the exact real result of the operands rounded
once, to nearest with ties to even; for products and quotients of non-zero numbers and for roots of
positive ones the exact result is never zero. -/
def Obligations.OperationsRoundToNearestEven : Prop :=
  ∀ n a b : Word, isFinite a = true → isFinite b = true →
    ((toRat a : ℝ) + toRat b ≠ 0 → RoundsNearestEven ((toRat a : ℝ) + toRat b) (fadd n a b)) ∧
    ((toRat a : ℝ) - toRat b ≠ 0 → RoundsNearestEven ((toRat a : ℝ) - toRat b) (fsub n a b)) ∧
    (isZero a = false → isZero b = false →
      RoundsNearestEven ((toRat a : ℝ) * toRat b) (fmul n a b)) ∧
    (isZero a = false → isZero b = false →
      RoundsNearestEven ((toRat a : ℝ) / toRat b) (fdiv n a b)) ∧
    (0 < toRat a → RoundsNearestEven (Real.sqrt (toRat a : ℝ)) (fsqrt n a))

/-- R92 and R93: the cases they name, an infinity and itself, and every other sum rounded once: a
finite sum too large becomes the infinity of its sign, and a small one a subnormal or a zero. -/
def Obligations.SumsAndDifferencesSpecialCases : Prop :=
  ∀ n a b : Word, isNaN n = true →
    (isNaN a = true ∨ isNaN b = true → isNaN (fadd n a b) = true ∧ isNaN (fsub n a b) = true) ∧
    isNaN (fadd n posInf negInf) = true ∧ isNaN (fadd n negInf posInf) = true ∧
    (isInf a = true → isFinite b = true → fadd n a b = a ∧ fadd n b a = a) ∧
    (isInf a = true → fadd n a a = a ∧ isNaN (fsub n a a) = true ∧ fsub n a (fneg a) = a) ∧
    fadd n posZero posZero = posZero ∧ fadd n negZero negZero = negZero ∧
    fadd n posZero negZero = posZero ∧ fadd n negZero posZero = posZero ∧
    (isFinite a = true → isZero a = false → fadd n a (fneg a) = posZero) ∧
    (isNaN a = false → isZero a = false → isZero b = true → fadd n a b = a ∧ fadd n b a = a) ∧
    (isFinite a = true → isFinite b = true → (toRat a : ℝ) + toRat b ≠ 0 →
      RoundsNearestEven ((toRat a : ℝ) + toRat b) (fadd n a b)) ∧
    (isNaN a = false → isNaN b = false → fsub n a b = fadd n a (fneg b)) ∧
    (isFinite a = true → fsub n a a = posZero) ∧
    fsub n negZero posZero = negZero ∧ fsub n posZero negZero = posZero ∧
    isNaN (fsub n posInf posInf) = true

/-- The cases of R94, R95 and R96: which word each special product, quotient and root is. The sign
is the exclusive-or of the operand signs, zeros and infinities included. A product by 2 or -2 is
exact while the exact product is at most the largest finite number, a quotient by 2 while the
dividend is at least twice the least normal number (log 14). -/
def Obligations.ProductsQuotientsRootsSpecialCases : Prop :=
  ∀ n a b : Word, isNaN n = true →
    (isNaN a = true ∨ isNaN b = true → isNaN (fmul n a b) = true ∧ isNaN (fdiv n a b) = true) ∧
    (isNaN (fmul n a b) = false → signBit (fmul n a b) = (signBit a != signBit b)) ∧
    (isNaN (fdiv n a b) = false → signBit (fdiv n a b) = (signBit a != signBit b)) ∧
    (isZero a = true → isInf b = true → isNaN (fmul n a b) = true ∧ isNaN (fmul n b a) = true) ∧
    (isInf a = true → isNaN b = false → isZero b = false →
      fmul n a b = signedInf (signBit a != signBit b) ∧
        fmul n b a = signedInf (signBit a != signBit b)) ∧
    (isZero a = true → isFinite b = true →
      fmul n a b = signedZero (signBit a != signBit b) ∧
        fmul n b a = signedZero (signBit a != signBit b)) ∧
    fmul n negZero 0x4014000000000000 = negZero ∧ fmul n 0xC008000000000000 posZero = negZero ∧
    (isNaN a = false → fmul n one a = a ∧ fmul n a one = a) ∧
    (isFinite a = true → |2 * toRat a| ≤ maxFinite →
      toRat (fmul n two a) = 2 * toRat a ∧ toRat (fmul n minusTwo a) = -2 * toRat a) ∧
    (isNaN a = false → isZero a = false → isZero b = true →
      fdiv n a b = signedInf (signBit a != signBit b)) ∧
    (isInf a = true → isFinite b = true → fdiv n a b = signedInf (signBit a != signBit b)) ∧
    (isZero a = true → isNaN b = false → isZero b = false →
      fdiv n a b = signedZero (signBit a != signBit b)) ∧
    (isZero a = true → isZero b = true → isNaN (fdiv n a b) = true) ∧
    (isInf a = true → isInf b = true → isNaN (fdiv n a b) = true) ∧
    (isFinite a = true → isZero a = false → fdiv n a a = one) ∧
    (isFinite a = true → 2 ≤ expField a → toRat (fdiv n a two) = toRat a / 2) ∧
    (isFinite a = true → isInf b = true → fdiv n a b = signedZero (signBit a != signBit b)) ∧
    fsqrt n posZero = posZero ∧ fsqrt n negZero = negZero ∧ fsqrt n posInf = posInf ∧
    (signBit a = true → isZero a = false → isNaN (fsqrt n a) = true) ∧
    (isNaN a = true → isNaN (fsqrt n a) = true) ∧ fsqrt n one = one

/-- R97: the comparisons are those of the numbers, an infinity beyond every number, a NaN on neither
side; `fneg` inverts bit 63 and nothing else. -/
def Obligations.ComparisonsAreNumeric : Prop :=
  (∀ a b : Word, isNaN a = true ∨ isNaN b = true → flt a b = false ∧ feq a b = false) ∧
  (∀ a b : Word, isFinite a = true → isFinite b = true →
    (flt a b = true ↔ toRat a < toRat b) ∧ (feq a b = true ↔ toRat a = toRat b)) ∧
  (∀ a : Word, isFinite a = true →
    flt negInf a = true ∧ flt a posInf = true ∧ flt a negInf = false ∧ flt posInf a = false ∧
      feq a posInf = false ∧ feq posInf a = false ∧ feq a negInf = false ∧ feq negInf a = false) ∧
  flt negInf posInf = true ∧ flt posInf negInf = false ∧ flt posInf posInf = false ∧
  flt negInf negInf = false ∧ feq posInf posInf = true ∧ feq negInf negInf = true ∧
  feq posInf negInf = false ∧ feq negInf posInf = false ∧
  feq posZero negZero = true ∧ flt posZero negZero = false ∧ flt negZero posZero = false ∧
  (∀ a : Word, isFinite a = true ↔ a.extractLsb' 52 11 ≠ 2047#11) ∧
  (∀ (a : Word) (i : Nat), i < 64 →
    (fneg a).getLsbD i = if i = 63 then !a.getLsbD 63 else a.getLsbD i)

/-- R104: an operation answers a NaN exactly for a NaN operand or an invalid operation, signalling
NaNs no differently from quiet ones; the NaN words of the machine are quiet, and so are the NaNs of
the elementary functions. That an operation answers the very NaN word handed to it, and that the sine
and cosine of an infinity are quiet, is the model's choice (log 4, DESIGN CHOICE): R98 (b) and R99 (b)
say only that they are NaNs. -/
def Obligations.NaNResults : Prop :=
  (∀ (s : State) (i : Nat), isQuietNaN (s.draws i) = true) ∧
  (∀ (num : Numerics) (w : Word),
    (isNaN w = true ∨ isInf w = true →
      isQuietNaN (fsin num w) = true ∧ isQuietNaN (fcos num w) = true) ∧
    (isNaN w = true → isQuietNaN (fpow10 num w) = true ∧ isQuietNaN (fsinh num w) = true)) ∧
  ∀ n a b : Word, isNaN n = true →
    (isNaN (fadd n a b) = true ↔ isNaN a = true ∨ isNaN b = true ∨
      (isInf a = true ∧ isInf b = true ∧ signBit a ≠ signBit b)) ∧
    (isNaN (fsub n a b) = true ↔ isNaN a = true ∨ isNaN b = true ∨
      (isInf a = true ∧ isInf b = true ∧ signBit a = signBit b)) ∧
    (isNaN (fmul n a b) = true ↔ isNaN a = true ∨ isNaN b = true ∨
      (isInf a = true ∧ isZero b = true) ∨ (isZero a = true ∧ isInf b = true)) ∧
    (isNaN (fdiv n a b) = true ↔ isNaN a = true ∨ isNaN b = true ∨
      (isInf a = true ∧ isInf b = true) ∨ (isZero a = true ∧ isZero b = true)) ∧
    (isNaN (fsqrt n a) = true ↔ isNaN a = true ∨ (signBit a = true ∧ isZero a = false)) ∧
    (isNaN (fadd n a b) = true → fadd n a b = n) ∧ (isNaN (fsub n a b) = true → fsub n a b = n) ∧
    (isNaN (fmul n a b) = true → fmul n a b = n) ∧ (isNaN (fdiv n a b) = true → fdiv n a b = n) ∧
    (isNaN (fsqrt n a) = true → fsqrt n a = n)

/-- The elementary functions (R98 to R101). The special values hold for every record Numerics, and
the machine's own record rounds faithfully: hence the ranges, the overflow to an infinity, and exact
values where the exact result is an F64. That a power of ten underflows to `+0` is R100 (e)'s; that it
does so from half the least positive number down is DEDUCED (log 6). That the sine is above zero between 0 and pi is a property
of its own (log 6, DEDUCED): R98 (c) marks it as its own inference, and faithful rounding alone does
not give it. -/
def Obligations.ElementaryFunctions : Prop :=
  (∀ (num : Numerics) (w : Word),
    (isNaN w = true ∨ isInf w = true → isNaN (fsin num w) = true ∧ isNaN (fcos num w) = true) ∧
    (isNaN w = true → isNaN (fpow10 num w) = true ∧ isNaN (fsinh num w) = true) ∧
    fsin num posZero = posZero ∧ fcos num posZero = one ∧
    fpow10 num posZero = one ∧ fpow10 num negZero = one ∧
    fpow10 num posInf = posInf ∧ fpow10 num negInf = posZero ∧
    (isZero w = true ∨ isInf w = true → fsinh num w = w) ∧
    (isNaN w = false → signBit (fpow10 num w) = false)) ∧
  (∀ w : Word, isFinite w = true →
    Faithful (Real.sin (toRat w : ℝ)) (fsin Config.numerics w) ∧
    Faithful (Real.cos (toRat w : ℝ)) (fcos Config.numerics w) ∧
    Faithful ((10 : ℝ) ^ (toRat w : ℝ)) (fpow10 Config.numerics w) ∧
    Faithful (Real.sinh (toRat w : ℝ)) (fsinh Config.numerics w) ∧
    (isZero w = true → isZero (fsin Config.numerics w) = true) ∧
    (0 < toRat w → (toRat w : ℝ) < Real.pi →
      isFinite (fsin Config.numerics w) = true ∧ 0 < toRat (fsin Config.numerics w) ∧
        toRat (fsin Config.numerics w) ≤ 1) ∧
    isFinite (fcos Config.numerics w) = true ∧ -1 ≤ toRat (fcos Config.numerics w) ∧
    toRat (fcos Config.numerics w) ≤ 1 ∧
    ((2 : ℝ) ^ 1024 ≤ (10 : ℝ) ^ (toRat w : ℝ) → fpow10 Config.numerics w = posInf) ∧
    ((10 : ℝ) ^ (toRat w : ℝ) < (underflowBound : ℝ) → fpow10 Config.numerics w = posZero) ∧
    ((2 : ℝ) ^ 1024 ≤ |Real.sinh (toRat w : ℝ)| →
      fsinh Config.numerics w = signedInf (signBit w)) ∧
    (∀ v : Word, isFinite v = true → (toRat v : ℝ) = (10 : ℝ) ^ (toRat w : ℝ) →
      fpow10 Config.numerics w = v))

/-! ### Properties of processing -/

/-- R161, the spec's own inference: a block on one band is its samples one by one. It is equal bit
for bit, also where a word is a NaN: R104 and R242 leave that open, and here it rests on how the
model's counter of NaN words runs, 9 to a step (log 4, DESIGN CHOICE). -/
def Obligations.BqBlockEqualsSingleSamples : Prop :=
  ∀ (s : State) (idx : BitVec 8) (xs : List Word), idx.toNat < s.N →
    ∃ ys bs t, Answers (.bqProcb idx xs) s .OK 0 ys bs ∧
      execAll (xs.map (Instr.bqProc idx)) s = .next t ∧ t.bands = bs ∧
      t.respPort = s.respPort ++ ys.map fun y => responsePacket 0x05 .OK 0 [y]

/-- R179, the spec's own inference: a block through the chain is its samples one by one, and a block
may be split anywhere. It is equal bit for bit, also where a word is a NaN: that does not follow from
R176, R178 and R104 (see R242) and rests on how the model's counter of NaN words runs (log 4, DESIGN
CHOICE). -/
def Obligations.EqBlockEqualsSingleSamples : Prop :=
  ∀ s : State,
    (∀ xs : List Word, ∃ ys bs t, Answers (.eqProcb xs) s .OK 0 ys bs ∧
      execAll (xs.map Instr.eqProc) s = .next t ∧ t.bands = bs ∧
      t.respPort = s.respPort ++ ys.map fun y => responsePacket 0x0C .OK 0 [y]) ∧
    (∀ xs xs' : List Word, ∃ ys ys' bs t, Answers (.eqProcb (xs ++ xs')) s .OK 0 (ys ++ ys') bs ∧
      execAll [.eqProcb xs, .eqProcb xs'] s = .next t ∧ t.bands = bs ∧
      t.respPort = s.respPort ++
        [responsePacket 0x0D .OK 0 ys, responsePacket 0x0D .OK 0 ys'])

/-- R180, the spec's own inference: running band 0 over the whole block, then band 1 over its
outputs, and so on, gives the outputs and the end state of EQ_PROCB, up to NaN payloads. -/
def Obligations.BandMajorEqualsSampleMajor : Prop :=
  ∀ (s : State) (xs : List Word) (q : Nat → Nat → Word), (∀ k, AllNaN (q k)) →
    ∃ ys bs, Answers (.eqProcb xs) s .OK 0 ys bs ∧
      List.Forall₂ SameF64 ys (bandMajor q s.bands xs).1 ∧
      List.Forall₂ SameBand bs (bandMajor q s.bands xs).2

/-- R181, the spec's own inference: with `N >= 1`, EQ_PROC is BQ_PROC on band 0, 1, ... N-1, each
fed with the output of the one before. It is equal bit for bit, also where a word is a NaN, which
R104 and R242 leave open: that rests on the model's counter, which gives EQ_PROC and BQ_PROC the same
NaN words (log 4, DESIGN CHOICE). -/
def Obligations.EqProcEqualsBqProcs : Prop :=
  ∀ (s : State) (x : Word), 1 ≤ s.N → s.N ≤ Config.MAXBANDS →
    ∃ ys y bs t, ys.length = s.N ∧ ys.getLast? = some y ∧
      Answers (.eqProc x) s .OK 0 [y] bs ∧
      execAll (List.zipWith (fun k v => Instr.bqProc (BitVec.ofNat 8 k) v)
        (List.range s.N) (x :: ys)) s = .next t ∧
      t.bands = bs ∧
      t.respPort = s.respPort ++ ys.map fun v => responsePacket 0x05 .OK 0 [v]

/-- R50, the spec's own inference: data word `n` of a block command depends on the state and on the
samples `0 .. n` alone. The two runs' words are equal bit for bit, also where they are NaNs, which
R104 and R242 leave open: that rests on the model's counter of NaN words (log 4, DESIGN CHOICE). -/
def Obligations.BlockOutputsAreStreamed : Prop :=
  ∀ (s : State) (idx : BitVec 8) (xs xs' : List Word) (n : Nat), n < xs.length → n < xs'.length →
    xs.take (n + 1) = xs'.take (n + 1) →
    (∃ ys ys' bs bs', Answers (.eqProcb xs) s .OK 0 ys bs ∧ Answers (.eqProcb xs') s .OK 0 ys' bs' ∧
      ys[n]?.isSome = true ∧ ys[n]? = ys'[n]?) ∧
    (idx.toNat < s.N →
      ∃ ys ys' bs bs', Answers (.bqProcb idx xs) s .OK 0 ys bs ∧
        Answers (.bqProcb idx xs') s .OK 0 ys' bs' ∧ ys[n]?.isSome = true ∧ ys[n]? = ys'[n]?)

/-- R107: from states that are equal but for NaN payloads, whatever NaN words have been passed, a
step gives states and responses that are equal but for NaN payloads. -/
def Obligations.StepIgnoresNaNPayloads : Prop :=
  ∀ s s' : State, SameState s s' →
    ∃ t t', step s = .next t ∧ step s' = .next t' ∧ SameState t t'

/-- R162, the spec's own inference: finite coefficients, zero registers and zero samples give zero
outputs and zero registers. -/
def Obligations.ZeroInZeroOutOneBand : Prop :=
  ∀ (s : State) (idx : BitVec 8) (b : Band) (xs : List Word), s.bands[idx.toNat]? = some b →
    coeffsFinite b.coef = true → b.dly.zeros = true → (∀ x ∈ xs, isZero x = true) →
    ∃ ys d, Answers (.bqProcb idx xs) s .OK 0 ys (s.bands.set idx.toNat ⟨b.coef, d⟩) ∧
      (∀ y ∈ ys, feq y posZero = true) ∧ d.zeros = true

/-- R184, the spec's own inference: the same for the chain after EQ_RESET. -/
def Obligations.ZeroInZeroOutChain : Prop :=
  ∀ (s : State) (xs : List Word), (∀ b ∈ s.bands, coeffsFinite b.coef = true) →
    (∀ x ∈ xs, isZero x = true) →
    ∃ t ys bs, exec .eqReset s = .next t ∧ Answers (.eqProcb xs) t .OK 0 ys bs ∧
      ys.length = xs.length ∧ (∀ y ∈ ys, feq y posZero = true) ∧ ∀ b ∈ bs, b.dly.zeros = true

/-- R163, the spec's own inference: the first sample of the impulse response is `b0`. -/
def Obligations.ImpulseResponseStartsWithB0 : Prop :=
  ∀ (s : State) (idx : BitVec 8) (b : Band), s.bands[idx.toNat]? = some b →
    isZero b.dly.s1 = true → isNaN b.coef.b0 = false →
    ∃ y bs, Answers (.bqProc idx one) s .OK 0 [y] bs ∧ feq y b.coef.b0 = true ∧
      (¬ (b.coef.b0 = negZero ∧ b.dly.s1 = posZero) → y = b.coef.b0) ∧
      (b.coef.b0 = negZero → b.dly.s1 = posZero → y = posZero)

/-- R164, the spec's own inference: a band with `b0 = 1.0`, `b1` and `a1` the same pattern, `b2` and
`a2` the same pattern, all finite, and zero registers passes every stream of finite samples whose
products by `a1` and `a2` are finite unchanged. -/
def Obligations.IdentityBandPassesTheStream : Prop :=
  ∀ (s : State) (idx : BitVec 8) (b : Band) (xs : List Word) (n : Word), isNaN n = true →
    s.bands[idx.toNat]? = some b → identityShape b.coef → b.dly.zeros = true →
    (∀ x ∈ xs, isFinite x = true ∧ isFinite (fmul n b.coef.a1 x) = true ∧
      isFinite (fmul n b.coef.a2 x) = true) →
    ∃ ys d, Answers (.bqProcb idx xs) s .OK 0 ys (s.bands.set idx.toNat ⟨b.coef, d⟩) ∧
      d.zeros = true ∧
      List.Forall₂ (fun y x => feq y x = true ∧ (x ≠ negZero → y = x)) ys xs

/-- A NaN in a delay register stays (R238, the spec's own inference, read by R152; log 12): with a
NaN in `s1` every later output of the band is a NaN, with a NaN in `s2` every one but the first; and
a chain with such a band answers NaNs and hands them to every later band. -/
def Obligations.NaNRegistersStay : Prop :=
  (∀ (s : State) (idx : BitVec 8) (b : Band) (xs : List Word), s.bands[idx.toNat]? = some b →
    ∃ ys d, Answers (.bqProcb idx xs) s .OK 0 ys (s.bands.set idx.toNat ⟨b.coef, d⟩) ∧
      (isNaN b.dly.s1 = true → (∀ y ∈ ys, isNaN y = true) ∧ isNaN d.s1 = true) ∧
      (isNaN b.dly.s2 = true → ∀ y ∈ ys.tail, isNaN y = true)) ∧
  (∀ (s : State) (k : Nat) (b : Band) (x : Word) (xs : List Word), s.bands[k]? = some b →
    isNaN b.dly.s1 = true →
    ∃ ys bs, Answers (.eqProcb (x :: xs)) s .OK 0 ys bs ∧ (∀ y ∈ ys, isNaN y = true) ∧
      ∀ j b', k ≤ j → bs[j]? = some b' → isNaN b'.dly.s1 = true ∧ isNaN b'.dly.s2 = true)

/-- Where every intermediate result of R152 is an F64, BQ_PROC computes the equations of R153
exactly. -/
def Obligations.StepIsExactWhenRepresentable : Prop :=
  ∀ (s : State) (idx : BitVec 8) (b : Band) (x : Word), s.bands[idx.toNat]? = some b →
    coeffsFinite b.coef = true → isFinite b.dly.s1 = true → isFinite b.dly.s2 = true →
    isFinite x = true →
    let c := exactCoeffs b.coef
    let u := toRat x
    let y := c.b0 * u + toRat b.dly.s1
    Representable (c.b0 * u) → Representable y → Representable (c.b1 * u) →
    Representable (c.a1 * y) → Representable (c.b1 * u - c.a1 * y) →
    Representable (c.b1 * u - c.a1 * y + toRat b.dly.s2) → Representable (c.b2 * u) →
    Representable (c.a2 * y) → Representable (c.b2 * u - c.a2 * y) →
    ∃ v d, Answers (.bqProc idx x) s .OK 0 [v] (s.bands.set idx.toNat ⟨b.coef, d⟩) ∧
      (toRat v, (toRat d.s1, toRat d.s2)) = exactStep c (toRat b.dly.s1, toRat b.dly.s2) u

/-! ### The mathematics of the formulas -/

/-- R151 with R153, the spec's own inference: in exact arithmetic the two-register step is the
difference equation. -/
def Obligations.ExactStepIsTheDifferenceEquation : Prop :=
  ∀ (K : Type) [Field K] (c : ExactCoeffs K) (x : Nat → K) (n : Nat),
    exactOut c x n =
      c.b0 * x n + c.b1 * delayed x n + c.b2 * delayed (delayed x) n
        - c.a1 * delayed (exactOut c x) n - c.a2 * delayed (delayed (exactOut c x)) n

/-- R138, the spec's own inference: in exact real arithmetic, for `0 < w < pi` and alpha a positive
real, the coefficients of every type are stable: `|a2| < 1`, `|a1| < 1 + a2`, and both roots lie
inside the unit circle; and alpha from Q or from a bandwidth is positive. `exactForm` is the formulas
of R129 to R136; the model's words follow the same formulas by DesignTreesFromQ and
DesignTreesWithGain, beside which this is to be read. -/
def Obligations.ExactFormulasAreStable : Prop :=
  (∀ (ft : FilterType) (w al A rA : ℝ), 0 < w → w < Real.pi → 0 < al → 0 < A → 0 < rA →
    rA * rA = A →
    let c := (exactForm ft (Real.cos w) al A rA).normalised
    |c.a2| < 1 ∧ |c.a1| < 1 + c.a2 ∧
      ∀ z : ℂ, z ^ 2 + (c.a1 : ℂ) * z + (c.a2 : ℂ) = 0 → ‖z‖ < 1) ∧
  (∀ w sh : ℝ, 0 < w → w < Real.pi → 0 < sh →
    0 < Real.sin w / (2 * sh) ∧
    0 < Real.sin w * Real.sinh (Real.log 2 / 2 * sh * w / Real.sin w))

/-- What the forms have in common (R129 to R134), up to NaN payloads: `b0 = b2` for LowPass,
HighPass and Notch, `b2 = -b0` for BandPass, `b1 = a1` for Notch, AllPass and Peaking, `b0 = a2` and
`b2 = 1.0` for AllPass, and the identity coefficients for Peaking with 0 dB. -/
def Obligations.CoefficientShapes : Prop :=
  ∀ (num : Numerics) (shape : FilterType → ShapeKind) (q : Nat → Word) (ft : FilterType)
    (p : DesignParams) (c : Coeffs), AllNaN q → design num shape q ft p = some c →
    (ft = .lowPass → SameF64 c.b0 c.b2) ∧ (ft = .highPass → SameF64 c.b0 c.b2) ∧
    (ft = .bandPass → SameF64 c.b2 (fneg c.b0)) ∧
    (ft = .notch → SameF64 c.b0 c.b2 ∧ SameF64 c.b1 c.a1) ∧
    (ft = .allPass → SameF64 c.b0 c.a2 ∧ SameF64 c.b1 c.a1 ∧ (c.b2 = one ∨ isNaN c.b2 = true)) ∧
    (ft = .peaking → SameF64 c.b1 c.a1) ∧
    (ft = .peaking → isZero p.g = true →
      (c.b0 = one ∨ isNaN c.b0 = true) ∧ SameF64 c.b1 c.a1 ∧ SameF64 c.b2 c.a2)

/-- The property of R139, the spec's own inference: designed all-pass coefficients that are finite
satisfy `b0 = a2`, `b1 = a1`, `b2 = 1.0`, and their transfer function has magnitude 1 on the unit
circle. -/
def Obligations.AllPassHasUnitMagnitude : Prop :=
  ∀ (num : Numerics) (shape : FilterType → ShapeKind) (q : Nat → Word) (p : DesignParams)
    (c : Coeffs), AllNaN q → design num shape q .allPass p = some c → coeffsFinite c = true →
    c.b0 = c.a2 ∧ c.b1 = c.a1 ∧ c.b2 = one ∧
    ∀ z : ℂ, ‖z‖ = 1 → (1 + (toRat c.a1 : ℂ) * z + (toRat c.a2 : ℂ) * z ^ 2) ≠ 0 →
      ‖((toRat c.b0 : ℂ) + (toRat c.b1 : ℂ) * z + (toRat c.b2 : ℂ) * z ^ 2) /
        (1 + (toRat c.a1 : ℂ) * z + (toRat c.a2 : ℂ) * z ^ 2)‖ = 1

/-- A Peaking band with 0 dB gain is the identity (R134 with R164): finite coefficients designed so
have the identity shape for every record Numerics, and a chain of that one band, its registers zero,
answers every block of finite samples whose products by the coefficients are finite unchanged. -/
def Obligations.PeakingAtZeroGainIsTheIdentity : Prop :=
  ∀ (num : Numerics) (shape : FilterType → ShapeKind) (q : Nat → Word) (p : DesignParams)
    (c : Coeffs) (n : Word), AllNaN q → isNaN n = true → isZero p.g = true →
    design num shape q .peaking p = some c → coeffsFinite c = true →
    identityShape c ∧
      ∀ (s : State) (xs : List Word), s.bands = [⟨c, ⟨0, 0⟩⟩] →
        (∀ x ∈ xs, isFinite x = true ∧ isFinite (fmul n c.a1 x) = true ∧
          isFinite (fmul n c.a2 x) = true) →
        ∃ ys bs, Answers (.eqProcb xs) s .OK 0 ys bs ∧
          List.Forall₂ (fun y x => feq y x = true ∧ (x ≠ negZero → y = x)) ys xs
end

