-- ==== Sys2Proof/Laws/State.lean ====
section
/-!
SUPPORT. One lemma per field per update of the state, each true by unfolding the update once.
-/

namespace Sys2Proof.Machine

section respond
variable (opc : BitVec 8) (st : Status) (val : BitVec 8) (data : List Word) (s : State)

@[simp] theorem respond_bands : (respond opc st val data s).bands = s.bands := rfl
@[simp] theorem respond_cmdPort : (respond opc st val data s).cmdPort = s.cmdPort := rfl
@[simp] theorem respond_respPort :
    (respond opc st val data s).respPort = s.respPort ++ [responsePacket opc st val data] := rfl
@[simp] theorem respond_nanDraws : (respond opc st val data s).nanDraws = s.nanDraws := rfl
@[simp] theorem respond_N : (respond opc st val data s).N = s.N := rfl
@[simp] theorem respond_countReg : (respond opc st val data s).countReg = s.countReg := rfl

@[simp] theorem raise_bands : (raise opc st s).bands = s.bands := rfl
@[simp] theorem raise_cmdPort : (raise opc st s).cmdPort = s.cmdPort := rfl
@[simp] theorem raise_respPort :
    (raise opc st s).respPort = s.respPort ++ [responsePacket opc st 0 []] := rfl
@[simp] theorem raise_nanDraws : (raise opc st s).nanDraws = s.nanDraws := rfl
@[simp] theorem raise_N : (raise opc st s).N = s.N := rfl

end respond

section ports
variable (s : State) (p : Packet)

@[simp] theorem dropEvent_bands : s.dropEvent.bands = s.bands := rfl
@[simp] theorem dropEvent_cmdPort : s.dropEvent.cmdPort = s.cmdPort.tail := rfl
@[simp] theorem dropEvent_respPort : s.dropEvent.respPort = s.respPort := rfl
@[simp] theorem dropEvent_nanDraws : s.dropEvent.nanDraws = s.nanDraws := rfl
@[simp] theorem dropEvent_N : s.dropEvent.N = s.N := rfl
@[simp] theorem dropEvent_countReg : s.dropEvent.countReg = s.countReg := rfl
@[simp] theorem dropEvent_draws : s.dropEvent.draws = s.draws := rfl

@[simp] theorem hardwareReset_bands : (hardwareReset s).bands = [] := rfl
@[simp] theorem hardwareReset_cmdPort : (hardwareReset s).cmdPort = s.cmdPort := rfl
@[simp] theorem hardwareReset_respPort : (hardwareReset s).respPort = s.respPort := rfl
@[simp] theorem hardwareReset_nanDraws : (hardwareReset s).nanDraws = s.nanDraws := rfl
@[simp] theorem hardwareReset_N : (hardwareReset s).N = 0 := rfl

@[simp] theorem answerIllegal_bands : (answerIllegal p s).bands = s.bands := rfl
@[simp] theorem answerIllegal_cmdPort : (answerIllegal p s).cmdPort = s.cmdPort := rfl
@[simp] theorem answerIllegal_respPort :
    (answerIllegal p s).respPort =
      s.respPort ++ [responsePacket (echoedOpc p) .IllegalCommand 0 []] := rfl
@[simp] theorem answerIllegal_nanDraws : (answerIllegal p s).nanDraws = s.nanDraws := rfl

@[simp] theorem withPacket_bands : (s.withPacket p).bands = s.bands := rfl
@[simp] theorem withPacket_cmdPort : (s.withPacket p).cmdPort = .packet p :: s.cmdPort := rfl
@[simp] theorem withPacket_respPort : (s.withPacket p).respPort = s.respPort := rfl
@[simp] theorem withPacket_nanDraws : (s.withPacket p).nanDraws = s.nanDraws := rfl
@[simp] theorem withPacket_dropEvent : (s.withPacket p).dropEvent = s := rfl

end ports

section store
variable (s : State) (idx : BitVec 8) (b : Band) (n : Nat)

@[simp] theorem spend_bands : (s.spend n).bands = s.bands := rfl
@[simp] theorem spend_cmdPort : (s.spend n).cmdPort = s.cmdPort := rfl
@[simp] theorem spend_respPort : (s.spend n).respPort = s.respPort := rfl
@[simp] theorem spend_nanDraws : (s.spend n).nanDraws = s.nanDraws + n := rfl
@[simp] theorem spend_N : (s.spend n).N = s.N := rfl

@[simp] theorem putBand_bands : (s.putBand idx b).bands = s.bands.set idx.toNat b := rfl
@[simp] theorem putBand_cmdPort : (s.putBand idx b).cmdPort = s.cmdPort := rfl
@[simp] theorem putBand_respPort : (s.putBand idx b).respPort = s.respPort := rfl
@[simp] theorem putBand_nanDraws : (s.putBand idx b).nanDraws = s.nanDraws := rfl
@[simp] theorem putBand_N : (s.putBand idx b).N = s.N := by simp [State.N]

@[simp] theorem removeBand_bands : (s.removeBand idx).bands = s.bands.eraseIdx idx.toNat := rfl
@[simp] theorem removeBand_cmdPort : (s.removeBand idx).cmdPort = s.cmdPort := rfl
@[simp] theorem removeBand_respPort : (s.removeBand idx).respPort = s.respPort := rfl
@[simp] theorem removeBand_nanDraws : (s.removeBand idx).nanDraws = s.nanDraws := rfl

end store

section reset

@[simp] theorem reset_bands : State.reset.bands = [] := rfl
@[simp] theorem reset_cmdPort : State.reset.cmdPort = [] := rfl
@[simp] theorem reset_respPort : State.reset.respPort = [] := rfl
@[simp] theorem reset_nanDraws : State.reset.nanDraws = 0 := rfl
@[simp] theorem reset_N : State.reset.N = 0 := rfl

end reset

@[simp] theorem cleared_coef (b : Band) : b.cleared.coef = b.coef := rfl
@[simp] theorem cleared_dly (b : Band) : b.cleared.dly = zeroDelay := rfl
@[simp] theorem newBand_coef (c : Coeffs) : (newBand c).coef = c := rfl
@[simp] theorem newBand_dly (c : Coeffs) : (newBand c).dly = zeroDelay := rfl

/-- The i-th NaN word after `n` were passed is the (n + i)-th before. -/
@[simp] theorem spend_draws (s : State) (n : Nat) : (s.spend n).draws = skip n s.draws := by
  funext i; simp [State.draws, skip, Nat.add_assoc]

@[simp] theorem respond_draws (opc : BitVec 8) (st : Status) (val : BitVec 8) (data : List Word)
    (s : State) : (respond opc st val data s).draws = s.draws := rfl

@[simp] theorem putBand_draws (s : State) (idx : BitVec 8) (b : Band) :
    (s.putBand idx b).draws = s.draws := rfl

@[simp] theorem skip_zero (q : Nat → Word) : skip 0 q = q := by funext i; simp [skip]

@[simp] theorem skip_skip (m n : Nat) (q : Nat → Word) : skip m (skip n q) = skip (n + m) q := by
  funext i; simp [skip, Nat.add_assoc]

theorem skip_apply (n : Nat) (q : Nat → Word) (i : Nat) : skip n q i = q (n + i) := rfl

end Sys2Proof.Machine
end

