-- ==== Sys2Proof/Laws/Chain.lean ====
section
/-!
SUPPORT. Laws of the biquad step, the walk over the bands and the loops over the samples: lengths,
concatenation of inputs, and that all of them respect equality up to NaN payloads (R104).
-/

namespace Sys2Proof.Machine

/-! ### Lengths -/

@[simp] theorem bqBlock_length (q : Nat → Word) (c : Coeffs) (d : Delay) (xs : List Word) :
    (bqBlock q c d xs).1.length = xs.length := by
  induction xs generalizing q d with
  | nil => rfl
  | cons x xs ih => simp [bqBlock, ih]

@[simp] theorem eqStep_length (q : Nat → Word) (bands : List Band) (x : Word) :
    (eqStep q bands x).2.length = bands.length := by
  induction bands generalizing q x with
  | nil => rfl
  | cons b bands ih => simp [eqStep, ih]

@[simp] theorem eqBlock_length (q : Nat → Word) (bands : List Band) (xs : List Word) :
    (eqBlock q bands xs).1.length = xs.length := by
  induction xs generalizing q bands with
  | nil => rfl
  | cons x xs ih => simp [eqBlock, ih]

@[simp] theorem eqBlock_bands_length (q : Nat → Word) (bands : List Band) (xs : List Word) :
    (eqBlock q bands xs).2.length = bands.length := by
  induction xs generalizing q bands with
  | nil => rfl
  | cons x xs ih => simp [eqBlock, ih]

/-! ### The coefficients are read, never written (R171) -/

theorem eqStep_coefs (q : Nat → Word) (bands : List Band) (x : Word) :
    (eqStep q bands x).2.map Band.coef = bands.map Band.coef := by
  induction bands generalizing q x with
  | nil => rfl
  | cons b bands ih => simp [eqStep, ih]

theorem eqBlock_coefs (q : Nat → Word) (bands : List Band) (xs : List Word) :
    (eqBlock q bands xs).2.map Band.coef = bands.map Band.coef := by
  induction xs generalizing q bands with
  | nil => rfl
  | cons x xs ih => simp [eqBlock, ih, eqStep_coefs]

/-! ### Concatenated inputs -/

theorem bqBlock_append (q : Nat → Word) (c : Coeffs) (d : Delay) (xs ys : List Word) :
    bqBlock q c d (xs ++ ys) =
      ((bqBlock q c d xs).1 ++
          (bqBlock (skip (bqStepDraws * xs.length) q) c (bqBlock q c d xs).2 ys).1,
        (bqBlock (skip (bqStepDraws * xs.length) q) c (bqBlock q c d xs).2 ys).2) := by
  induction xs generalizing q d with
  | nil => simp [bqBlock]
  | cons x xs ih =>
    simp [bqBlock, ih, Nat.mul_add, Nat.add_comm]

theorem eqBlock_append (q : Nat → Word) (bands : List Band) (xs ys : List Word) :
    eqBlock q bands (xs ++ ys) =
      ((eqBlock q bands xs).1 ++
          (eqBlock (skip (eqStepDraws bands.length * xs.length) q) (eqBlock q bands xs).2 ys).1,
        (eqBlock (skip (eqStepDraws bands.length * xs.length) q) (eqBlock q bands xs).2 ys).2) := by
  induction xs generalizing q bands with
  | nil => simp [eqBlock]
  | cons x xs ih =>
    simp [eqBlock, ih, Nat.mul_add, Nat.add_comm]

/-- A chain whose first part is `as` runs `as` first and the rest on its output (R171). -/
theorem eqStep_append (q : Nat → Word) (as bs : List Band) (x : Word) :
    eqStep q (as ++ bs) x =
      ((eqStep (skip (eqStepDraws as.length) q) bs (eqStep q as x).1).1,
        (eqStep q as x).2 ++ (eqStep (skip (eqStepDraws as.length) q) bs (eqStep q as x).1).2) := by
  induction as generalizing q x with
  | nil => simp [eqStep, eqStepDraws]
  | cons a as ih => simp [eqStep, ih, eqStepDraws, Nat.mul_add, Nat.add_comm]

/-! ### NaN words -/

theorem AllNaN.skip {q : Nat → Word} (h : AllNaN q) (n : Nat) : AllNaN (skip n q) := fun i => h (n + i)

theorem allNaN_draws (s : State) : AllNaN s.draws := fun i => isNaN_draws s i

/-! ### Equality up to NaN payloads -/

/-- Delay registers equal up to NaN payloads. -/
def SameDelay (d e : Delay) : Prop := SameF64 d.s1 e.s1 ∧ SameF64 d.s2 e.s2

theorem SameCoeffs.refl (c : Coeffs) : SameCoeffs c c :=
  ⟨.refl _, .refl _, .refl _, .refl _, .refl _⟩

theorem SameCoeffs.trans {c d e : Coeffs} (h : SameCoeffs c d) (k : SameCoeffs d e) :
    SameCoeffs c e :=
  ⟨h.1.trans k.1, h.2.1.trans k.2.1, h.2.2.1.trans k.2.2.1, h.2.2.2.1.trans k.2.2.2.1,
    h.2.2.2.2.trans k.2.2.2.2⟩

theorem SameCoeffs.symm {c d : Coeffs} (h : SameCoeffs c d) : SameCoeffs d c :=
  ⟨h.1.symm, h.2.1.symm, h.2.2.1.symm, h.2.2.2.1.symm, h.2.2.2.2.symm⟩

theorem SameBand.refl (b : Band) : SameBand b b := ⟨.refl _, .refl _, .refl _⟩

theorem sameBands_refl (bs : List Band) : List.Forall₂ SameBand bs bs :=
  List.forall₂_same.mpr fun b _ => .refl b

theorem bqStep_same {q q' : Nat → Word} {c c' : Coeffs} {d d' : Delay} {x x' : Word}
    (hq : AllNaN q) (hq' : AllNaN q') (hc : SameCoeffs c c') (hd : SameDelay d d')
    (hx : SameF64 x x') :
    SameF64 (bqStep q c d x).1 (bqStep q' c' d' x').1 ∧
      SameDelay (bqStep q c d x).2 (bqStep q' c' d' x').2 := by
  obtain ⟨h0, h1, h2, k1, k2⟩ := hc
  have hy : SameF64 (bqStep q c d x).1 (bqStep q' c' d' x').1 :=
    .fadd (hq _) (hq' _) (.fmul (hq _) (hq' _) h0 hx) hd.1
  exact ⟨hy,
    .fadd (hq _) (hq' _) (.fsub (hq _) (hq' _) (.fmul (hq _) (hq' _) h1 hx)
      (.fmul (hq _) (hq' _) k1 hy)) hd.2,
    .fsub (hq _) (hq' _) (.fmul (hq _) (hq' _) h2 hx) (.fmul (hq _) (hq' _) k2 hy)⟩

theorem bqBlock_same {q q' : Nat → Word} {c c' : Coeffs} {d d' : Delay} {xs xs' : List Word}
    (hq : AllNaN q) (hq' : AllNaN q') (hc : SameCoeffs c c') (hd : SameDelay d d')
    (hx : List.Forall₂ SameF64 xs xs') :
    List.Forall₂ SameF64 (bqBlock q c d xs).1 (bqBlock q' c' d' xs').1 ∧
      SameDelay (bqBlock q c d xs).2 (bqBlock q' c' d' xs').2 := by
  induction hx generalizing q q' d d' with
  | nil => exact ⟨.nil, hd⟩
  | cons h _ ih =>
    obtain ⟨h1, h2⟩ := bqStep_same hq hq' hc hd h
    obtain ⟨k1, k2⟩ := ih (hq.skip _) (hq'.skip _) h2
    exact ⟨.cons h1 k1, k2⟩

theorem eqStep_same {q q' : Nat → Word} {bs bs' : List Band} {x x' : Word} (hq : AllNaN q)
    (hq' : AllNaN q') (hb : List.Forall₂ SameBand bs bs') (hx : SameF64 x x') :
    SameF64 (eqStep q bs x).1 (eqStep q' bs' x').1 ∧
      List.Forall₂ SameBand (eqStep q bs x).2 (eqStep q' bs' x').2 := by
  induction hb generalizing q q' x x' with
  | nil => exact ⟨hx, .nil⟩
  | cons h _ ih =>
    obtain ⟨h1, h2⟩ := bqStep_same hq hq' h.1 h.2 hx
    obtain ⟨k1, k2⟩ := ih (hq.skip _) (hq'.skip _) h1
    exact ⟨k1, .cons ⟨h.1, h2⟩ k2⟩

theorem eqBlock_same {q q' : Nat → Word} {bs bs' : List Band} {xs xs' : List Word} (hq : AllNaN q)
    (hq' : AllNaN q') (hb : List.Forall₂ SameBand bs bs') (hx : List.Forall₂ SameF64 xs xs') :
    List.Forall₂ SameF64 (eqBlock q bs xs).1 (eqBlock q' bs' xs').1 ∧
      List.Forall₂ SameBand (eqBlock q bs xs).2 (eqBlock q' bs' xs').2 := by
  induction hx generalizing q q' bs bs' with
  | nil => exact ⟨.nil, hb⟩
  | cons h _ ih =>
    obtain ⟨h1, h2⟩ := eqStep_same hq hq' hb h
    obtain ⟨k1, k2⟩ := ih (hq.skip _) (hq'.skip _) h2
    exact ⟨.cons h1 k1, k2⟩

/-! ### The designer -/

/-- The NaN word of the halving in R121 is never looked at: V1 rules a NaN quotient out. -/
theorem validParams_nan (n m : Word) (ft : FilterType) (p : DesignParams) :
    validParams n ft p = validParams m ft p := by
  by_cases h : isFinite p.fs = true
  · have : fdiv n p.fs two = fdiv m p.fs two := by
      have h1 : isNaN two = false := by decide
      have h2 : isInf two = false := by decide
      have h3 : isZero two = false := by decide
      simp only [fdiv, isNaN_of_isFinite h, isInf_of_isFinite h, h1, h2, h3, Bool.or_self,
        Bool.false_eq_true, if_false]
    simp only [validParams, this]
  · have h' : isFinite p.fs = false := by simpa using h
    simp only [validParams, h', Bool.false_and]

theorem isNaN_posZero : isNaN posZero = false := by decide

end Sys2Proof.Machine
end

