-- ==== Sys2Proof/Laws/Decode.lean ====
section
/-!
SUPPORT. Laws of the header fields, the opcode map and the readers of the formats.
-/

namespace Sys2Proof

theorem bitvec_ext_of_lsb {n : Nat} {a b : BitVec n} (h : ∀ i, i < n → a.getLsbD i = b.getLsbD i) :
    a = b := BitVec.eq_of_getLsbD_eq fun i hi => h i hi

section headerWord
variable (opc idx : BitVec 8) (ft : BitVec 3)

@[simp] theorem headerOpc_headerWord : headerOpc (headerWord opc idx ft) = opc := by
  apply bitvec_ext_of_lsb
  intro i hi
  simp only [headerOpc, headerWord, BitVec.getLsbD_extractLsb', BitVec.getLsbD_append]
  simp [hi]

@[simp] theorem headerIdx_headerWord : headerIdx (headerWord opc idx ft) = idx := by
  apply bitvec_ext_of_lsb
  intro i hi
  simp only [headerIdx, headerWord, BitVec.getLsbD_extractLsb', BitVec.getLsbD_append]
  simp [hi]

@[simp] theorem headerFt_headerWord : headerFt (headerWord opc idx ft) = ft := by
  apply bitvec_ext_of_lsb
  intro i hi
  have h1 : ¬ 16 + i < 8 := by omega
  have h2 : ¬ 16 + i - 8 < 8 := by omega
  have h3 : 16 + i - 8 - 8 = i := by omega
  simp only [headerFt, headerWord, BitVec.getLsbD_extractLsb', BitVec.getLsbD_append]
  simp [hi, h1, h2, h3]

@[simp] theorem headerRsv_headerWord : headerRsv (headerWord opc idx ft) = 0 := by
  apply bitvec_ext_of_lsb
  intro i hi
  have h1 : ¬ 19 + i < 8 := by omega
  have h2 : ¬ 19 + i - 8 < 8 := by omega
  have h3 : ¬ 19 + i - 8 - 8 < 3 := by omega
  simp only [headerRsv, headerWord, BitVec.getLsbD_extractLsb', BitVec.getLsbD_append]
  simp [h1, h2, h3]

end headerWord

/-- A header word is its four fields. -/
theorem headerWord_of_fields (h : Word) (hr : headerRsv h = 0) :
    headerWord (headerOpc h) (headerIdx h) (headerFt h) = h := by
  apply bitvec_ext_of_lsb
  intro i hi
  have hz : ∀ j, j < 45 → h.getLsbD (19 + j) = false := by
    intro j hj
    have := congrArg (fun v => BitVec.getLsbD v j) hr
    simpa [headerRsv, BitVec.getLsbD_extractLsb', hj] using this
  simp only [headerWord, BitVec.getLsbD_append]
  by_cases h1 : i < 8
  · simp [headerOpc, h1]
  · by_cases h2 : i - 8 < 8
    · have : 8 + (i - 8) = i := by omega
      simp [headerIdx, h1, h2, this]
    · by_cases h3 : i - 8 - 8 < 3
      · have : 16 + (i - 8 - 8) = i := by omega
        simp [headerFt, h1, h2, h3, this]
      · have := hz (i - 19) (by omega)
        have e : 19 + (i - 19) = i := by omega
        rw [e] at this
        simp [h1, h2, h3, this]

@[simp] theorem FilterType.ofCode_code (ft : FilterType) : FilterType.ofCode ft.code = ft := by
  cases ft <;> rfl

@[simp] theorem FilterType.code_ofCode (c : BitVec 3) : (FilterType.ofCode c).code = c := by
  revert c; decide

@[simp] theorem Opcode.ofByte_byte (o : Opcode) : Opcode.ofByte o.byte = some o := by
  cases o <;> rfl

/-- A byte has at most one opcode. -/
theorem Opcode.byte_of_ofByte {b : BitVec 8} {o : Opcode} (h : Opcode.ofByte b = some o) :
    o.byte = b := by
  simpa using List.find?_some h

theorem Opcode.mem_all (o : Opcode) : o ∈ Opcode.all := by cases o <;> decide

section readers
variable {ops : List Word} {i : Instr}

theorem readH_eq_ok {j : Instr} : readH ops j = .ok i ↔ ops = [] ∧ i = j := by
  unfold readH
  split
  · constructor
    · intro h; cases h; exact ⟨rfl, rfl⟩
    · rintro ⟨-, rfl⟩; rfl
  · rename_i hne
    constructor
    · intro h; cases h
    · rintro ⟨h1, -⟩; exact absurd h1 hne

theorem readHP_eq_ok {k : DesignParams → Instr} :
    readHP ops k = .ok i ↔ ∃ p : DesignParams, ops = p.words ∧ i = k p := by
  unfold readHP
  split
  · constructor
    · intro h; cases h; exact ⟨_, rfl, rfl⟩
    · rintro ⟨p, h1, h2⟩; simp only [DesignParams.words, List.cons.injEq, and_true] at h1
      obtain ⟨rfl, rfl, rfl, rfl⟩ := h1; rw [h2]
  · rename_i hne
    constructor
    · intro h; cases h
    · rintro ⟨p, h1, -⟩; exact absurd h1 (hne _ _ _ _)

theorem readHC_eq_ok {k : Coeffs → Instr} :
    readHC ops k = .ok i ↔ ∃ c : Coeffs, ops = c.words ∧ i = k c := by
  unfold readHC
  split
  · constructor
    · intro h; cases h; exact ⟨_, rfl, rfl⟩
    · rintro ⟨c, h1, h2⟩; simp only [Coeffs.words, List.cons.injEq, and_true] at h1
      obtain ⟨rfl, rfl, rfl, rfl, rfl⟩ := h1; rw [h2]
  · rename_i hne
    constructor
    · intro h; cases h
    · rintro ⟨c, h1, -⟩; exact absurd h1 (hne _ _ _ _ _)

theorem readHX1_eq_ok {k : Word → Instr} : readHX1 ops k = .ok i ↔ ∃ x, ops = [x] ∧ i = k x := by
  unfold readHX1
  split
  · constructor
    · intro h; cases h; exact ⟨_, rfl, rfl⟩
    · rintro ⟨x, h1, h2⟩; cases h1; rw [h2]
  · rename_i hne
    constructor
    · intro h; cases h
    · rintro ⟨x, h1, -⟩; exact absurd h1 (hne _)

theorem readHX_eq_ok {k : List Word → Instr} :
    readHX ops k = .ok i ↔ blockFits ops = true ∧ i = k ops := by
  unfold readHX
  split
  · rename_i hb
    constructor
    · intro h; cases h; exact ⟨hb, rfl⟩
    · rintro ⟨-, rfl⟩; rfl
  · rename_i hb
    constructor
    · intro h; cases h
    · rintro ⟨h1, -⟩; exact absurd h1 hb

end readers

/-- What a packet that decodes is: a header with zero reserved bits and zero in the fields its opcode
does not use, and operand words its format reads (R70). -/
theorem decode_eq_ok {p : Packet} {i : Instr} :
    decode p = .ok i ↔
      ∃ h ops o, p = h :: ops ∧ Opcode.ofByte (headerOpc h) = some o ∧ headerRsv h = 0 ∧
        (o.usesIdx = false → headerIdx h = 0) ∧ (o.usesFt = false → headerFt h = 0) ∧
        o.read (headerIdx h) (FilterType.ofCode (headerFt h)) ops = .ok i := by
  cases p with
  | nil => simp [decode]
  | cons h ops =>
    cases ho : Opcode.ofByte (headerOpc h) with
    | none =>
      simp only [decode, ho]
      constructor
      · intro hh; cases hh
      · rintro ⟨h', ops', o, hp, ho', -⟩
        cases hp; rw [ho] at ho'; cases ho'
    | some o =>
      simp only [decode, ho]
      constructor
      · intro hh
        split_ifs at hh with h1 h2 h3
        refine ⟨h, ops, o, rfl, ho, not_not.mp h1, fun hu => ?_, fun hu => ?_, hh⟩
        · by_contra hne; exact h2 ⟨hu, hne⟩
        · by_contra hne; exact h3 ⟨hu, hne⟩
      · rintro ⟨h', ops', o', hp, ho', h1, h2, h3, h4⟩
        cases hp
        rw [ho] at ho'
        cases ho'
        rw [if_neg (not_not.mpr h1), if_neg (fun hc => hc.2 (h2 hc.1)),
          if_neg (fun hc => hc.2 (h3 hc.1))]
        exact h4

@[simp] theorem echoedOpc_nil : echoedOpc [] = 0 := rfl
@[simp] theorem echoedOpc_cons (h : Word) (ops : List Word) : echoedOpc (h :: ops) = headerOpc h := rfl

/-- A packet that decodes echoes the byte of its command's opcode. -/
theorem opcode_of_decode {p : Packet} {i : Instr} (h : decode p = .ok i) :
    i.opcode.byte = echoedOpc p := by
  obtain ⟨hd, ops, o, rfl, ho, -, -, -, hr⟩ := decode_eq_ok.mp h
  have hb := Opcode.byte_of_ofByte ho
  rw [echoedOpc_cons, ← hb]
  congr 1
  cases o <;>
    simp only [Opcode.read, readH_eq_ok, readHP_eq_ok, readHC_eq_ok, readHX1_eq_ok,
      readHX_eq_ok] at hr <;>
    obtain ⟨_, hr⟩ := hr <;>
    first
      | (subst hr; rfl)
      | (obtain ⟨-, hr⟩ := hr; subst hr; rfl)

/-- What the decoder answers is well formed (R66, R70). -/
theorem wf_of_decode {p : Packet} {i : Instr} (h : decode p = .ok i) : i.wf = true := by
  obtain ⟨hd, ops, o, -, -, -, -, -, hr⟩ := decode_eq_ok.mp h
  cases o <;>
    simp only [Opcode.read, readH_eq_ok, readHP_eq_ok, readHC_eq_ok, readHX1_eq_ok,
      readHX_eq_ok] at hr <;>
    obtain ⟨hb, hr⟩ := hr <;>
    first
      | (subst hr; rfl)
      | (subst hr; exact hb)
      | (obtain ⟨-, hr⟩ := hr; subst hr; rfl)

end Sys2Proof
end

