-- ==== Sys2Proof/Laws/Ops.lean ====
section
/-!
SUPPORT. One spec lemma per shared operation: the fields of a response header, what `withBand` and
`appendBand` can answer, the band store slot by slot, and what `exec` and `step` do to the ports.
-/

namespace Sys2Proof.Machine

/-! ### The response header (R68) -/

section header
variable (st : Status) (opc val : BitVec 8) (cnt : Nat)

@[simp] theorem respStatus_responseHeader : respStatus (responseHeader st opc val cnt) = st.code := by
  apply bitvec_ext_of_lsb
  intro i hi
  simp only [respStatus, responseHeader, BitVec.getLsbD_extractLsb', BitVec.getLsbD_append]
  simp [hi]

@[simp] theorem respRsvLow_responseHeader : respRsvLow (responseHeader st opc val cnt) = 0 := by
  apply bitvec_ext_of_lsb
  intro i hi
  simp only [respRsvLow, responseHeader, BitVec.getLsbD_extractLsb', BitVec.getLsbD_append]
  simp [hi]

@[simp] theorem respOpc_responseHeader : respOpc (responseHeader st opc val cnt) = opc := by
  apply bitvec_ext_of_lsb
  intro i hi
  have h1 : ¬ 8 + i < 4 := by omega
  have h2 : ¬ 8 + i - 4 < 4 := by omega
  have h3 : 8 + i - 4 - 4 = i := by omega
  simp only [respOpc, responseHeader, BitVec.getLsbD_extractLsb', BitVec.getLsbD_append]
  simp [hi, h1, h2, h3]

@[simp] theorem respVal_responseHeader : respVal (responseHeader st opc val cnt) = val := by
  apply bitvec_ext_of_lsb
  intro i hi
  have h1 : ¬ 16 + i < 4 := by omega
  have h2 : ¬ 16 + i - 4 < 4 := by omega
  have h3 : ¬ 16 + i - 4 - 4 < 8 := by omega
  have h4 : 16 + i - 4 - 4 - 8 = i := by omega
  simp only [respVal, responseHeader, BitVec.getLsbD_extractLsb', BitVec.getLsbD_append]
  simp [hi, h1, h2, h3, h4]

@[simp] theorem respRsvHigh_responseHeader : respRsvHigh (responseHeader st opc val cnt) = 0 := by
  apply bitvec_ext_of_lsb
  intro i hi
  have h1 : ¬ 24 + i < 4 := by omega
  have h2 : ¬ 24 + i - 4 < 4 := by omega
  have h3 : ¬ 24 + i - 4 - 4 < 8 := by omega
  have h4 : ¬ 24 + i - 4 - 4 - 8 < 8 := by omega
  simp only [respRsvHigh, responseHeader, BitVec.getLsbD_extractLsb', BitVec.getLsbD_append]
  simp [h1, h2, h3, h4]
  omega

@[simp] theorem respCnt_responseHeader :
    respCnt (responseHeader st opc val cnt) = BitVec.ofNat 32 cnt := by
  apply bitvec_ext_of_lsb
  intro i hi
  have h1 : ¬ 32 + i < 4 := by omega
  have h2 : ¬ 32 + i - 4 < 4 := by omega
  have h3 : ¬ 32 + i - 4 - 4 < 8 := by omega
  have h4 : ¬ 32 + i - 4 - 4 - 8 < 8 := by omega
  have h5 : ¬ 32 + i - 4 - 4 - 8 - 8 < 8 := by omega
  have h6 : 32 + i - 4 - 4 - 8 - 8 - 8 = i := by omega
  simp only [respCnt, responseHeader, BitVec.getLsbD_extractLsb', BitVec.getLsbD_append]
  simp [hi, h1, h2, h3, h4, h5, h6]

end header

theorem Status.code_eq_zero {st : Status} : st.code = 0 ↔ st = .OK := by cases st <;> decide

theorem Status.code_injective {a b : Status} (h : a.code = b.code) : a = b := by
  cases a <;> cases b <;> first | rfl | exact absurd h (by decide)

/-- Every response the machine builds is well formed (R68, R69). -/
theorem responseWf_responsePacket {opc : BitVec 8} {st : Status} {val : BitVec 8}
    {data : List Word} (hl : data.length ≤ MAXBLOCK) (he : st ≠ .OK → val = 0 ∧ data = []) :
    ResponseWf (responsePacket opc st val data) := by
  refine ⟨by simp, by simp, ?_, ?_, fun hne => ?_⟩
  · rw [respStatus_responseHeader]; cases st <;> decide
  · rw [respCnt_responseHeader, BitVec.toNat_ofNat]
    exact Nat.mod_eq_of_lt (lt_of_le_of_lt hl (by decide))
  · rw [respStatus_responseHeader, Ne, Status.code_eq_zero] at hne
    rw [respVal_responseHeader]
    exact he hne

/-! ### Operands and appends -/

theorem band?_eq_some {s : State} {idx : BitVec 8} {b : Band} :
    s.band? idx = some b ↔ ∃ h : idx.toNat < s.N, s.bands[idx.toNat] = b :=
  List.getElem?_eq_some_iff

theorem band?_eq_none {s : State} {idx : BitVec 8} : s.band? idx = none ↔ s.N ≤ idx.toNat :=
  List.getElem?_eq_none_iff

/-- An index is valid exactly when `IDX < N` (R41). -/
theorem exists_band {s : State} {idx : BitVec 8} (h : idx.toNat < s.N) : ∃ b, s.band? idx = some b :=
  ⟨_, band?_eq_some.mpr ⟨h, rfl⟩⟩

theorem withBand_some {opc idx : BitVec 8} {s : State} {b : Band} {k : Band → State}
    (h : s.band? idx = some b) : withBand opc idx s k = k b := by simp [withBand, h]

theorem withBand_none {opc idx : BitVec 8} {s : State} {k : Band → State}
    (h : s.band? idx = none) : withBand opc idx s k = raise opc .IndexOutOfRange s := by
  simp [withBand, h]

/-- Everything `withBand` can do. -/
theorem withBand_cases (opc idx : BitVec 8) (s : State) (k : Band → State) :
    (s.N ≤ idx.toNat ∧ withBand opc idx s k = raise opc .IndexOutOfRange s) ∨
      ∃ b, s.band? idx = some b ∧ idx.toNat < s.N ∧ withBand opc idx s k = k b := by
  cases h : s.band? idx with
  | none => exact .inl ⟨band?_eq_none.mp h, withBand_none h⟩
  | some b => exact .inr ⟨b, rfl, (band?_eq_some.mp h).1, withBand_some h⟩

/-- Everything `appendBand` can do. -/
theorem appendBand_cases (cap : Nat) (opc : BitVec 8) (c : Coeffs) (cost : Nat) (s : State) :
    (s.N = cap ∧ appendBand cap opc c cost s = raise opc .ChainFull s) ∨
      (s.N ≠ cap ∧ appendBand cap opc c cost s =
        respond opc .OK s.countReg []
          (State.spend cost { s with bands := s.bands ++ [newBand c] })) := by
  by_cases h : s.N = cap
  · exact .inl ⟨h, by simp [appendBand, h]⟩
  · exact .inr ⟨h, by simp [appendBand, h]⟩

/-- `EQ_REMOVE` slot by slot (R174): the slots below stay, the later ones move down by one. -/
theorem removeBand_slot (s : State) (idx : BitVec 8) (j : Nat) :
    (s.removeBand idx).bands[j]? = if j < idx.toNat then s.bands[j]? else s.bands[j + 1]? := by
  rw [removeBand_bands, List.getElem?_eraseIdx]

theorem removeBand_N {s : State} {idx : BitVec 8} (h : idx.toNat < s.N) :
    (s.removeBand idx).N = s.N - 1 := by
  simp only [State.N] at h ⊢
  rw [removeBand_bands, List.length_eraseIdx, if_pos h]

/-! ### step -/

theorem step_idle {s : State} (h : s.cmdPort = []) : step s = .next s := by simp [step, h]

theorem step_reset {s : State} {rest : List HostEvent} (h : s.cmdPort = .reset :: rest) :
    step s = .next (hardwareReset s.dropEvent) := by simp [step, h]

theorem step_packet {s : State} {p : Packet} {i : Instr} {rest : List HostEvent}
    (h : s.cmdPort = .packet p :: rest) (hd : decode p = .ok i) : step s = exec i s.dropEvent := by
  simp [step, h, hd]

theorem step_illegal {s : State} {p : Packet} {e : DecodeError} {rest : List HostEvent}
    (h : s.cmdPort = .packet p :: rest) (hd : decode p = .error e) :
    step s = .next (answerIllegal p s.dropEvent) := by
  simp [step, h, hd]

end Sys2Proof.Machine
end

