-- ==== Sys2Proof/Laws/Exec.lean ====
section
/-!
SUPPORT. What each command answers, one lemma per shared shape, and once for all commands: every
command completes with one response whose status is the owed one.
-/

namespace Sys2Proof.Machine

/-- A meaning that ends in `respond` answers. -/
theorem answers_respond {i : Instr} {s s1 : State} {st : Status} {val : BitVec 8} {data : List Word}
    (h : exec i s = .next (respond i.opcode.byte st val data s1)) (hc : s1.cmdPort = s.cmdPort)
    (hr : s1.respPort = s.respPort) : Answers i s st val data s1.bands :=
  ⟨_, h, rfl, hc, by rw [respond_respPort, hr]⟩

/-- A meaning that ends in `raise` answers the error and changes nothing. -/
theorem answers_raise {i : Instr} {s : State} {st : Status}
    (h : exec i s = .next (raise i.opcode.byte st s)) : Answers i s st 0 [] s.bands :=
  ⟨_, h, rfl, rfl, rfl⟩

/-! ### The commands on a band -/

section band
variable {s : State} {idx : BitVec 8} {b : Band}

theorem band?_of_getElem? (h : s.bands[idx.toNat]? = some b) : s.band? idx = some b := h

theorem band?_of_le (h : s.N ≤ idx.toNat) : s.band? idx = none := band?_eq_none.mpr h

theorem answers_bqSetcoef (h : s.bands[idx.toNat]? = some b) (c : Coeffs) :
    Answers (.bqSetcoef idx c) s .OK 0 [] (s.bands.set idx.toNat { b with coef := c }) :=
  answers_respond (i := .bqSetcoef idx c) (s1 := s.putBand idx { b with coef := c })
    (congrArg _ (withBand_some (band?_of_getElem? h))) rfl rfl

theorem answers_bqReset (h : s.bands[idx.toNat]? = some b) :
    Answers (.bqReset idx) s .OK 0 [] (s.bands.set idx.toNat b.cleared) :=
  answers_respond (i := .bqReset idx) (s1 := s.putBand idx b.cleared)
    (congrArg _ (withBand_some (band?_of_getElem? h))) rfl rfl

theorem exec_bqProc (h : s.bands[idx.toNat]? = some b) (x : Word) :
    exec (.bqProc idx x) s = .next (respond 0x05 .OK 0 [(bqStep s.draws b.coef b.dly x).1]
      ((s.putBand idx { b with dly := (bqStep s.draws b.coef b.dly x).2 }).spend bqStepDraws)) :=
  congrArg _ (withBand_some (band?_of_getElem? h))

theorem answers_bqProc (h : s.bands[idx.toNat]? = some b) (x : Word) :
    Answers (.bqProc idx x) s .OK 0 [(bqStep s.draws b.coef b.dly x).1]
      (s.bands.set idx.toNat { b with dly := (bqStep s.draws b.coef b.dly x).2 }) :=
  answers_respond (i := .bqProc idx x) (exec_bqProc h x) rfl rfl

theorem exec_bqProcb (h : s.bands[idx.toNat]? = some b) (xs : List Word) :
    exec (.bqProcb idx xs) s = .next (respond 0x06 .OK 0 (bqBlock s.draws b.coef b.dly xs).1
      ((s.putBand idx { b with dly := (bqBlock s.draws b.coef b.dly xs).2 }).spend
        (bqStepDraws * xs.length))) :=
  congrArg _ (withBand_some (band?_of_getElem? h))

theorem answers_bqProcb (h : s.bands[idx.toNat]? = some b) (xs : List Word) :
    Answers (.bqProcb idx xs) s .OK 0 (bqBlock s.draws b.coef b.dly xs).1
      (s.bands.set idx.toNat { b with dly := (bqBlock s.draws b.coef b.dly xs).2 }) :=
  answers_respond (i := .bqProcb idx xs) (exec_bqProcb h xs) rfl rfl

theorem answers_rdBand (h : s.bands[idx.toNat]? = some b) :
    Answers (.rdBand idx) s .OK 0 b.words s.bands :=
  answers_respond (i := .rdBand idx) (s1 := s)
    (congrArg _ (withBand_some (band?_of_getElem? h))) rfl rfl

theorem answers_eqRemove (h : s.bands[idx.toNat]? = some b) :
    Answers (.eqRemove idx) s .OK 0 [] (s.bands.eraseIdx idx.toNat) :=
  answers_respond (i := .eqRemove idx) (s1 := s.removeBand idx)
    (congrArg _ (withBand_some (band?_of_getElem? h))) rfl rfl

/-- The commands that check nothing but the index, on an index that is not valid. -/
theorem answers_out_of_range {i : Instr} (hi : index? i = some idx) (hd : designRequest? i = none)
    (h : s.N ≤ idx.toNat) : Answers i s .IndexOutOfRange 0 [] s.bands := by
  have hb := band?_of_le h
  cases i <;> simp only [index?, designRequest?, Option.some.injEq, reduceCtorEq] at hi hd <;>
    subst hi <;> exact answers_raise (congrArg _ (withBand_none hb))

end band

/-! ### Design requests -/

section design
variable {s : State} {ft : FilterType} {p : DesignParams} {c : Coeffs}

theorem state_design_eq_none : s.design ft p = none ↔ validParams posZero ft p = false := by
  rw [State.design, design, validParams_nan _ posZero]
  cases validParams posZero ft p <;> simp

theorem answers_design_invalid (h : s.design ft p = none) :
    Answers (.design ft p) s .InvalidParameter 0 [] s.bands :=
  answers_raise (by simp [exec, execDesign, h, Instr.opcode])

theorem answers_design (h : s.design ft p = some c) :
    Answers (.design ft p) s .OK 0 c.words s.bands :=
  answers_respond (s1 := s.spend designDraws) (by simp [exec, execDesign, h, Instr.opcode]) rfl rfl

theorem answers_eqAdd_invalid (h : s.design ft p = none) :
    Answers (.eqAdd ft p) s .InvalidParameter 0 [] s.bands :=
  answers_raise (by simp [exec, execEqAdd, h, Instr.opcode])

theorem answers_eqAdd_full (h : s.design ft p = some c) (hN : s.N = Config.MAXBANDS) :
    Answers (.eqAdd ft p) s .ChainFull 0 [] s.bands :=
  answers_raise (by simp [exec, execEqAdd, h, appendBand, hN, Instr.opcode])

theorem answers_eqAdd (h : s.design ft p = some c) (hN : s.N ≠ Config.MAXBANDS) :
    Answers (.eqAdd ft p) s .OK s.countReg [] (s.bands ++ [newBand c]) :=
  answers_respond (s1 := State.spend designDraws { s with bands := s.bands ++ [newBand c] })
    (by simp [exec, execEqAdd, h, appendBand, hN, Instr.opcode]) rfl rfl

theorem answers_eqSet_invalid {idx : BitVec 8} (h : s.design ft p = none) :
    Answers (.eqSet idx ft p) s .InvalidParameter 0 [] s.bands :=
  answers_raise (by simp [exec, execEqSet, h, Instr.opcode])

theorem answers_eqSet_range {idx : BitVec 8} (h : s.design ft p = some c) (hN : s.N ≤ idx.toNat) :
    Answers (.eqSet idx ft p) s .IndexOutOfRange 0 [] s.bands :=
  answers_raise (by simp [exec, execEqSet, h, withBand_none (band?_of_le hN), Instr.opcode])

theorem answers_eqSet {idx : BitVec 8} {b : Band} (h : s.design ft p = some c)
    (hb : s.bands[idx.toNat]? = some b) :
    Answers (.eqSet idx ft p) s .OK 0 [] (s.bands.set idx.toNat { b with coef := c }) :=
  answers_respond (s1 := (s.putBand idx { b with coef := c }).spend designDraws)
    (by simp [exec, execEqSet, h, withBand_some (band?_of_getElem? hb), Instr.opcode]) rfl rfl

end design

/-! ### The other commands -/

section rest
variable {s : State}

theorem answers_bqNew_full (hN : s.N = Config.MAXBANDS) :
    Answers .bqNew s .ChainFull 0 [] s.bands :=
  answers_raise (by simp [exec, execBqNew, appendBand, hN, Instr.opcode])

theorem answers_bqNew (hN : s.N ≠ Config.MAXBANDS) :
    Answers .bqNew s .OK s.countReg [] (s.bands ++ [newBand passThrough]) :=
  answers_respond (s1 := State.spend 0 { s with bands := s.bands ++ [newBand passThrough] })
    (by simp [exec, execBqNew, appendBand, hN, Instr.opcode]) rfl rfl

theorem answers_eqReset : Answers .eqReset s .OK 0 [] (s.bands.map Band.cleared) :=
  ⟨_, rfl, rfl, rfl, rfl⟩

theorem answers_eqProc (x : Word) :
    Answers (.eqProc x) s .OK 0 [(eqStep s.draws s.bands x).1] (eqStep s.draws s.bands x).2 :=
  ⟨_, rfl, rfl, rfl, rfl⟩

theorem answers_eqProcb (xs : List Word) :
    Answers (.eqProcb xs) s .OK 0 (eqBlock s.draws s.bands xs).1 (eqBlock s.draws s.bands xs).2 :=
  ⟨_, rfl, rfl, rfl, rfl⟩

theorem answers_rdCount : Answers .rdCount s .OK s.countReg [] s.bands := ⟨_, rfl, rfl, rfl, rfl⟩

end rest

/-! ### Every command -/

/-- The bands a command leaves when it succeeds are at most one more. -/
def countAfter (i : Instr) (n : Nat) : Nat :=
  match i with
  | .bqNew => n + 1
  | .eqAdd _ _ => n + 1
  | .eqRemove _ => n - 1
  | _ => n

/-- VAL and the number of data words of a command that succeeds (R69). -/
def contents (i : Instr) (s : State) : BitVec 8 × Nat :=
  match i with
  | .design _ _ => (0, 5)
  | .bqNew => (s.countReg, 0)
  | .bqSetcoef _ _ => (0, 0)
  | .bqReset _ => (0, 0)
  | .bqProc _ _ => (0, 1)
  | .bqProcb _ xs => (0, xs.length)
  | .eqAdd _ _ => (s.countReg, 0)
  | .eqSet _ _ _ => (0, 0)
  | .eqRemove _ => (0, 0)
  | .eqReset => (0, 0)
  | .eqProc _ => (0, 1)
  | .eqProcb xs => (0, xs.length)
  | .rdCount => (s.countReg, 0)
  | .rdBand _ => (0, 7)

/-- Every command completes: the status is the owed one, an error changes nothing, and a success
leaves the number of bands its kind leaves. -/
theorem exec_answers (i : Instr) (s : State) :
    ∃ val data bands, Answers i s (owedStatus i s) val data bands ∧
      (owedStatus i s ≠ .OK → val = 0 ∧ data = [] ∧ bands = s.bands) ∧
      (owedStatus i s = .OK → bands.length = countAfter i s.N ∧ (val, data.length) = contents i s) ∧
      (i.wf = true → data.length ≤ MAXBLOCK) := by
  have err : ∀ {st : Status}, st ≠ .OK → owedStatus i s = st → Answers i s st 0 [] s.bands →
      ∃ val data bands, Answers i s (owedStatus i s) val data bands ∧
        (owedStatus i s ≠ .OK → val = 0 ∧ data = [] ∧ bands = s.bands) ∧
        (owedStatus i s = .OK → bands.length = countAfter i s.N ∧ (val, data.length) = contents i s) ∧
        (i.wf = true → data.length ≤ MAXBLOCK) := fun hne he ha =>
    ⟨0, [], s.bands, he ▸ ha, fun _ => ⟨rfl, rfl, rfl⟩, fun h => absurd (he.symm.trans h) hne,
      fun _ => Nat.zero_le _⟩
  have ok : ∀ {val : BitVec 8} {data : List Word} {bands : List Band}, owedStatus i s = .OK →
      Answers i s .OK val data bands → bands.length = countAfter i s.N ∧ (val, data.length) = contents i s →
      (i.wf = true → data.length ≤ MAXBLOCK) →
      ∃ val data bands, Answers i s (owedStatus i s) val data bands ∧
        (owedStatus i s ≠ .OK → val = 0 ∧ data = [] ∧ bands = s.bands) ∧
        (owedStatus i s = .OK → bands.length = countAfter i s.N ∧ (val, data.length) = contents i s) ∧
        (i.wf = true → data.length ≤ MAXBLOCK) := fun he ha hl hw =>
    ⟨_, _, _, he ▸ ha, fun h => absurd he h, fun _ => hl, hw⟩
  have small : ∀ n, n ≤ 7 → n ≤ MAXBLOCK := fun n h => le_trans h (by decide)
  have plain : ∀ {idx : BitVec 8}, index? i = some idx → designRequest? i = none →
      appends i = false →
      (s.N ≤ idx.toNat ∧ owedStatus i s = .IndexOutOfRange) ∨
      (owedStatus i s = .OK ∧ ∃ b, s.bands[idx.toNat]? = some b) := by
    intro idx h1 h2 h3
    by_cases h : s.N ≤ idx.toNat
    · exact .inl ⟨h, by simp [owedStatus, h1, h2, h]⟩
    · obtain ⟨b, hb⟩ := exists_band (not_le.mp h)
      exact .inr ⟨by simp [owedStatus, h1, h2, h3, h], b, hb⟩
  cases i with
  | design ft p =>
    cases h : s.design ft p with
    | none =>
      have hv := state_design_eq_none.mp h
      exact err (by decide) (by simp [owedStatus, designRequest?, hv]) (answers_design_invalid h)
    | some c =>
      have hv : validParams posZero ft p = true := by
        by_contra hc; rw [state_design_eq_none.mpr (by simpa using hc)] at h; cases h
      exact ok (by simp [owedStatus, designRequest?, hv, index?, appends]) (answers_design h)
        ⟨rfl, by simp [contents, Coeffs.words]⟩ fun _ => small _ (by simp [Coeffs.words])
  | bqNew =>
    by_cases hN : s.N = Config.MAXBANDS
    · exact err (by decide) (by simp [owedStatus, designRequest?, index?, appends, hN])
        (answers_bqNew_full hN)
    · exact ok (by simp [owedStatus, designRequest?, index?, appends, hN]) (answers_bqNew hN)
        ⟨by simp [countAfter, State.N], by simp [contents]⟩ fun _ => Nat.zero_le _
  | bqSetcoef idx c =>
    rcases plain (idx := idx) rfl rfl rfl with ⟨h, he⟩ | ⟨he, b, hb⟩
    · exact err (by decide) he (answers_out_of_range rfl rfl h)
    · exact ok he (answers_bqSetcoef hb c) ⟨by simp [countAfter, State.N], by simp [contents]⟩ fun _ => Nat.zero_le _
  | bqReset idx =>
    rcases plain (idx := idx) rfl rfl rfl with ⟨h, he⟩ | ⟨he, b, hb⟩
    · exact err (by decide) he (answers_out_of_range rfl rfl h)
    · exact ok he (answers_bqReset hb) ⟨by simp [countAfter, State.N], by simp [contents]⟩ fun _ => Nat.zero_le _
  | bqProc idx x =>
    rcases plain (idx := idx) rfl rfl rfl with ⟨h, he⟩ | ⟨he, b, hb⟩
    · exact err (by decide) he (answers_out_of_range rfl rfl h)
    · exact ok he (answers_bqProc hb x) ⟨by simp [countAfter, State.N], by simp [contents]⟩ fun _ => small _ (by simp)
  | bqProcb idx xs =>
    rcases plain (idx := idx) rfl rfl rfl with ⟨h, he⟩ | ⟨he, b, hb⟩
    · exact err (by decide) he (answers_out_of_range rfl rfl h)
    · exact ok he (answers_bqProcb hb xs) ⟨by simp [countAfter, State.N], by simp [contents]⟩ fun hw => by
        simpa [Instr.wf, blockFits] using hw
  | eqAdd ft p =>
    cases h : s.design ft p with
    | none =>
      have hv := state_design_eq_none.mp h
      exact err (by decide) (by simp [owedStatus, designRequest?, hv]) (answers_eqAdd_invalid h)
    | some c =>
      have hv : validParams posZero ft p = true := by
        by_contra hc; rw [state_design_eq_none.mpr (by simpa using hc)] at h; cases h
      by_cases hN : s.N = Config.MAXBANDS
      · exact err (by decide) (by simp [owedStatus, designRequest?, index?, appends, hN, hv])
          (answers_eqAdd_full h hN)
      · exact ok (by simp [owedStatus, designRequest?, index?, appends, hN, hv])
          (answers_eqAdd h hN) ⟨by simp [countAfter, State.N], by simp [contents]⟩ fun _ => Nat.zero_le _
  | eqSet idx ft p =>
    cases h : s.design ft p with
    | none =>
      have hv := state_design_eq_none.mp h
      exact err (by decide) (by simp [owedStatus, designRequest?, hv]) (answers_eqSet_invalid h)
    | some c =>
      have hv : validParams posZero ft p = true := by
        by_contra hc; rw [state_design_eq_none.mpr (by simpa using hc)] at h; cases h
      by_cases hN : s.N ≤ idx.toNat
      · exact err (by decide) (by simp [owedStatus, designRequest?, index?, hN, hv])
          (answers_eqSet_range h hN)
      · obtain ⟨b, hb⟩ := exists_band (not_le.mp hN)
        exact ok (by simp [owedStatus, designRequest?, index?, appends, hN, hv])
          (answers_eqSet h hb) ⟨by simp [countAfter, State.N], by simp [contents]⟩ fun _ => Nat.zero_le _
  | eqRemove idx =>
    rcases plain (idx := idx) rfl rfl rfl with ⟨h, he⟩ | ⟨he, b, hb⟩
    · exact err (by decide) he (answers_out_of_range rfl rfl h)
    · have hlt := (List.getElem?_eq_some_iff.mp hb).1
      exact ok he (answers_eqRemove hb)
        ⟨by simp [countAfter, State.N, List.length_eraseIdx, hlt], by simp [contents]⟩ fun _ => Nat.zero_le _
  | eqReset =>
    exact ok (by simp [owedStatus, designRequest?, index?, appends]) answers_eqReset
      ⟨by simp [countAfter, State.N], by simp [contents]⟩ fun _ => Nat.zero_le _
  | eqProc x =>
    exact ok (by simp [owedStatus, designRequest?, index?, appends]) (answers_eqProc x)
      ⟨by simp [countAfter, State.N], by simp [contents]⟩ fun _ => small _ (by simp)
  | eqProcb xs =>
    exact ok (by simp [owedStatus, designRequest?, index?, appends]) (answers_eqProcb xs)
      ⟨by simp [countAfter, State.N], by simp [contents]⟩ fun hw => by simpa [Instr.wf, blockFits] using hw
  | rdCount =>
    exact ok (by simp [owedStatus, designRequest?, index?, appends]) answers_rdCount ⟨rfl, rfl⟩
      fun _ => Nat.zero_le _
  | rdBand idx =>
    rcases plain (idx := idx) rfl rfl rfl with ⟨h, he⟩ | ⟨he, b, hb⟩
    · exact err (by decide) he (answers_out_of_range rfl rfl h)
    · exact ok he (answers_rdBand hb) ⟨rfl, by simp [contents, Band.words, Coeffs.words]⟩ fun _ => small _ (by simp [Band.words, Coeffs.words])

/-- `owedStatus` does not look at the ports. -/
theorem owedStatus_dropEvent (i : Instr) (s : State) :
    owedStatus i s.dropEvent = owedStatus i s := rfl

end Sys2Proof.Machine
end

