-- ==== Sys2Proof/Laws/PerInstr.lean ====
section
/-!
SUPPORT. Statements made of every command, one lemma per constructor of `Instr`.
EncodesItsRow: the encoder's packet of a well-formed command fits the command's row of
spec/opcode_table.json (R67, R73).
-/

namespace Sys2Proof.Laws.EncodesItsRow

/-- The packet of a well-formed command fits its row of the opcode table. -/
def Statement (i : Instr) : Prop := i.wf = true → i.opcode.row.accepts (encode i)

/-- Only the bits of the fields a row leaves open differ between the headers of a command. -/
theorem headerWord_mask (opc idx : BitVec 8) (ft : BitVec 3) (m r : Word)
    (h : ∀ i, i < 64 → ((headerWord opc idx ft).getLsbD i && m.getLsbD i) = r.getLsbD i) :
    headerWord opc idx ft &&& m = r := by
  apply bitvec_ext_of_lsb
  intro i hi
  rw [BitVec.getLsbD_and]; exact h i hi

/-- The header of a command that uses no field. -/
theorem plain_mask (opc : BitVec 8) :
    headerWord opc 0 0 &&& 0xFFFFFFFFFFFFFFFF = BitVec.setWidth 64 opc := by
  revert opc; decide

theorem index_mask (opc idx : BitVec 8) :
    headerWord opc idx 0 &&& 0xFFFFFFFFFFFF00FF = BitVec.setWidth 64 opc := by
  apply headerWord_mask
  intro i hi
  simp only [headerWord, BitVec.getLsbD_append, BitVec.getLsbD_setWidth]
  interval_cases i <;> simp

theorem type_mask (opc : BitVec 8) (ft : BitVec 3) :
    headerWord opc 0 ft &&& 0xFFFFFFFFFFF8FFFF = BitVec.setWidth 64 opc := by
  apply headerWord_mask
  intro i hi
  simp only [headerWord, BitVec.getLsbD_append, BitVec.getLsbD_setWidth]
  interval_cases i <;> simp

theorem index_type_mask (opc idx : BitVec 8) (ft : BitVec 3) :
    headerWord opc idx ft &&& 0xFFFFFFFFFFF800FF = BitVec.setWidth 64 opc := by
  apply headerWord_mask
  intro i hi
  simp only [headerWord, BitVec.getLsbD_append, BitVec.getLsbD_setWidth]
  interval_cases i <;> simp

theorem design (ft : FilterType) (p : DesignParams) : Statement (.design ft p) := fun _ =>
  ⟨_, _, rfl, type_mask 0x01 ft.code, le_refl 4, le_refl 4⟩

theorem bqNew : Statement .bqNew := fun _ =>
  ⟨_, _, rfl, plain_mask 0x02, le_refl 0, le_refl 0⟩

theorem bqSetcoef (idx : BitVec 8) (c : Coeffs) : Statement (.bqSetcoef idx c) := fun _ =>
  ⟨_, _, rfl, index_mask 0x03 idx, le_refl 5, le_refl 5⟩

theorem bqReset (idx : BitVec 8) : Statement (.bqReset idx) := fun _ =>
  ⟨_, _, rfl, index_mask 0x04 idx, le_refl 0, le_refl 0⟩

theorem bqProc (idx : BitVec 8) (x : Word) : Statement (.bqProc idx x) := fun _ =>
  ⟨_, _, rfl, index_mask 0x05 idx, le_refl 1, le_refl 1⟩

theorem bqProcb (idx : BitVec 8) (xs : List Word) : Statement (.bqProcb idx xs) := fun h =>
  ⟨_, _, rfl, index_mask 0x06 idx, Nat.zero_le _, of_decide_eq_true h⟩

theorem eqAdd (ft : FilterType) (p : DesignParams) : Statement (.eqAdd ft p) := fun _ =>
  ⟨_, _, rfl, type_mask 0x08 ft.code, le_refl 4, le_refl 4⟩

theorem eqSet (idx : BitVec 8) (ft : FilterType) (p : DesignParams) :
    Statement (.eqSet idx ft p) := fun _ =>
  ⟨_, _, rfl, index_type_mask 0x09 idx ft.code, le_refl 4, le_refl 4⟩

theorem eqRemove (idx : BitVec 8) : Statement (.eqRemove idx) := fun _ =>
  ⟨_, _, rfl, index_mask 0x0A idx, le_refl 0, le_refl 0⟩

theorem eqReset : Statement .eqReset := fun _ =>
  ⟨_, _, rfl, plain_mask 0x0B, le_refl 0, le_refl 0⟩

theorem eqProc (x : Word) : Statement (.eqProc x) := fun _ =>
  ⟨_, _, rfl, plain_mask 0x0C, le_refl 1, le_refl 1⟩

theorem eqProcb (xs : List Word) : Statement (.eqProcb xs) := fun h =>
  ⟨_, _, rfl, plain_mask 0x0D, Nat.zero_le _, of_decide_eq_true h⟩

theorem rdCount : Statement .rdCount := fun _ =>
  ⟨_, _, rfl, plain_mask 0x10, le_refl 0, le_refl 0⟩

theorem rdBand (idx : BitVec 8) : Statement (.rdBand idx) := fun _ =>
  ⟨_, _, rfl, index_mask 0x11 idx, le_refl 0, le_refl 0⟩

end Sys2Proof.Laws.EncodesItsRow
end

