-- ==== Sys2Proof/Laws/Values.lean ====
section
/-!
SUPPORT. Values of numbers: patterns, units and rationals have one order (R90, R97); a rounding of a
representable number is that number (R91); doubles and halves; quotients by 1 and the sign of a
quotient (R95, R97); sums with a zero (R92); the words of special products and quotients (R94, R95); what
a faithful rounding of an F64 and of a number beyond them is (R98 to R101).
-/

namespace Sys2Proof.Machine

/-! ### Classes -/

theorem isNaN_signedInf (s : Bool) : isNaN (signedInf s) = false := by cases s <;> decide

theorem isNaN_signedZero (s : Bool) : isNaN (signedZero s) = false := by cases s <;> decide

theorem isNaN_of_isInf {a : Word} (h : isInf a = true) : isNaN a = false := by
  rw [isInf_iff] at h
  rw [← Bool.not_eq_true, isNaN_iff]; omega

theorem isInf_of_isZero {a : Word} (h : isZero a = true) : isInf a = false := isInf_of_isFinite
    (isFinite_of_isZero h)

theorem isNaN_of_isZero {a : Word} (h : isZero a = true) : isNaN a = false := isNaN_of_isFinite
    (isFinite_of_isZero h)

theorem magUnits_pos {a : Word} (h : isZero a = false) : 0 < magUnits a :=
    Nat.pos_of_ne_zero fun h' => by rw [magUnits_eq_zero, h] at h'; cases h'

theorem fneg_fneg (w : Word) : fneg (fneg w) = w := by
  rw [fneg, fneg, BitVec.xor_assoc, BitVec.xor_self, BitVec.xor_zero]

theorem zero_cases {z : Word} (h : isZero z = true) : z = posZero ∨ z = negZero := by
  have hm := (isZero_iff z).mp h
  cases hs : signBit z
  · left; exact word_ext (by rw [hs]; decide) (by rw [hm]; decide)
  · right; exact word_ext (by rw [hs]; decide) (by rw [hm]; decide)

/-! ### Order -/

theorem toRat_lt {a b : Word} : toRat a < toRat b ↔ units a < units b := by
  rw [toRat, toRat, div_lt_div_iff_of_pos_right (by positivity)]; exact_mod_cast Iff.rfl

theorem toRat_eq {a b : Word} : toRat a = toRat b ↔ units a = units b := by
  rw [toRat, toRat, div_left_inj' (by positivity)]; exact_mod_cast Iff.rfl

theorem patUnits_mono {m m' : Nat} (h : m < m') : patUnits m < patUnits m' := by
  have key : ∀ m, patUnits m < patUnits (m + 1) := by
    intro m
    simp only [patUnits]
    by_cases hc : (m + 1) % 2 ^ 52 = 0
    · have h1 : m % 2 ^ 52 = 2 ^ 52 - 1 := by omega
      have h2 : (m + 1) / 2 ^ 52 = m / 2 ^ 52 + 1 := by omega
      rw [hc, h1, h2, if_neg (Nat.succ_ne_zero _), Nat.add_sub_cancel]
      split_ifs with h0
      · rw [h0]; decide
      · obtain ⟨e, he⟩ : ∃ e, m / 2 ^ 52 = e + 1 := ⟨m / 2 ^ 52 - 1, by omega⟩
        rw [he, Nat.add_sub_cancel, pow_succ]
        have : 0 < 2 ^ e := Nat.two_pow_pos e
        omega
    · have h1 : (m + 1) % 2 ^ 52 = m % 2 ^ 52 + 1 := by omega
      have h2 : (m + 1) / 2 ^ 52 = m / 2 ^ 52 := by omega
      rw [h1, h2]
      split_ifs
      · omega
      · exact Nat.mul_lt_mul_of_pos_right (by omega) (Nat.two_pow_pos _)
  exact strictMono_nat_of_lt_succ key h

theorem units_orderKey_lt {a b : Word} : orderKey a < orderKey b ↔ units a < units b := by
  have hm : StrictMono patUnits := fun _ _ => patUnits_mono
  have h0 : patUnits 0 = 0 := by decide
  have e := magUnits_eq_patUnits
  have i1 := hm.lt_iff_lt (a := magField a) (b := magField b)
  have i2 := hm.lt_iff_lt (a := magField b) (b := magField a)
  have i3 := hm.lt_iff_lt (a := 0) (b := magField b)
  have i4 := hm.lt_iff_lt (a := 0) (b := magField a)
  simp only [orderKey, units, e] at *
  cases signBit a <;> cases signBit b <;> simp <;> omega

theorem units_orderKey_eq {a b : Word} : orderKey a = orderKey b ↔ units a = units b := by
  have h1 := units_orderKey_lt (a := a) (b := b)
  have h2 := units_orderKey_lt (a := b) (b := a)
  omega

theorem flt_iff {a b : Word} (ha : isFinite a = true) (hb : isFinite b = true) : flt a b = true ↔
    toRat a < toRat b := by
  rw [toRat_lt, ← units_orderKey_lt]
  simp [flt, isNaN_of_isFinite ha, isNaN_of_isFinite hb]

theorem feq_iff {a b : Word} (ha : isFinite a = true) (hb : isFinite b = true) : feq a b = true ↔
    toRat a = toRat b := by
  rw [toRat_eq, ← units_orderKey_eq]
  simp [feq, isNaN_of_isFinite ha, isNaN_of_isFinite hb]

theorem orderKey_bound {a : Word} (h : isFinite a = true) : -(infMag : Int) < orderKey a ∧
    orderKey a < infMag := by
  have := (isFinite_iff a).mp h
  simp only [orderKey]; split_ifs <;> omega

theorem flt_zero_pos {a : Word} (ha : isFinite a = true) : flt posZero a = true ↔ 0 < toRat a := by
  rw [flt_iff (by decide) ha, toRat_of_isZero (by decide)]

theorem isFinite_of_flt {a b : Word} (h0 : flt posZero a = true) (h : flt a b = true)
    : isFinite a = true ∧ isNaN b = false := by
  simp only [flt, Bool.and_eq_true, Bool.not_eq_true', decide_eq_true_eq] at h h0
  refine ⟨?_, h.1.2⟩
  rcases class_cases a with c | c | c
  · rw [h.1.1] at c; cases c
  · exfalso
    have hb : ¬ isNaN b = true := by rw [h.1.2]; simp
    rw [isNaN_iff] at hb
    have ca := (isInf_iff a).mp c
    have h2 := h.2
    have h02 := h0.2
    have k : orderKey posZero = 0 := by decide
    rw [k] at h02
    simp only [orderKey, ca] at h2 h02
    split_ifs at h2 h02 <;> omega
  · exact c

theorem feq_self {y : Word} (h : isNaN y = false) : feq y y = true := by simp [feq, h]

theorem feq_zero {y : Word} (h : isZero y = true) : feq y posZero = true := by
  have h1 := isNaN_of_isFinite (isFinite_of_isZero h)
  have h2 := (isZero_iff y).mp h
  have : orderKey y = 0 := by simp [orderKey, h2]
  simp only [feq, h1, this]; decide

/-! ### Units and rationals -/

theorem toRat_mul_real (a : Word) : (toRat a : ℝ) * 2 ^ 1074 = if signBit a then -(magUnits a : ℝ)
    else magUnits a := by
  rw [toRat_cast, units_cast]
  exact div_mul_cancel₀ _ (by positivity)

theorem unitsPerOne_cast : ((unitsPerOne : ℕ) : ℝ) = 2 ^ 1074 := by
  rw [unitsPerOne]; exact Nat.cast_pow 2 1074

theorem toRat_mul_rat (a : Word) : toRat a * 2 ^ 1074 = units a := by
  rw [toRat]; exact div_mul_cancel₀ _ (by positivity)

theorem toRat_of_units {a : Word} {x : ℚ} (h : (units a : ℚ) = x * 2 ^ 1074) : toRat a = x := by
  rw [toRat, h]; exact mul_div_cancel_right₀ _ (by positivity)

theorem toRat_of_real {w : Word} {x : ℚ} (h : (toRat w : ℝ) = (x : ℝ)) : toRat w = x := by
  exact_mod_cast h

theorem units_packMag {neg : Bool} {m : Nat} (h : m < 2 ^ 63) : units (packMag neg m)
    = if neg then -(patUnits m : ℤ) else (patUnits m : ℤ) := by
  rw [units, signBit_packMag h, magUnits_eq_patUnits, magField_packMag h]

theorem maxFinite_units : (maxFinite : ℚ) * 2 ^ 1074 = (2 ^ 53 - 1) * 2 ^ 2045 := by
  rw [maxFinite, mul_assoc, ← pow_add]

theorem magUnits_two : magUnits two = 2 * unitsPerOne := by
  have e1 : expField two = 1024 := by decide
  have e2 : fracField two = 0 := by decide
  rw [magUnits, e1, e2, unitsPerOne, if_neg (by decide), Nat.add_zero, ← pow_add, ← pow_succ']

theorem toRat_two : toRat two = 2 := by
  apply toRat_of_units
  have : units two = 2 * (unitsPerOne : ℤ) := by
    rw [units, show signBit two = false by decide, magUnits_two, if_neg (by decide)]
    push_cast
    ring
  rw [this, unitsPerOne]
  push_cast
  rfl

theorem toRat_minusTwo : toRat minusTwo = -2 := by
  rw [show minusTwo = fneg two by decide, toRat_fneg, toRat_two]

/-! ### Roundings that are exact -/

theorem finite_lt_overflow {v : Word} (hv : isFinite v = true) : |(toRat v : ℝ)| < overflowBound :=
    by
  have h : (magUnits v : ℝ) < overflowUnits := by
    rcases roundMag_nearest (magUnits v * 1) (d := 1) (by decide) with ⟨-, g⟩ | ⟨g, -⟩
    · rw [roundMag_magUnits (by decide) hv] at g
      have := (isFinite_iff v).mp hv
      omega
    · simpa using g
  have hC : (0 : ℝ) < 2 ^ 1074 := by positivity
  rw [toRat_cast, abs_div, abs_units]
  rw [← overflowBound_units] at h
  generalize (2 : ℝ) ^ 1074 = C at *
  rw [abs_of_pos hC, div_lt_iff₀ hC]
  exact h

theorem exact_of_rounds {x : ℝ} {w : Word} {v : Word} (h : RoundsNearestEven x w)
    (hv : isFinite v = true) (e : (toRat v : ℝ) = x) :
    isFinite w = true ∧ (toRat w : ℝ) = x := by
  have hv' := finite_lt_overflow hv
  rw [e] at hv'
  rcases h with ⟨h, -⟩ | ⟨h, -⟩ | ⟨-, hf, -, h⟩
  · have := (abs_lt.mp hv').2; linarith
  · have := (abs_lt.mp hv').1; linarith
  · have := (h v hv).1
    rw [e, sub_self, abs_zero] at this
    have := abs_nonpos_iff.mp this
    exact ⟨hf, by linarith⟩

theorem double_repr {a : Word} (ha : isFinite a = true) (h : |2 * toRat a| ≤ maxFinite) :
    ∃ v, isFinite v = true ∧ toRat v = 2 * toRat a := by
  have hf := fracField_lt a
  have hs := magField_split a
  have hlt := (isFinite_iff a).mp ha
  have key : ∃ m, m < infMag ∧ patUnits m = 2 * magUnits a := by
    by_cases he : expField a = 0
    · refine ⟨0 * 2 ^ 52 + 2 * fracField a, by simp only [infMag]; omega, ?_⟩
      rw [patUnits_scaled (by omega) (.inl rfl), magUnits, if_pos he]; simp
    · have he46 : expField a ≠ 2046 := by
        intro he46
        have h1 : |2 * toRat a| * 2 ^ 1074 ≤ maxFinite * 2 ^ 1074 := mul_le_mul_of_nonneg_right h
            (by positivity)
        rw [maxFinite_units, abs_mul, mul_assoc,
            show |toRat a| * 2 ^ 1074 = |toRat a * 2 ^ 1074| by rw [abs_mul, abs_of_pos (show (0:ℚ)
            < 2 ^ 1074 by positivity)], toRat_mul_rat] at h1
        have h2 : |(units a : ℚ)| = magUnits a := by
          rw [← Int.cast_abs, Int.abs_eq_natAbs, units_natAbs]; simp
        rw [h2, magUnits, if_neg he, he46, show 2046 - 1 = 2045 from rfl, abs_of_pos (by norm_num :
            (0:ℚ) < 2)] at h1
        push_cast at h1
        have hp : (0 : ℚ) < 2 ^ 2045 := by positivity
        have hfr : (0 : ℚ) ≤ fracField a := Nat.cast_nonneg _
        generalize (2 : ℚ) ^ 2045 = P at *
        nlinarith
      refine ⟨(expField a) * 2 ^ 52 + (2 ^ 52 + fracField a), by simp only [infMag] at *; omega, ?_⟩
      rw [patUnits_scaled (by omega) (.inr (by omega)), magUnits, if_neg he]
      obtain ⟨e, he'⟩ : ∃ e, expField a = e + 1 := ⟨expField a - 1, by omega⟩
      rw [he', Nat.add_sub_cancel, pow_succ]; ring
  obtain ⟨m, hm, hp⟩ := key
  have hm' : m < 2 ^ 63 := lt_trans hm (by decide)
  refine ⟨packMag (signBit a) m, by rw [isFinite_iff, magField_packMag hm']; exact hm,
      toRat_of_units ?_⟩
  rw [units_packMag hm', hp, mul_assoc, toRat_mul_rat, units]
  cases signBit a <;> simp

theorem half_repr {a : Word} (ha : isFinite a = true) (h : 2 ≤ expField a) :
    ∃ v, isFinite v = true ∧ toRat v = toRat a / 2 := by
  have hf := fracField_lt a
  have hs := magField_split a
  have hlt := (isFinite_iff a).mp ha
  have key : ∃ m, m < infMag ∧ 2 * patUnits m = magUnits a := by
    refine ⟨(expField a - 2) * 2 ^ 52 + (2 ^ 52 + fracField a), by simp only [infMag] at *; omega,
        ?_⟩
    rw [patUnits_scaled (by omega) (.inr (by omega)), magUnits, if_neg (by omega)]
    obtain ⟨e, he'⟩ : ∃ e, expField a = e + 2 := ⟨expField a - 2, by omega⟩
    rw [he', Nat.add_sub_cancel, show e + 2 - 1 = e + 1 by omega, pow_succ]; ring
  obtain ⟨m, hm, hp⟩ := key
  have hm' : m < 2 ^ 63 := lt_trans hm (by decide)
  refine ⟨packMag (signBit a) m, by rw [isFinite_iff, magField_packMag hm']; exact hm,
      toRat_of_units ?_⟩
  rw [div_mul_eq_mul_div, toRat_mul_rat, units_packMag hm', units, ← hp]
  cases signBit a <;> simp
  ring

theorem half_cast (M : Nat) {U : Nat} (hU : 0 < U) : ((M * U : ℕ) : ℝ) / ((2 * U : ℕ) : ℝ)
    = M / 2 := by
  have : (0 : ℝ) < U := by exact_mod_cast hU
  push_cast; field_simp

theorem isFinite_half {n a : Word} (ha : isFinite a = true) : isFinite (fdiv n a two) = true := by
  have h1 : isNaN two = false := by decide
  have h2 : isInf two = false := by decide
  have h3 : isZero two = false := by decide
  have e : fdiv n a two = roundTo (signBit a != signBit two) (magUnits a * unitsPerOne)
      (magUnits two) := by
    simp only [fdiv, isNaN_of_isFinite ha, isInf_of_isFinite ha, h1, h2, h3, Bool.or_self,
        Bool.false_eq_true, if_false]
  rw [e, isFinite_iff, roundTo, magField_packMag (roundMag_lt _ _)]
  have hpos : 0 < magUnits two :=
      Nat.pos_of_ne_zero fun h => by rw [magUnits_eq_zero] at h; exact absurd h (by decide)
  rcases roundMag_nearest (magUnits a * unitsPerOne) hpos with ⟨h, -⟩ | ⟨-, h, -⟩
  · exfalso
    have hle : (magUnits a : ℝ) < overflowUnits := by
      rcases roundMag_nearest (magUnits a * 1) (d := 1) (by decide) with ⟨-, g⟩ | ⟨g, -⟩
      · rw [roundMag_magUnits (by decide) ha] at g
        have := (isFinite_iff a).mp ha
        omega
      · simpa using g
    have h2' : magUnits two = 2 * unitsPerOne := by
      have e1 : expField two = 1024 := by decide
      have e2 : fracField two = 0 := by decide
      rw [magUnits, e1, e2, unitsPerOne, if_neg (by decide), Nat.add_zero, ← pow_add, ← pow_succ']
    rw [h2'] at h
    have hu : (0 : ℝ) < unitsPerOne := by exact_mod_cast unitsPerOne_pos
    have e2 : ((magUnits a * unitsPerOne : ℕ) : ℝ) / ((2 * unitsPerOne : ℕ) : ℝ) = magUnits a / 2 :=
        by
      exact half_cast _ unitsPerOne_pos
    rw [e2] at h
    have : (0 : ℝ) ≤ magUnits a := Nat.cast_nonneg _
    linarith
  · exact h

/-! ### Quotients and sums -/

theorem fdiv_fneg (n a b : Word) (hn : isNaN n = true) : SameF64 (fdiv n (fneg a) b) (fneg
    (fdiv n a b)) := by
  have e : ∀ m, fneg (packMag false m) = packMag true m → True := fun _ _ => trivial
  have hpack : ∀ (s : Bool) (m : Nat), m < 2 ^ 63 → fneg (packMag s m) = packMag (!s) m := by
    intro s m hm
    apply word_ext
    · rw [signBit_fneg, signBit_packMag hm, signBit_packMag hm]
    · rw [magField_fneg, magField_packMag hm, magField_packMag hm]
  have hround : ∀ (s : Bool) (x y : Nat), fneg (roundTo s x y) = roundTo (!s) x y :=
      fun s x y => hpack s _ (roundMag_lt x y)
  have hinf : ∀ s, fneg (signedInf s) = signedInf (!s) := by decide
  have hzero : ∀ s, fneg (signedZero s) = signedZero (!s) := by decide
  have hs : (signBit (fneg a) != signBit b) = !(signBit a != signBit b) := by
    rw [signBit_fneg]; cases signBit a <;> cases signBit b <;> rfl
  simp only [fdiv, isNaN_fneg, isInf_fneg, isZero_fneg, magUnits_fneg, hs]
  split_ifs
  · exact .inr ⟨hn, by simpa using hn⟩
  · exact .inr ⟨hn, by simpa using hn⟩
  · exact .inl (hinf _).symm
  · exact .inl (hzero _).symm
  · exact .inr ⟨hn, by simpa using hn⟩
  · exact .inl (hinf _).symm
  · exact .inl (hround _ _ _).symm

theorem fdiv_one {n x : Word} (hx : isNaN x = false) : fdiv n x one = x := by
  have h1 : isNaN one = false := by decide
  have h2 : isInf one = false := by decide
  have h3 : isZero one = false := by decide
  have h4 : signBit one = false := by decide
  rcases class_cases x with h | h | h
  · rw [hx] at h; cases h
  · have hm := (isInf_iff x).mp h
    have : signedInf (signBit x) = x := by
      apply word_ext
      · cases hs : signBit x <;> decide
      · rw [hm]; cases signBit x <;> decide
    simp [fdiv, hx, h1, h, h2, h4, this]
  · have hr := roundTo_magUnits (w := x) (d := unitsPerOne) unitsPerOne_pos h
    simp only [fdiv, hx, h1, isInf_of_isFinite h, h2, h3, h4, Bool.or_self, Bool.false_eq_true,
        if_false, magUnits_one, Bool.bne_false]
    exact hr

theorem same_one {n x : Word} (hn : isNaN n = true) :
    SameF64 (fdiv n x one) x ∧ SameF64 (fmul n x one) x := by
  cases hx : isNaN x with
  | true =>
    refine ⟨.inr ⟨?_, hx⟩, .inr ⟨?_, hx⟩⟩
    · rw [fdiv_nan (.inl hx)]; exact hn
    · rw [fmul_nan (.inl hx)]; exact hn
  | false => exact ⟨.inl (fdiv_one hx), .inl (fmul_one_right hx)⟩

theorem self_div {n x y : Word} (hn : isNaN n = true) (h : SameF64 x y) : fdiv n x y = one ∨ isNaN
    (fdiv n x y) = true := by
  rcases h with rfl | ⟨h1, h2⟩
  · exact fdiv_self n x hn
  · right; rw [fdiv_nan (.inl h1)]; exact hn

theorem fadd_zeros (n : Word) : fadd n posZero posZero = posZero ∧
    fadd n negZero negZero = negZero ∧
    fadd n posZero negZero = posZero ∧ fadd n negZero posZero = posZero := by
  have zp : ∀ z : Word, isZero z = true → isNaN z = false ∧ isInf z = false ∧ units z = 0 :=
      fun z h => ⟨isNaN_of_isFinite (isFinite_of_isZero h), isInf_of_isFinite
      (isFinite_of_isZero h), units_eq_zero.mpr h⟩
  have hp := zp posZero (by decide)
  have hm := zp negZero (by decide)
  have s1 : signBit posZero = false := by decide
  have s2 : signBit negZero = true := by decide
  refine ⟨?_, ?_, ?_, ?_⟩ <;> simp [fadd, hp, hm, s1, s2, signedZero]

theorem fadd_zero_cases {n x z : Word} (hx : isNaN x = false) (hz : isZero z = true) :
    feq (fadd n x z) x = true ∧ (¬ (x = negZero ∧ z = posZero) → fadd n x z = x) ∧ (x = negZero →
        z = posZero → fadd n x z = posZero) := by
  cases h0 : isZero x with
  | false =>
    have := fadd_zero_right (nan := n) hx h0 hz
    rw [this]
    exact ⟨feq_self hx, fun _ => rfl, fun h => by subst h; exact absurd h0 (by decide)⟩
  | true =>
    obtain ⟨f1, f2, f3, f4⟩ := fadd_zeros n
    rcases zero_cases h0 with rfl | rfl <;> rcases zero_cases hz with rfl | rfl
    · rw [f1]; exact ⟨by decide, fun _ => rfl, fun h => absurd h (by decide)⟩
    · rw [f3]; exact ⟨by decide, fun _ => rfl, fun h => absurd h (by decide)⟩
    · rw [f4]; exact ⟨by decide, fun h => absurd ⟨rfl, rfl⟩ h, fun _ _ => rfl⟩
    · rw [f2]; exact ⟨by decide, fun _ => rfl, fun _ h => absurd h (by decide)⟩

/-! ### Special results -/

theorem isInf_ext {a b : Word} (ha : isInf a = true) (hb : isInf b = true)
    (hs : signBit a = signBit b) : a = b :=
  word_ext hs (((isInf_iff a).mp ha).trans ((isInf_iff b).mp hb).symm)

theorem fadd_comm (nan a b : Word) : fadd nan a b = fadd nan b a := by
  simp only [fadd, Bool.or_comm (isNaN b), Int.add_comm (units b), Bool.and_comm (signBit b)]
  split_ifs <;> simp_all
  exact isInf_ext ‹_› ‹_› ‹_›

/-- An infinity times a number other than zero (R94). -/
theorem fmul_inf {nan a b : Word} (ha : isInf a = true) (hb : isNaN b = false)
    (hz : isZero b = false) : fmul nan a b = signedInf (signBit a != signBit b) := by
  simp [fmul, isNaN_of_isInf ha, ha, hb, hz]

/-- A zero times a finite number (R94). -/
theorem fmul_zero_left {nan z x : Word} (hz : isZero z = true) (hx : isFinite x = true) :
    fmul nan z x = signedZero (signBit z != signBit x) := by
  rw [fmul_comm, fmul_zero_right hx hz, bne_comm]

/-- A number other than zero over a zero (R95). -/
theorem fdiv_zero {nan a b : Word} (ha : isNaN a = false) (h0 : isZero a = false)
    (hb : isZero b = true) : fdiv nan a b = signedInf (signBit a != signBit b) := by
  cases hi : isInf a <;> simp [fdiv, ha, h0, hb, hi, isNaN_of_isZero hb, isInf_of_isZero hb]

/-- An infinity over a finite number (R95). -/
theorem fdiv_inf_left {nan a b : Word} (ha : isInf a = true) (hb : isFinite b = true) :
    fdiv nan a b = signedInf (signBit a != signBit b) := by
  simp [fdiv, isNaN_of_isInf ha, ha, isNaN_of_isFinite hb, isInf_of_isFinite hb]

/-- A finite number over an infinity (R95). -/
theorem fdiv_inf_right {nan a b : Word} (ha : isFinite a = true) (hb : isInf b = true) :
    fdiv nan a b = signedZero (signBit a != signBit b) := by
  simp [fdiv, isNaN_of_isInf hb, hb, isNaN_of_isFinite ha, isInf_of_isFinite ha]

/-- A zero over a number other than zero (R95). -/
theorem fdiv_zero_left {nan a b : Word} (ha : isZero a = true) (hb : isNaN b = false)
    (h0 : isZero b = false) : fdiv nan a b = signedZero (signBit a != signBit b) := by
  cases hi : isInf b
  · simp only [fdiv, isNaN_of_isZero ha, isInf_of_isZero ha, hb, hi, h0, Bool.or_self,
      Bool.false_eq_true, if_false, magUnits_eq_zero.mpr ha, Nat.zero_mul, roundTo, roundMag_zero]
    cases signBit a != signBit b <;> decide
  · exact fdiv_inf_right (isFinite_of_isZero ha) hi

/-- Numbers other than zero with one value are one word (R90). -/
theorem eq_of_toRat {a b : Word} (h0 : isZero a = false) (h : toRat a = toRat b) : a = b := by
  have hk := units_orderKey_eq.mpr (toRat_eq.mp h)
  have ha : magField a ≠ 0 := fun hc => by rw [(isZero_iff a).mpr hc] at h0; cases h0
  simp only [orderKey] at hk
  cases hs : signBit a <;> cases ht : signBit b <;>
    simp only [hs, ht, if_true, Bool.false_eq_true, if_false] at hk
  · exact word_ext (hs.trans ht.symm) (by omega)
  · omega
  · omega
  · exact word_ext (hs.trans ht.symm) (by omega)

theorem abs_toRat_le_maxFinite {v : Word} (hv : isFinite v = true) : |toRat v| ≤ maxFinite := by
  have key : ∀ u : Word, isFinite u = true → toRat u ≤ maxFinite := fun u hu => by
    rw [← toRat_maxWord]
    refine not_lt.mp fun hc => ?_
    have h1 := units_orderKey_lt.mpr (toRat_lt.mp hc)
    have h2 : orderKey maxWord = infMag - 1 := by decide
    have h3 := (orderKey_bound hu).2
    omega
  have hn := key (fneg v) (by rw [isFinite_fneg]; exact hv)
  rw [toRat_fneg] at hn
  exact abs_le.mpr ⟨by linarith, key v hv⟩

/-- A faithful rounding of an F64 is that F64's value (R98 to R101). -/
theorem faithful_exact {r : ℝ} {y v : Word} (h : Faithful r y) (hv : isFinite v = true)
    (e : (toRat v : ℝ) = r) : isFinite y = true ∧ toRat y = toRat v := by
  have hb := abs_le.mp (abs_toRat_le_maxFinite hv)
  rcases h with ⟨hf, -, ⟨h1, h2⟩ | ⟨h1, h2⟩⟩ | ⟨-, h⟩ | ⟨-, h⟩
  · have a : toRat y ≤ toRat v := by rw [← e] at h1; exact_mod_cast h1
    exact ⟨hf, le_antisymm a (h2 v hv e.le)⟩
  · have a : toRat v ≤ toRat y := by rw [← e] at h1; exact_mod_cast h1
    exact ⟨hf, le_antisymm (h2 v hv e.ge) a⟩
  · have : toRat v ≤ maxFinite := hb.2
    rw [← e] at h
    exact absurd h (not_lt.mpr (by exact_mod_cast this))
  · have : -maxFinite ≤ toRat v := hb.1
    rw [← e] at h
    exact absurd h (not_lt.mpr (by exact_mod_cast this))

/-- A faithful rounding beyond the numbers is the infinity of that sign (R100, R101). -/
theorem faithful_overflow {r : ℝ} {y : Word} (h : Faithful r y) (hr : (2 : ℝ) ^ 1024 ≤ |r|) :
    y = signedInf (decide (r < 0)) := by
  have hm : (0 : ℝ) < maxFinite := lt_of_lt_of_le one_pos one_le_maxFinite
  rcases h with ⟨-, h, -⟩ | ⟨rfl, h⟩ | ⟨rfl, h⟩
  · exact absurd hr (not_le.mpr h)
  · rw [decide_eq_false (by linarith)]; rfl
  · rw [decide_eq_true (by linarith)]; rfl

end Sys2Proof.Machine
end

