-- ==== Sys2Proof/Laws/Processing.lean ====
section
/-!
SUPPORT. What the statements about processing rest on: a design is the same words up to NaN payloads
(R104, R141), the model's functions meet the relations of Safety.lean (R152, R154, R171, R178), lists
of equal bands and words, zeros and NaNs through a band and through the chain (R162, R184, R238), the
two roots of a stable denominator (R138).
-/

namespace Sys2Proof.Machine

/-! ### Designs -/

theorem design_some {num : Numerics} {shape q ft p c} (h : design num shape q ft p = some c)
    : validParams posZero ft p = true ∧ c = designCoeffs num shape q ft p := by
  simp only [design] at h
  split_ifs at h with hv
  exact ⟨by rw [validParams_nan _ (q 3)]; exact hv, (Option.some.inj h).symm⟩

theorem design_none {num : Numerics} {shape q ft p} (h : design num shape q ft p = none)
    : validParams posZero ft p = false := by
  simp only [design] at h
  split_ifs at h with hv
  rw [validParams_nan _ (q 3)]; simpa using hv

theorem state_design_some {s : State} {ft p} (h : validParams posZero ft p = true)
    : s.design ft p = some (designCoeffs Config.numerics Config.SHAPE s.draws ft p) := by
  rw [State.design, design, if_pos (by rw [validParams_nan _ posZero]; exact h)]

theorem designCoeffs_same (num : Numerics) (shape) (q q' : Nat → Word) (hq : AllNaN q)
    (hq' : AllNaN q') (ft p) :
    SameCoeffs (designCoeffs num shape q ft p) (designCoeffs num shape q' ft p) := by
  have ha : ∀ k, isNaN (q k) = true := hq
  have ha' : ∀ k, isNaN (q' k) = true := hq'
  have hw : SameF64 (fdiv (q 1) (fmul (q 0) TWO_PI p.f) p.fs) (fdiv (q' 1) (fmul (q' 0) TWO_PI p.f)
      p.fs) :=
    .fdiv (hq _) (hq' _) (.fmul (hq _) (hq' _) (.refl _) (.refl _)) (.refl _)
  have hsn := SameF64.fsin num hw
  have hcs := SameF64.fcos num hw
  have hA : SameF64 (fpow10 num (fdiv (q 2) p.g forty)) (fpow10 num (fdiv (q' 2) p.g forty)) :=
      .fpow10 num (.fdiv (hq _) (hq' _) (.refl _) (.refl _))
  simp only [designCoeffs, designFromTerms, angularFrequency, gainFactor, linearGain]
  generalize shape ft = k
  have hA' : SameF64 (if usesGain ft = true then fpow10 num (fdiv (q 2) p.g forty) else one)
      (if usesGain ft = true then fpow10 num (fdiv (q' 2) p.g forty) else one) := by
    split_ifs
    · exact hA
    · exact .refl _
  revert hA' hw hsn hcs
  generalize (if usesGain ft = true then fpow10 num (fdiv (q 2) p.g forty) else one) = A
  generalize (if usesGain ft = true then fpow10 num (fdiv (q' 2) p.g forty) else one) = A'
  generalize fsin num (fdiv (q 1) (fmul (q 0) TWO_PI p.f) p.fs) = sn
  generalize fsin num (fdiv (q' 1) (fmul (q' 0) TWO_PI p.f) p.fs) = sn'
  generalize fcos num (fdiv (q 1) (fmul (q 0) TWO_PI p.f) p.fs) = cs
  generalize fcos num (fdiv (q' 1) (fmul (q' 0) TWO_PI p.f) p.fs) = cs'
  generalize (fdiv (q 1) (fmul (q 0) TWO_PI p.f) p.fs) = w
  generalize (fdiv (q' 1) (fmul (q' 0) TWO_PI p.f) p.fs) = w'
  intro hw hsn hcs hA'
  have hal : SameF64 (alphaBy num k (skip 4 q) w sn A p.sh) (alphaBy num k (skip 4 q')
      w' sn' A' p.sh) := by
    cases k <;> simp only [alphaBy, alphaFromQ, alphaFromBW, alphaFromS, skip] <;>
     repeat' with_reducible first
      | exact hsn | exact hw | exact hA' | exact .refl _
      | refine SameF64.fdiv (ha _) (ha' _) ?_ ?_
      | refine SameF64.fmul (ha _) (ha' _) ?_ ?_
      | refine SameF64.fadd (ha _) (ha' _) ?_ ?_
      | refine SameF64.fsub (ha _) (ha' _) ?_ ?_
      | refine SameF64.fsqrt (ha _) (ha' _) ?_
      | refine SameF64.fsinh num ?_
  revert hal
  generalize alphaBy num k (skip 4 q) w sn A p.sh = al
  generalize alphaBy num k (skip 4 q') w' sn' A' p.sh = al'
  intro hal
  cases ft <;>
    (simp only [closedForm, lowPassForm, highPassForm, bandPassForm, notchForm, allPassForm,
        peakingForm, lowShelfForm, highShelfForm, normalise, skip, SameCoeffs]
     refine ⟨?_, ?_, ?_, ?_, ?_⟩ <;>
     repeat' with_reducible first
      | exact hal | exact hcs | exact hA' | exact .refl _
      | refine SameF64.fdiv (ha _) (ha' _) ?_ ?_
      | refine SameF64.fmul (ha _) (ha' _) ?_ ?_
      | refine SameF64.fadd (ha _) (ha' _) ?_ ?_
      | refine SameF64.fsub (ha _) (ha' _) ?_ ?_
      | refine SameF64.fsqrt (ha _) (ha' _) ?_
      | refine SameF64.fneg ?_)

theorem gain_one {num : Numerics} {n g : Word} (hg : isZero g = true) : fpow10 num (fdiv n g forty)
    = one := by
  have hf := isFinite_of_isZero hg
  have : isZero (fdiv n g forty) = true := by
    have h1 : isNaN forty = false := by decide
    have h2 : isInf forty = false := by decide
    have h3 : isZero forty = false := by decide
    simp only [fdiv, isNaN_of_isFinite hf, isInf_of_isFinite hf, h1, h2, h3, Bool.or_self,
        Bool.false_eq_true, if_false, magUnits_eq_zero.mpr hg, Nat.zero_mul, roundTo, roundMag_zero]
    rw [isZero_iff, magField_packMag (by decide)]
  rw [fpow10, isNaN_of_isFinite (isFinite_of_isZero this), if_neg (by simp), if_pos this]

/-! ### The relations of Safety.lean -/

theorem stepOf_bqStep {n : Word} {q : Nat → Word} (hn : isNaN n = true) (hq : AllNaN q) (c d x) :
    StepOf n c d x (bqStep q c d x).1 (bqStep q c d x).2 :=
  ⟨.fadd (hq _) hn (.fmul (hq _) hn (.refl _) (.refl _)) (.refl _),
   .fadd (hq _) hn (.fsub (hq _) hn (.fmul (hq _) hn (.refl _) (.refl _)) (.fmul (hq _) hn (.refl _)
       (.refl _))) (.refl _),
   .fsub (hq _) hn (.fmul (hq _) hn (.refl _) (.refl _)) (.fmul (hq _) hn (.refl _) (.refl _))⟩

theorem blockOf_bqBlock {n : Word} {q : Nat → Word} (hn : isNaN n = true) (hq : AllNaN q) (c d xs) :
    BlockOf n c d xs (bqBlock q c d xs).1 (bqBlock q c d xs).2 := by
  induction xs generalizing q d with
  | nil => exact .nil d
  | cons x xs ih => exact .cons (stepOf_bqStep hn hq ..) (ih (hq.skip _) _)

theorem walkOf_eqStep {n : Word} {q : Nat → Word} (hn : isNaN n = true) (hq : AllNaN q) (bs x) :
    WalkOf n bs x (eqStep q bs x).1 (eqStep q bs x).2 := by
  induction bs generalizing q x with
  | nil => exact .nil x
  | cons b bs ih => exact .cons (stepOf_bqStep hn hq ..) (ih (hq.skip _) _)

theorem chainOf_eqBlock {n : Word} {q : Nat → Word} (hn : isNaN n = true) (hq : AllNaN q) (bs xs) :
    ChainOf n bs xs (eqBlock q bs xs).1 (eqBlock q bs xs).2 := by
  induction xs generalizing q bs with
  | nil => exact .nil bs
  | cons x xs ih => exact .cons (walkOf_eqStep hn hq ..) (ih (hq.skip _) _)

theorem eqBlock_nil (q : Nat → Word) (xs : List Word) : eqBlock q [] xs = (xs, []) := by
  induction xs generalizing q with
  | nil => rfl
  | cons x xs ih => simp [eqBlock, eqStep, ih]

theorem execAll_cons {i : Instr} {rest s t} (h : exec i s = .next t) : execAll (i :: rest)
    s = execAll rest t := by
  rw [execAll, h]

/-! ### Frames -/

theorem frame_coef {s : State} {idx : BitVec 8} {b b' : Band} (hb : s.bands[idx.toNat]? = some b)
    (h : b'.coef = b.coef) :
    (s.bands.set idx.toNat b').map Band.coef = s.bands.map Band.coef ∧
      ∀ j, j ≠ idx.toNat → (s.bands.set idx.toNat b')[j]? = s.bands[j]? := by
  refine ⟨?_, fun j hj => by rw [List.getElem?_set_ne hj.symm]⟩
  obtain ⟨hlt, hb⟩ := List.getElem?_eq_some_iff.mp hb
  rw [List.map_set, h, ← hb]
  apply List.ext_getElem?
  intro j
  rw [List.getElem?_set]
  split_ifs with h1 h2
  · subst h1; simp [hlt]
  · subst h1; simp at h2; omega
  · rfl

theorem frame_dly {s : State} {idx : BitVec 8} {b b' : Band} (hb : s.bands[idx.toNat]? = some b)
    (h : b'.dly = b.dly) :
    (s.bands.set idx.toNat b').map Band.dly = s.bands.map Band.dly ∧
      ∀ j, j ≠ idx.toNat → (s.bands.set idx.toNat b')[j]? = s.bands[j]? := by
  refine ⟨?_, fun j hj => by rw [List.getElem?_set_ne hj.symm]⟩
  obtain ⟨hlt, hb⟩ := List.getElem?_eq_some_iff.mp hb
  rw [List.map_set, h, ← hb]
  apply List.ext_getElem?
  intro j
  rw [List.getElem?_set]
  split_ifs with h1 h2
  · subst h1; simp [hlt]
  · subst h1; simp at h2; omega
  · rfl

/-! ### Lists equal up to NaN payloads -/

theorem sameF64s_refl (xs : List Word) : List.Forall₂ SameF64 xs xs :=
    List.forall₂_same.mpr fun x _ => .refl x

theorem sameF64s_trans {a b c : List Word} (h : List.Forall₂ SameF64 a b)
    (k : List.Forall₂ SameF64 b c) : List.Forall₂ SameF64 a c := by
  induction h generalizing c with
  | nil => exact k
  | cons h _ ih => cases k with | cons k1 k2 => exact .cons (h.trans k1) (ih k2)

theorem sameBands_trans {a b c : List Band} (h : List.Forall₂ SameBand a b)
    (k : List.Forall₂ SameBand b c) : List.Forall₂ SameBand a c := by
  induction h generalizing c with
  | nil => exact k
  | cons h _ ih =>
    cases k with
    | cons k1 k2 =>
      exact .cons ⟨h.1.trans k1.1, h.2.1.trans k1.2.1, h.2.2.trans k1.2.2⟩ (ih k2)

theorem forall₂_snoc {α : Type} {R : α → α → Prop} {as bs : List α} {a b : α}
    (h : List.Forall₂ R as bs) (k : R a b) : List.Forall₂ R (as ++ [a]) (bs ++ [b]) := by
  induction h with
  | nil => exact .cons k .nil
  | cons h _ ih => exact .cons h ih

theorem sameBands_set {bs bs' : List Band} (h : List.Forall₂ SameBand bs bs') (i : Nat) {b b'}
    (hb : SameBand b b') : List.Forall₂ SameBand (bs.set i b) (bs'.set i b') := by
  induction h generalizing i with
  | nil => exact .nil
  | cons h t ih => cases i with
    | zero => exact .cons hb t
    | succ i => exact .cons h (ih i)

theorem sameBands_eraseIdx {bs bs' : List Band} (h : List.Forall₂ SameBand bs bs') (i : Nat)
    : List.Forall₂ SameBand (bs.eraseIdx i) (bs'.eraseIdx i) := by
  induction h generalizing i with
  | nil => exact .nil
  | cons h t ih => cases i with
    | zero => exact t
    | succ i => exact .cons h (ih i)

theorem sameBands_get {bs bs' : List Band} (h : List.Forall₂ SameBand bs bs') {i : Nat} {b}
    (hb : bs[i]? = some b) : ∃ b', bs'[i]? = some b' ∧ SameBand b b' := by
  induction h generalizing i with
  | nil => simp at hb
  | cons h t ih => cases i with
    | zero => simp at hb; subst hb; exact ⟨_, rfl, h⟩
    | succ i => exact ih hb

theorem sameResp_refl (r : Packet) : SameResponse r r := ⟨rfl, sameF64s_refl _⟩

theorem sameResp_packet {opc st val} {d d' : List Word} (h : List.Forall₂ SameF64 d d') :
    SameResponse (responsePacket opc st val d) (responsePacket opc st val d') :=
  ⟨by simp [responsePacket, h.length_eq], h⟩

theorem bandMajor_same {q q' : Nat → Nat → Word} (hq : ∀ k, AllNaN (q k)) (hq' : ∀ k, AllNaN (q' k))
    {bs bs' xs xs'}
    (hb : List.Forall₂ SameBand bs bs') (hx : List.Forall₂ SameF64 xs xs') :
    List.Forall₂ SameF64 (bandMajor q bs xs).1 (bandMajor q' bs' xs').1 ∧ List.Forall₂ SameBand
        (bandMajor q bs xs).2 (bandMajor q' bs' xs').2 := by
  induction hb generalizing q q' xs xs' with
  | nil => exact ⟨hx, .nil⟩
  | cons h _ ih =>
    obtain ⟨h1, h2⟩ := bqBlock_same (hq 0) (hq' 0) h.1 h.2 hx
    obtain ⟨k1, k2⟩ := ih (fun k => hq (k + 1)) (fun k => hq' (k + 1)) h1
    exact ⟨k1, .cons ⟨h.1, h2⟩ k2⟩

theorem bandMajor_cons {q : Nat → Nat → Word} (hq : ∀ k, AllNaN (q k)) {q1 : Nat → Word}
    (hq1 : AllNaN q1) {q2 : Nat → Nat → Word} (hq2 : ∀ k, AllNaN (q2 k)) (bs : List Band) (x : Word)
    (xs : List Word) :
    List.Forall₂ SameF64 ((eqStep q1 bs x).1 :: (bandMajor q2 (eqStep q1 bs x).2 xs).1)
        (bandMajor q bs (x :: xs)).1 ∧
    List.Forall₂ SameBand (bandMajor q2 (eqStep q1 bs x).2 xs).2 (bandMajor q bs (x :: xs)).2 := by
  induction bs generalizing q q1 q2 x xs with
  | nil => exact ⟨sameF64s_refl _, .nil⟩
  | cons b bs ih =>
    simp only [eqStep, bandMajor, bqBlock]
    obtain ⟨s1, s2⟩ := bqStep_same hq1 (hq 0) (.refl b.coef) (d := b.dly) (d' := b.dly) ⟨.refl _,
        .refl _⟩ (.refl x)
    obtain ⟨t1, t2⟩ := bqBlock_same (hq2 0) ((hq 0).skip bqStepDraws) (.refl b.coef) s2
        (sameF64s_refl xs)
    have i := ih (q := fun k => q (k+1)) (q1 := skip bqStepDraws q1) (q2 := fun k => q2 (k+1))
        (fun k => hq (k+1)) (hq1.skip _) (fun k => hq2 (k+1)) (bqStep q1 b.coef b.dly x).1 (bqBlock
        (q2 0) b.coef (bqStep q1 b.coef b.dly x).2 xs).1
    have j := bandMajor_same (fun k => hq (k+1)) (fun k => hq (k+1)) (sameBands_refl bs)
        (.cons s1 t1)
    exact ⟨sameF64s_trans i.1 j.1, .cons ⟨.refl _, t2⟩ (sameBands_trans i.2 j.2)⟩

/-! ### Zeros -/

theorem bqStep_zero {q : Nat → Word} {c : Coeffs} {d : Delay} {x : Word}
    (hc : coeffsFinite c = true) (hd : d.zeros = true) (hx : isZero x = true) :
    isZero (bqStep q c d x).1 = true ∧ (bqStep q c d x).2.zeros = true := by
  simp only [coeffsFinite, Bool.and_eq_true] at hc
  simp only [Delay.zeros, Bool.and_eq_true] at hd
  obtain ⟨⟨⟨⟨h0, h1⟩, h2⟩, h3⟩, h4⟩ := hc
  have hy : isZero (bqStep q c d x).1 = true := isZero_fadd (isZero_fmul h0 hx) hd.1
  refine ⟨hy, ?_⟩
  simp only [Delay.zeros, Bool.and_eq_true]
  exact ⟨isZero_fadd (isZero_fsub (isZero_fmul h1 hx) (isZero_fmul h3 hy)) hd.2, isZero_fsub
      (isZero_fmul h2 hx) (isZero_fmul h4 hy)⟩

theorem eqStep_zero {q : Nat → Word} {bs : List Band} {x : Word} (hc : ∀ b ∈ bs,
    coeffsFinite b.coef = true ∧ b.dly.zeros = true) (hx : isZero x = true) :
    isZero (eqStep q bs x).1 = true ∧ ∀ b ∈ (eqStep q bs x).2, coeffsFinite b.coef = true ∧
        b.dly.zeros = true := by
  induction bs generalizing q x with
  | nil => exact ⟨hx, fun b hb => by simp [eqStep] at hb⟩
  | cons b bs ih =>
    obtain ⟨g1, g2⟩ := hc b (by simp)
    obtain ⟨h1, h2⟩ := bqStep_zero (q := q) g1 g2 hx
    obtain ⟨k1, k2⟩ := ih (q := skip bqStepDraws q) (fun b hb => hc b (by simp [hb])) h1
    refine ⟨k1, fun b' hb' => ?_⟩
    simp only [eqStep, List.mem_cons] at hb'
    rcases hb' with rfl | hb'
    · exact ⟨g1, h2⟩
    · exact k2 b' hb'

/-! ### NaNs -/

theorem nan_step_s1 {q : Nat → Word} (hq : AllNaN q) {c d x} (h : isNaN d.s1 = true) :
    isNaN (bqStep q c d x).1 = true ∧ isNaN (bqStep q c d x).2.s1 = true ∧ isNaN
        (bqStep q c d x).2.s2 = true := by
  have hy : isNaN (bqStep q c d x).1 = true := by
    simp only [bqStep]
    rw [fadd_nan
      (.inr h)]
    exact hq _
  refine ⟨hy, ?_, ?_⟩
  · simp only [bqStep] at hy ⊢
    rw [fmul_nan (.inr hy), fsub_nan (.inr (hq _)), fadd_nan (.inl (hq _))]; exact hq _
  · simp only [bqStep] at hy ⊢
    rw [fmul_nan (a := c.a2) (.inr hy), fsub_nan (.inr (hq _))]; exact hq _

theorem nan_step_x {q : Nat → Word} (hq : AllNaN q) {c d x} (h : isNaN x = true) :
    isNaN (bqStep q c d x).1 = true ∧ isNaN (bqStep q c d x).2.s1 = true ∧ isNaN
        (bqStep q c d x).2.s2 = true := by
  have hy : isNaN (bqStep q c d x).1 = true := by
    simp only [bqStep]
    rw [fmul_nan (.inr h),
      fadd_nan (.inl (hq _))]
    exact hq _
  refine ⟨hy, ?_, ?_⟩
  · simp only [bqStep] at hy ⊢
    rw [fmul_nan (a := c.b1) (.inr h), fsub_nan (.inl (hq _)), fadd_nan (.inl (hq _))]; exact hq _
  · simp only [bqStep] at hy ⊢
    rw [fmul_nan (a := c.b2) (.inr h), fsub_nan (.inl (hq _))]; exact hq _

theorem nan_step_s2 {q : Nat → Word} (hq : AllNaN q) {c d x} (h : isNaN d.s2 = true) : isNaN
    (bqStep q c d x).2.s1 = true := by
  simp only [bqStep]; rw [fadd_nan (.inr h)]; exact hq _

theorem nan_chain_x {q : Nat → Word} (hq : AllNaN q) {bs : List Band} {x} (h : isNaN x = true) :
    isNaN (eqStep q bs x).1 = true ∧ ∀ b ∈ (eqStep q bs x).2, isNaN b.dly.s1 = true ∧
        isNaN b.dly.s2 = true := by
  induction bs generalizing q x with
  | nil => exact ⟨h, fun b hb => by simp [eqStep] at hb⟩
  | cons b bs ih =>
    obtain ⟨h1, h2, h3⟩ := nan_step_x hq (c := b.coef) (d := b.dly) h
    obtain ⟨k1, k2⟩ := ih (hq.skip bqStepDraws) h1
    refine ⟨k1, fun b' hb' => ?_⟩
    simp only [eqStep, List.mem_cons] at hb'
    rcases hb' with rfl | hb'
    · exact ⟨h2, h3⟩
    · exact k2 b' hb'

theorem nan_chain {q : Nat → Word} (hq : AllNaN q) {bs : List Band} {k : Nat} {b : Band} {x : Word}
    (hb : bs[k]? = some b) (h : isNaN b.dly.s1 = true) :
    isNaN (eqStep q bs x).1 = true ∧ ∀ (j : Nat) (b' : Band), k ≤ j →
        (eqStep q bs x).2[j]? = some b' → isNaN b'.dly.s1 = true ∧ isNaN b'.dly.s2 = true := by
  induction bs generalizing q k x with
  | nil => simp at hb
  | cons c bs ih =>
    cases k with
    | zero =>
      simp at hb; subst hb
      obtain ⟨h1, h2, h3⟩ := nan_step_s1 hq (c := c.coef) (x := x) h
      obtain ⟨k1, k2⟩ := nan_chain_x (bs := bs) (hq.skip bqStepDraws) h1
      refine ⟨k1, fun j b' _ hj => ?_⟩
      have := List.mem_of_getElem? hj
      simp only [eqStep, List.mem_cons] at this
      rcases this with rfl | this
      · exact ⟨h2, h3⟩
      · exact k2 b' this
    | succ k =>
      obtain ⟨k1, k2⟩ := ih (x := (bqStep q c.coef c.dly x).1) (hq.skip bqStepDraws)
          (by simpa using hb)
      refine ⟨k1, fun j b' hj hj' => ?_⟩
      obtain ⟨j, rfl⟩ : ∃ i, j = i + 1 := ⟨j - 1, by omega⟩
      simp only [eqStep, List.getElem?_cons_succ] at hj'
      exact k2 j b' (by omega) hj'

/-! ### Stability -/

theorem roots_inside {a1 a2 : ℝ} (h2 : |a2| < 1) (h1 : |a1| < 1 + a2) (z : ℂ)
    (hz : z ^ 2 + (a1 : ℂ) * z + (a2 : ℂ) = 0) : ‖z‖ < 1 := by
  obtain ⟨l2, u2⟩ := abs_lt.mp h2
  obtain ⟨l1, u1⟩ := abs_lt.mp h1
  have hre := congrArg Complex.re hz
  have him := congrArg Complex.im hz
  simp [pow_two] at hre him
  have hs : ‖z‖ ^ 2 = z.re * z.re + z.im * z.im := by
    rw [← Complex.normSq_eq_norm_sq, Complex.normSq_apply]
  suffices z.re * z.re + z.im * z.im < 1 by
    nlinarith [norm_nonneg z]
  by_cases hi : z.im = 0
  · rw [hi] at hre ⊢
    have hx : -1 < z.re ∧ z.re < 1 := by
      constructor
      · by_contra h
        nlinarith [mul_nonneg (by linarith : 0 ≤ -z.re - 1) (by linarith : 0 ≤ -z.re - a2)]
      · by_contra h
        nlinarith [mul_nonneg (by linarith : 0 ≤ z.re - 1) (by linarith : 0 ≤ z.re - a2)]
    nlinarith
  · have : a1 = -2 * z.re := by
      have : z.im * (a1 + 2 * z.re) = 0 := by linarith
      rcases mul_eq_zero.mp this with h | h
      · exact absurd h hi
      · linarith
    rw [this] at hre
    nlinarith

theorem stable_of_form {u0 u1 u2 P R : ℝ} (hP : 0 < P) (hR : 0 < R) (e0 : u0 = P + R)
    (e2 : u2 = P - R) (e1 : |u1| < 2 * P) :
    |u2 / u0| < 1 ∧ |u1 / u0| < 1 + u2 / u0 := by
  have h0 : 0 < u0 := by linarith
  rw [abs_div, abs_div, abs_of_pos h0, div_lt_one h0]
  refine ⟨abs_lt.mpr ⟨by linarith, by linarith⟩, ?_⟩
  rw [div_lt_iff₀ h0, add_mul, div_mul_cancel₀ _ h0.ne']
  linarith

end Sys2Proof.Machine
end

