-- ==== Sys2Proof/Tests/Slice0.lean ====
section
/-!
SUPPORT. The model's own tests. Expected values are of spec/: the vectors V1 to V73 of
95_test_vectors.md and the examples of the rules, named in each test's comment. The theorems
`witness_<Name>` show, for the obligation `<Name>`, states and operands that meet its hypotheses, each
clause at the ends of its range.
-/

namespace Sys2Proof.Tests

open Sys2Proof Sys2Proof.Machine

/-! ### Helpers -/

/-- A quiet NaN (95_test_vectors). -/
def qNaN : Word := 0x7FF8000000000000

/-- NaN words for calls outside a state. -/
def nans : Nat → Word := fun _ => qNaN

/-- The reset state with these bands. -/
def chain (bs : List Band) : State := { State.reset with bands := bs }

/-- The response packets after a step; none where it stops. -/
def responses (o : Host.Outcome State Fault Refusal) : List Packet :=
  match o with
  | .next t => t.respPort
  | .fault _ => []
  | .refused _ => []

/-- The bands after a step. -/
def bandsAfter (o : Host.Outcome State Fault Refusal) : List Band :=
  match o with
  | .next t => t.bands
  | .fault _ => []
  | .refused _ => []

/-- One step on one packet. -/
def run (s : State) (p : Packet) : Host.Outcome State Fault Refusal := step (s.withPacket p)

/-- The coefficients of V20: 0.5, 0.25, 0.125, -0.5, 0.25. -/
def v20 : Coeffs :=
  ⟨0x3FE0000000000000, 0x3FD0000000000000, 0x3FC0000000000000, 0xBFE0000000000000,
    0x3FD0000000000000⟩

/-- The coefficients of V30. -/
def v30 : Coeffs :=
  ⟨0x3F72DB936615A75E, 0x3F82DB936615A75E, 0x3F72DB936615A75E, 0xBFFCC8FF51C70AF2,
    0x3FEA28DB3EBEC31D⟩

/-- The parameters of V30: 44100.0, 1000.0, 0.707, 0.0. -/
def p30 : DesignParams :=
  ⟨0x40E5888000000000, 0x408F400000000000, 0x3FE69FBE76C8B439, 0x0000000000000000⟩

/-- The parameters of V40: the frequency is half the sample rate. -/
def p40 : DesignParams :=
  ⟨0x40E5888000000000, 0x40D5888000000000, 0x3FE69FBE76C8B439, 0x0000000000000000⟩

/-- A record Numerics that answers these words. -/
def constant (sn cs a sh : Word) : Numerics :=
  ⟨fun _ => sn, fun _ => cs, fun _ => a, fun _ => sh⟩

/-- The chain of V56 before its block: two recursive bands. -/
def v56 : State :=
  chain [⟨v20, ⟨0, 0⟩⟩, ⟨⟨one, 0xBFE0000000000000, 0, 0x3FD0000000000000, 0⟩, ⟨0, 0⟩⟩]

/-- The chain of V54 before its sample: gains 0.5 and 0.25, then (2.0, 1.0, 0, 0, 0). -/
def v54 : State :=
  chain [⟨⟨half, 0, 0, 0, 0⟩, ⟨0, 0⟩⟩, ⟨⟨0x3FD0000000000000, 0, 0, 0, 0⟩, ⟨0, 0⟩⟩,
    ⟨⟨two, one, 0, 0, 0⟩, ⟨0, 0⟩⟩]

/-! ### Well-formedness: the one check, a block longer than MAXBLOCK (R66) -/

theorem test_wf_refuses_long_bq_block :
    (Instr.bqProcb 0 (List.replicate (2 ^ 32) 0)).wf = false := by
  rw [Instr.wf, blockFits, List.length_replicate]; decide

theorem test_wf_refuses_long_eq_block :
    (Instr.eqProcb (List.replicate (2 ^ 32) 0)).wf = false := by
  rw [Instr.wf, blockFits, List.length_replicate]; decide

theorem test_wf_admits_longest_block :
    (Instr.bqProcb 0 (List.replicate MAXBLOCK 0)).wf = true ∧
      (Instr.eqProcb (List.replicate MAXBLOCK 0)).wf = true := by
  rw [Instr.wf, Instr.wf, blockFits, List.length_replicate]; decide

/-! ### Decoding: words written out from R61 to R67 -/

/-- The example of R140. -/
theorem test_decode_design :
    decode [0x0000000000000001, 0x40E5888000000000, 0x408F400000000000, 0x3FE69FBE76C8B439,
      0x0000000000000000] = .ok (.design .lowPass p30) := by decide

/-- The HighShelf packet of 95_test_vectors 2.4. -/
theorem test_decode_design_highShelf :
    decode [0x0000000000060001, 0x40E7700000000000, 0x40BF400000000000, 0x3FF0000000000000,
      0xC018000000000000] = .ok (.design .highShelf ⟨0x40E7700000000000, 0x40BF400000000000,
      0x3FF0000000000000, 0xC018000000000000⟩) := by decide

/-- P1, step 1. -/
theorem test_decode_bqNew : decode [0x0000000000000002] = .ok .bqNew := by decide

/-- P1, step 2, with index 1 as in P3, step 9. -/
theorem test_decode_bqSetcoef :
    decode [0x0000000000000103, 0x3FE0000000000000, 0x3FD0000000000000, 0x3FC0000000000000,
      0xBFE0000000000000, 0x3FD0000000000000] = .ok (.bqSetcoef 1 v20) := by decide

/-- V70: BQ_RESET 1. -/
theorem test_decode_bqReset : decode [0x0000000000000104] = .ok (.bqReset 1) := by decide

/-- The example of V22. -/
theorem test_decode_bqProc :
    decode [0x0000000000000005, 0x8000000000000000] = .ok (.bqProc 0 negZero) := by decide

/-- V69 and P1, step 3. -/
theorem test_decode_bqProcb :
    decode [0x0000000000000106] = .ok (.bqProcb 1 []) ∧
    decode [0x0000000000000006, 0x3FF0000000000000, 0x0000000000000000] =
      .ok (.bqProcb 0 [one, posZero]) := by decide

/-- P5, step 1. -/
theorem test_decode_eqAdd :
    decode [0x0000000000040008, 0x40E7700000000000, 0x408F400000000000, 0x3FF0000000000000,
      0x0000000000000000] = .ok (.eqAdd .peaking ⟨0x40E7700000000000, 0x408F400000000000,
      0x3FF0000000000000, 0x0000000000000000⟩) := by decide

/-- V2. -/
theorem test_decode_eqSet :
    decode [0x0000000000060209, 0x40E7700000000000, 0x40BF400000000000, 0x3FF0000000000000,
      0xC018000000000000] = .ok (.eqSet 2 .highShelf ⟨0x40E7700000000000, 0x40BF400000000000,
      0x3FF0000000000000, 0xC018000000000000⟩) := by decide

/-- P3, step 15. -/
theorem test_decode_eqRemove : decode [0x000000000000020A] = .ok (.eqRemove 2) := by decide

/-- V53. -/
theorem test_decode_eqReset : decode [0x000000000000000B] = .ok .eqReset := by decide

/-- P3, step 3. -/
theorem test_decode_eqProc :
    decode [0x000000000000000C, 0x3FD7AE147AE147AE] = .ok (.eqProc 0x3FD7AE147AE147AE) := by decide

/-- V7 and V51. -/
theorem test_decode_eqProcb :
    decode [0x000000000000000D] = .ok (.eqProcb []) ∧
    decode [0x000000000000000D, 0x3FF0000000000000, 0xBFD0000000000000] =
      .ok (.eqProcb [one, 0xBFD0000000000000]) := by decide

/-- V1. -/
theorem test_decode_rdCount : decode [0x0000000000000010] = .ok .rdCount := by decide

/-- R191 with the largest index. -/
theorem test_decode_rdBand : decode [0x000000000000FF11] = .ok (.rdBand 255) := by decide

/-- Every code of R63, in a header of DESIGN. -/
theorem test_decode_types :
    ∀ k : Fin 8, decode [0x0000000000000001 + BitVec.ofNat 64 (k.val * 2 ^ 16), 1, 2, 3, 4] =
      .ok (.design ([.lowPass, .highPass, .bandPass, .notch, .peaking, .lowShelf, .highShelf,
        .allPass][k]) ⟨1, 2, 3, 4⟩) := by decide

/-- V3, V4, V9c, V9b: no such opcode, no word. -/
theorem test_reject_opcodes :
    decode [0x0000000000000000] = .error .unknownOpcode ∧
    decode [0x0000000000000007] = .error .unknownOpcode ∧
    decode [0x00000000000000FF] = .error .unknownOpcode ∧
    decode [] = .error .emptyPacket := by decide

/-- V5, V9a, V6: an unused IDX, an unused FT, a reserved bit. -/
theorem test_reject_fields :
    decode [0x000000000000010B] = .error .unusedIndex ∧
    decode [0x0000000000010010] = .error .unusedFilterType ∧
    decode [0x000000000008000B] = .error .reservedBits := by decide

/-- V8, V9, V72: lengths. -/
theorem test_reject_lengths :
    decode [0x000000000000000C, 0x3FF0000000000000, 0x4000000000000000] = .error .wrongLength ∧
    decode [0x0000000000000001, 0x3FF0000000000000, 0x4000000000000000, 0x4008000000000000] =
      .error .wrongLength ∧
    decode [0x0000000000000509, 0x3FF0000000000000, 0x4000000000000000] = .error .wrongLength := by
  decide

/-- R66: a block of 2^32 samples. -/
theorem test_reject_long_block :
    decode (0x000000000000000D :: List.replicate (2 ^ 32) 0) = .error .blockTooLong := by
  have h1 : Opcode.ofByte (headerOpc 0x000000000000000D) = some .eqProcb := by decide
  have h2 : headerRsv 0x000000000000000D = 0 := by decide
  have h3 : headerIdx 0x000000000000000D = 0 := by decide
  have h4 : headerFt 0x000000000000000D = 0 := by decide
  have h5 : ¬ (2 ^ 32 ≤ MAXBLOCK) := by decide
  simp only [decode, h1, h2, h3, h4, Opcode.read, readHX, blockFits, List.length_replicate, h5,
    ne_eq, not_true_eq_false, and_false, if_false, decide_false, Bool.false_eq_true]

/-- The header words of R67 through the host's interface, one per packet length. -/
theorem test_decodeTableWord :
    decodeTableWord 64 0x0000000000000010 = some .rdCount ∧
    decodeTableWord 64 0x000000000000020A = some (.eqRemove 2) ∧
    decodeTableWord 64 0x000000000000000D = some (.eqProcb []) ∧
    decodeTableWord 64 0x0000000000000003 = some (.bqSetcoef 0 ⟨0, 0, 0, 0, 0⟩) ∧
    decodeTableWord 128 0x3FF0000000000000000000000000000C = some (.eqProc one) ∧
    decodeTableWord 64 0x000000000008000B = none := by decide

/-- The very next step runs the word. -/
theorem test_withFetchWord :
    responses (step (State.reset.withFetchWord 128 0x3FD7AE147AE147AE000000000000000C)) =
      [[0x0000000100000C00, 0x3FD7AE147AE147AE]] := by decide

/-! ### Arithmetic (95_test_vectors 2.2) -/

/-- V10, V13, V14, V19. -/
theorem test_round_to_nearest :
    fadd qNaN 0x3FB999999999999A 0x3FC999999999999A = 0x3FD3333333333334 ∧
    fdiv qNaN one 0x4008000000000000 = 0x3FD5555555555555 ∧
    fsqrt qNaN two = 0x3FF6A09E667F3BCD ∧
    fmul qNaN half 0x3FD7AE147AE147AE = 0x3FC7AE147AE147AE := by decide +kernel

/-- V11, V12, V16: overflow, and subnormal results. -/
theorem test_range_ends :
    fmul qNaN 0x7FE1CCF385EBC8A0 0x4024000000000000 = posInf ∧
    fdiv qNaN 0x0000000000000001 two = posZero ∧
    fdiv qNaN 0x0000000000000003 two = 0x0000000000000002 ∧
    fdiv qNaN 0x0010000000000000 two = 0x0008000000000000 := by decide +kernel

/-- V15. -/
theorem test_ties_to_even :
    fadd qNaN 0x4340000000000000 one = 0x4340000000000000 ∧
    fadd qNaN 0x4340000000000000 0x4008000000000000 = 0x4340000000000002 := by decide +kernel

/-- V17. -/
theorem test_signed_zeros :
    fadd qNaN negZero posZero = posZero ∧ fsub qNaN negZero posZero = negZero ∧
    fsub qNaN posZero posZero = posZero ∧ fmul qNaN negZero 0x4014000000000000 = negZero ∧
    fsub qNaN 0x3FD0000000000000 0x3FD0000000000000 = posZero := by decide +kernel

/-- V18. -/
theorem test_invalid_operations :
    isNaN (fmul qNaN posZero posInf) = true ∧ isNaN (fsub qNaN posInf posInf) = true ∧
    isNaN (fdiv qNaN posZero posZero) = true ∧ isNaN (fsqrt qNaN 0xBFF0000000000000) = true ∧
    isNaN (fadd qNaN qNaN one) = true := by decide +kernel

/-- V19a. -/
theorem test_comparisons :
    flt qNaN one = false ∧ flt one qNaN = false ∧ feq qNaN qNaN = false ∧
    flt negZero posZero = false ∧ feq negZero posZero = true := by decide

/-- V19b. -/
theorem test_elementary_zeros (num : Numerics) :
    fpow10 num posZero = one ∧ fpow10 num negZero = one ∧ fsin num posZero = posZero ∧
      fcos num posZero = one := ⟨rfl, rfl, rfl, rfl⟩

/-! ### The step (95_test_vectors 2.3) -/

/-- V20, all six rows: the outputs and the registers after the last. -/
theorem test_step_v20 :
    bqBlock nans v20 ⟨0, 0⟩ [one, 0, 0, 0, 0, 0] =
      ([0x3FE0000000000000, 0x3FE0000000000000, 0x3FD0000000000000, 0x0000000000000000,
        0xBFB0000000000000, 0xBFA0000000000000], ⟨0x0000000000000000, 0x3F80000000000000⟩) := by
  decide +kernel

/-- V21. -/
theorem test_step_v21 :
    bqStep nans ⟨one, 0, 0xBFF0000000000000, 0, half⟩ ⟨0, 0⟩ posZero =
      (posZero, ⟨posZero, negZero⟩) := by decide +kernel

/-- V23: an infinity poisons the registers, and the next output is a NaN. -/
theorem test_step_v23 :
    (bqStep nans passThrough ⟨0, 0⟩ posInf).1 = posInf ∧
    isNaN (bqStep nans passThrough ⟨0, 0⟩ posInf).2.s1 = true ∧
    isNaN (bqStep nans passThrough ⟨0, 0⟩ posInf).2.s2 = true ∧
    isNaN (bqStep nans passThrough ⟨qNaN, qNaN⟩ one).1 = true := by decide +kernel

/-- V24. -/
theorem test_step_v24 :
    bqBlock nans v30 ⟨0, 0⟩ [one, 0, 0, 0, 0, 0] =
      ([0x3F72DB936615A75E, 0x3F91E913974B27D6, 0x3FA08A93C4D31288, 0x3FA6702FC7D8C449,
        0x3FAAD87D643216D4, 0x3FADF44D28606B0B], ⟨0x3FAFF1A65D64FABE, 0xBFA87CBD4BECC27F⟩) := by
  decide +kernel

/-! ### The designer (95_test_vectors 2.4)

The record answers the correctly rounded sine, cosine and gain that the vectors assume; where the
vectors' text does not print one of them it was computed outside Lean. -/

/-- V30, with its alpha. -/
theorem test_design_lowPass :
    alphaFromQ nans 0x3FC22CDEABEC443D 0x3FE69FBE76C8B439 = 0x3FB9B5253A248A86 ∧
    angularFrequency nans 0x40E5888000000000 0x408F400000000000 = 0x3FC23CA61DCC76A2 ∧
    design (constant 0x3FC22CDEABEC443D 0x3FEFACFE8CDED93F one 0) Config.SHAPE nans .lowPass p30 =
      some v30 := by decide +kernel

/-- V31. -/
theorem test_design_highPass :
    design (constant 0x3F8ACEB7C72CA0A9 0x3FEFFF4C54F76E1C one 0) Config.SHAPE nans .highPass
      ⟨0x40E7700000000000, 0x4059000000000000, 0x3FE6A0902DE00D1B, 0⟩ =
      some ⟨0x3FEFB4861F568D24, 0xBFFFB4861F568D24, 0x3FEFB4861F568D24, 0xBFFFB42D1CBAF721,
        0x3FEF69BE43E4464C⟩ := by decide +kernel

/-- V32. -/
theorem test_design_bandPass :
    design (constant 0x3FC0B5150F6DA2D0 0x3FEFB9EA92EC689B one 0) Config.SHAPE nans .bandPass
      ⟨0x40E7700000000000, 0x408F400000000000, two, 0⟩ =
      some ⟨0x3FA02DECC2C595EF, 0x0000000000000000, 0xBFA02DECC2C595EF, 0xBFFEB942BB734BA2,
        0x3FEDFA4267A74D43⟩ := by decide +kernel

/-- V33 with the gain of V45a, a NaN that is ignored. -/
theorem test_design_notch :
    design (constant 0x3F8015B4BBB44E95 0x3FEFFFBF51A2FA2F one 0) Config.SHAPE nans .notch
      ⟨0x40E7700000000000, 0x404E000000000000, 0x4024000000000000, qNaN⟩ =
      some ⟨0x3FEFFCC8C8361E25, 0xBFFFFC8820590D80, 0x3FEFFCC8C8361E25, 0xBFFFFC8820590D80,
        0x3FEFF991906C3C49⟩ := by decide +kernel

/-- V34. -/
theorem test_design_allPass :
    design (constant 0x3FC0B5150F6DA2D0 0x3FEFB9EA92EC689B one 0) Config.SHAPE nans .allPass
      ⟨0x40E7700000000000, 0x408F400000000000, half, 0⟩ =
      some ⟨0x3FE89C5DD7D79F93, 0xBFFC1030F17D4CF7, 0x3FF0000000000000, 0xBFFC1030F17D4CF7,
        0x3FE89C5DD7D79F93⟩ := by decide +kernel

/-- V35a. -/
theorem test_design_peaking :
    design (constant 0x3FC0B5150F6DA2D0 0x3FEFB9EA92EC689B 0x3FF699C0F7E86E10 0) Config.SHAPE nans
      .peaking ⟨0x40E7700000000000, 0x408F400000000000, one, 0x4018000000000000⟩ =
      some ⟨0x3FF0B40826F2E860, 0xBFFE533BD2CBD1D1, 0x3FEBC4618661BA3B, 0xBFFE533BD2CBD1D1,
        0x3FED2C71D4478AFA⟩ := by decide +kernel

/-- V36. -/
theorem test_design_lowShelf :
    design (constant 0x3F9ACE214390CA91 0x3FEFFD315BBF4275 0x3FF699C0F7E86E10 0) Config.SHAPE nans
      .lowShelf ⟨0x40E7700000000000, 0x4069000000000000, one, 0x4018000000000000⟩ =
      some ⟨0x3FF01A66ADA1310E, 0xBFFF7F6FAA7B756B, 0x3FEED1E1280CE931, 0xBFFF8068F85F2A1A,
        0x3FEF04BBE787E1F1⟩ := by decide +kernel

/-- V36a. -/
theorem test_design_highShelf :
    design (constant 0x3FEBB67AE8584CAA 0x3FE0000000000001 0x3FE6A77DEAE8AB8A 0) Config.SHAPE nans
      .highShelf ⟨0x40E7700000000000, 0x40BF400000000000, one, 0xC018000000000000⟩ =
      some ⟨0x3FE45C4A1BC81774, 0xBFD1A729240DD9C5, 0x3FC0B1E9D69DFA43, 0xBFE96D8611FCE937,
        0x3FD2456C22CB24B6⟩ := by decide +kernel

/-- The alpha from a bandwidth of 95_test_vectors 2.4. -/
theorem test_alpha_from_bandwidth :
    alphaFromBW (constant 0 0 0 0x3FD6B1DB0A016F44) nans 0x3FC0C152382D7365 0x3FC0B5150F6DA2D0
      one = 0x3FA7B2B4E7345C8E := by decide +kernel

/-- V40 to V46a: the verdicts. -/
theorem test_validation :
    [(FilterType.lowPass, p40), (.lowPass, { p30 with f := 0 }),
      (.lowPass, { p30 with f := 0xBFF0000000000000 }), (.lowPass, { p30 with fs := 0 }),
      (.lowPass, { p30 with fs := 0xC0E5888000000000 }), (.lowPass, { p30 with fs := posInf }),
      (.lowPass, { p30 with sh := 0 }), (.lowPass, { p30 with sh := negZero }),
      (.lowPass, { p30 with sh := 0xBFF0000000000000 }), (.lowPass, { p30 with sh := posInf }),
      (.lowPass, { p30 with f := qNaN }), (.peaking, { p30 with g := qNaN }),
      (.lowShelf, { p30 with sh := one, g := posInf }),
      (.lowPass, { p30 with f := 0x40D5887FFFFFFFFF }), (.lowPass, { p30 with g := qNaN })].map
        (fun r => validParams qNaN r.1 r.2) =
      List.replicate 13 false ++ [true, true] := by decide +kernel

/-! ### The commands, one step each -/

/-- V40: DESIGN refuses. -/
theorem test_design_refuses :
    responses (run State.reset [0x0000000000000001, 0x40E5888000000000, 0x40D5888000000000,
      0x3FE69FBE76C8B439, 0]) = [[0x0000000000000101]] := by decide +kernel

/-- R140: the header of an answer with five words. -/
theorem test_design_header :
    (responses (run State.reset [0x0000000000000001, 0x40E5888000000000, 0x408F400000000000,
      0x3FE69FBE76C8B439, 0])).map List.head? = [some 0x0000000500000100] := by decide +kernel

/-- P1, step 1. -/
theorem test_bqNew :
    responses (exec .bqNew State.reset) = [[0x0000000000000200]] ∧
      bandsAfter (exec .bqNew State.reset) = [⟨⟨0x3FF0000000000000, 0, 0, 0, 0⟩, ⟨0, 0⟩⟩] := by
  decide +kernel

/-- V67 and V68: a full store of one slot, and of two. -/
theorem test_chainFull :
    (appendBand 1 0x08 v30 40 (chain [⟨v20, ⟨0, 0⟩⟩])).respPort = [[0x0000000000000803]] ∧
    (appendBand 2 0x02 passThrough 0 v56).respPort = [[0x0000000000000203]] ∧
    (appendBand 2 0x02 passThrough 0 v56).bands = v56.bands := by decide

/-- R157: the registers are kept (V57). -/
theorem test_bqSetcoef :
    bandsAfter (run (chain [⟨v20, ⟨0x3FD0000000000000, 0xBFC0000000000000⟩⟩])
      [0x0000000000000003, 0x3FF0000000000000, 0, 0, 0, 0]) =
      [⟨⟨one, 0, 0, 0, 0⟩, ⟨0x3FD0000000000000, 0xBFC0000000000000⟩⟩] := by decide

/-- V70 and P6, step 5. -/
theorem test_bqReset :
    responses (run (chain [⟨v20, ⟨0, 0⟩⟩]) [0x0000000000000104]) = [[0x0000000000000402]] ∧
    bandsAfter (run (chain [⟨v20, ⟨half, one⟩⟩]) [0x0000000000000004]) = [⟨v20, ⟨0, 0⟩⟩] := by
  decide

/-- V22. -/
theorem test_bqProc :
    responses (run (chain [⟨passThrough, ⟨0, 0⟩⟩]) [0x0000000000000005, 0x8000000000000000]) =
      [[0x0000000100000500, 0x0000000000000000]] := by decide +kernel

/-- R160: the example of V20. -/
theorem test_bqProcb :
    responses (run (chain [⟨v20, ⟨0, 0⟩⟩]) [0x0000000000000006, 0x3FF0000000000000, 0, 0]) =
      [[0x0000000300000600, 0x3FE0000000000000, 0x3FE0000000000000, 0x3FD0000000000000]] := by
  decide +kernel

/-- V69: the index is checked for an empty block too. -/
theorem test_bqProcb_empty :
    responses (run (chain [⟨v20, ⟨0, 0⟩⟩]) [0x0000000000000106]) = [[0x0000000000000602]] ∧
    responses (run (chain [⟨v20, ⟨0, 0⟩⟩]) [0x0000000000000006]) = [[0x0000000000000600]] := by
  decide

/-- P2, step 1: what does not depend on the elementary functions. -/
theorem test_eqAdd :
    responses (exec (.eqAdd .lowPass p30) State.reset) = [[0x0000000000000800]] ∧
      (bandsAfter (exec (.eqAdd .lowPass p30) State.reset)).map Band.dly = [⟨0, 0⟩] := by
  decide +kernel

/-- P3, step 1. -/
theorem test_eqAdd_refuses :
    responses (exec (.eqAdd .lowPass p40) State.reset) = [[0x0000000000000801]] := by decide +kernel

/-- V65: the parameters are tested before the index. -/
theorem test_eqSet_priority :
    responses (exec (.eqSet 5 .lowPass p40) State.reset) = [[0x0000000000000901]] ∧
    responses (exec (.eqSet 0 .lowPass p30) State.reset) = [[0x0000000000000902]] := by
  decide +kernel

/-- R173: the registers are kept (P6, step 3). -/
theorem test_eqSet :
    (bandsAfter (exec (.eqSet 0 .lowPass p30) (chain [⟨v20, ⟨half, one⟩⟩]))).map Band.dly =
      [⟨half, one⟩] := by decide +kernel

/-- V55: the last band moves down with its register; V71 on an empty chain. -/
theorem test_eqRemove :
    bandsAfter (run (chain [⟨passThrough, ⟨0, 0⟩⟩, ⟨v20, ⟨0, 0⟩⟩, ⟨v30, ⟨half, 0⟩⟩])
      [0x000000000000000A]) = [⟨v20, ⟨0, 0⟩⟩, ⟨v30, ⟨half, 0⟩⟩] ∧
    responses (run State.reset [0x000000000000000A]) = [[0x0000000000000A02]] := by decide

/-- V58. -/
theorem test_eqReset :
    responses (run (chain [⟨v20, ⟨half, one⟩⟩, ⟨v30, ⟨one, qNaN⟩⟩]) [0x000000000000000B]) =
      [[0x0000000000000B00]] ∧
    bandsAfter (run (chain [⟨v20, ⟨half, one⟩⟩, ⟨v30, ⟨one, qNaN⟩⟩]) [0x000000000000000B]) =
      [⟨v20, ⟨0, 0⟩⟩, ⟨v30, ⟨0, 0⟩⟩] := by decide

/-- V50: the empty chain passes a NaN with its payload. -/
theorem test_eqProc_empty :
    responses (run State.reset [0x000000000000000C, 0x7FF8000000000123]) =
      [[0x0000000100000C00, 0x7FF8000000000123]] := by decide

/-- V54. -/
theorem test_eqProc :
    responses (run v54 [0x000000000000000C, 0x3FF0000000000000]) =
      [[0x0000000100000C00, 0x3FD0000000000000]] ∧
    (bandsAfter (run v54 [0x000000000000000C, 0x3FF0000000000000])).map Band.dly =
      [⟨0, 0⟩, ⟨0, 0⟩, ⟨0x3FC0000000000000, 0⟩] := by decide +kernel

/-- V56. -/
theorem test_eqProcb :
    responses (run v56 [0x000000000000000D, 0x3FF0000000000000, 0]) =
      [[0x0000000200000D00, 0x3FE0000000000000, 0x3FC0000000000000]] ∧
    (bandsAfter (run v56 [0x000000000000000D, 0x3FF0000000000000, 0])).map Band.dly =
      [⟨0x3FD0000000000000, 0xBFC0000000000000⟩, ⟨0xBFD2000000000000, 0⟩] := by decide +kernel

/-- V52. -/
theorem test_eqProcb_empty :
    responses (run v56 [0x000000000000000D]) = [[0x0000000000000D00]] ∧
    bandsAfter (run v56 [0x000000000000000D]) = v56.bands := by decide

/-- V1 and V60. -/
theorem test_rdCount :
    responses (run (chain [⟨v20, ⟨0, 0⟩⟩]) [0x0000000000000010]) = [[0x0000000000011000]] ∧
    responses (run State.reset [0x0000000000000010]) = [[0x0000000000001000]] := by decide

/-- V60, and P1, step 4. -/
theorem test_rdBand :
    responses (run State.reset [0x0000000000000011]) = [[0x0000000000001102]] ∧
    responses (run (chain [⟨v20, ⟨0xBFB0000000000000, 0⟩⟩]) [0x0000000000000011]) =
      [[0x0000000700001100, 0x3FE0000000000000, 0x3FD0000000000000, 0x3FC0000000000000,
        0xBFE0000000000000, 0x3FD0000000000000, 0xBFB0000000000000, 0x0000000000000000]] := by
  decide

/-- V5, V9b and V72: the answers to illegal packets. -/
theorem test_illegal :
    responses (run v56 [0x000000000000010B]) = [[0x0000000000000B04]] ∧
    responses (run v56 []) = [[0x0000000000000004]] ∧
    responses (run v56 [0x0000000000000509, 1, 2]) = [[0x0000000000000904]] ∧
    bandsAfter (run v56 [0x0000000000000509, 1, 2]) = v56.bands := by decide

/-- P6, step 7: no response, no band. -/
theorem test_hardware_reset :
    responses (step { v56 with cmdPort := [.reset] }) = [] ∧
    bandsAfter (step { v56 with cmdPort := [.reset] }) = [] := by decide

/-! ### Witnesses: encoding -/

/-- A store with every slot occupied. -/
def fullStore : State := chain (List.replicate Config.MAXBANDS ⟨passThrough, ⟨0, 0⟩⟩)

theorem fullStore_N : fullStore.N = Config.MAXBANDS := by
  rw [State.N, fullStore, chain, List.length_replicate]

/-- A store with one slot free. -/
def oneFree : State := chain (List.replicate (Config.MAXBANDS - 1) ⟨passThrough, ⟨0, 0⟩⟩)

theorem oneFree_N : oneFree.N + 1 = Config.MAXBANDS := by
  have : 1 ≤ Config.MAXBANDS := Nat.succ_pos _
  rw [State.N, oneFree, chain, List.length_replicate]
  omega

theorem witness_EncodingIsCanonical :
    (Instr.eqProcb (List.replicate MAXBLOCK 0)).wf = true ∧ (Instr.bqProcb 255 []).wf = true ∧
      decode [0x000000000000020A] = .ok (.eqRemove 2) ∧
      Instr.opcode .rdCount = .rdCount ∧ Opcode.rdCount.usesIdx = false ∧
      Opcode.rdCount.usesFt = false :=
  ⟨test_wf_admits_longest_block.2, by decide, test_decode_eqRemove, rfl, rfl, rfl⟩

theorem witness_IllegalPacketsChangeNothing :
    illegalPacket [] ∧ illegalPacket [0x0000000000000007] ∧
      (State.reset.withPacket []).cmdPort = .packet [] :: [] ∧
      (State.reset.withPacket [0x0000000000000007]).cmdPort =
        .packet [0x0000000000000007] :: [] :=
  ⟨trivial, trivial, rfl, rfl⟩

theorem witness_WordsWrittenOutDecode : 2 < v54.N ∧ v56.N ≤ 2 ∧ State.reset.N ≤ 2 := by decide

/-! ### Witnesses: the step, reset and the responses -/

/-- A packet before a reset pulse and another packet, and the port with nothing on it. -/
theorem witness_StepRunsTheDecodedCommand :
    (State.reset.withPacket [0x0000000000000010]).cmdPort = .packet [0x0000000000000010] :: [] ∧
      decode [0x0000000000000010] = .ok .rdCount ∧ Instr.rdCount.wf = true ∧
      State.reset.cmdPort = [] := ⟨rfl, test_decode_rdCount, rfl, rfl⟩

theorem witness_HardwareResetEmptiesTheChain :
    { v56 with cmdPort := [.reset, .packet [0x0000000000000010]] }.cmdPort =
        .reset :: [.packet [0x0000000000000010]] ∧
      decode [0x0000000000000010] = .ok .rdCount := ⟨rfl, test_decode_rdCount⟩

theorem witness_OneResponsePerPacket :
    (v56.withPacket []).cmdPort = .packet [] :: [] ∧
      (v56.withPacket [0x0000000000000010]).cmdPort = .packet [0x0000000000000010] :: [] :=
  ⟨rfl, rfl⟩

theorem witness_ResponseLayout :
    ([] : List Word).length ≤ MAXBLOCK ∧ (List.replicate MAXBLOCK (0 : Word)).length ≤ MAXBLOCK ∧
      ∃ t, (v56.withPacket []).cmdPort = .packet [] :: [] ∧ step (v56.withPacket []) = .next t :=
  ⟨Nat.zero_le _, by rw [List.length_replicate], _, rfl, rfl⟩

/-- A full store that is asked for one more band. -/
theorem witness_StepKeepsInvariant :
    ∃ t, (fullStore.withPacket [0x0000000000000002]).Inv ∧
      step (fullStore.withPacket [0x0000000000000002]) = .next t :=
  ⟨_, ⟨fullStore_N.le, fun r hr => by simp [fullStore, chain] at hr⟩, rfl⟩

/-- A packet that is refused and one that is not. -/
theorem witness_AnErrorChangesNothing :
    (v56.withPacket []).cmdPort = .packet [] :: [] ∧
      responses (step (v56.withPacket [])) = [] ++ [[0x0000000000000004]] ∧
      respStatus 0x0000000000000004 ≠ 0 := by decide

theorem witness_StatusPriority :
    (v56.withPacket []).cmdPort = .packet [] :: [] ∧
      (v56.withPacket [0x0000000000000010]).cmdPort = .packet [0x0000000000000010] :: [] :=
  ⟨rfl, rfl⟩

/-- The first and the last existing index, and the first and the last of the others. -/
abbrev IndexWitness : Prop :=
  (0 : BitVec 8).toNat < v54.N ∧ (2 : BitVec 8).toNat < v54.N ∧ v54.N ≤ (3 : BitVec 8).toNat ∧
    v54.N ≤ (255 : BitVec 8).toNat ∧ (∃ b, v54.bands[(0 : BitVec 8).toNat]? = some b) ∧
    ∃ b, v54.bands[(2 : BitVec 8).toNat]? = some b

theorem indexWitness : IndexWitness :=
  ⟨by decide, by decide, by decide, by decide, ⟨_, rfl⟩, ⟨_, rfl⟩⟩

theorem witness_ProcessingNeverFails : IndexWitness := indexWitness

theorem witness_BandCountWrites :
    { v56 with cmdPort := [.reset] }.cmdPort = .reset :: [] ∧
      (v56.withPacket []).cmdPort = .packet [] :: [] ∧ decode [] = .error .emptyPacket ∧
      State.reset.N ≤ Config.MAXBANDS ∧ fullStore.N ≤ Config.MAXBANDS :=
  ⟨rfl, rfl, rfl, Nat.zero_le _, fullStore_N.le⟩

/-! ### Witnesses: the commands -/

theorem witness_BqNewAppendsPassThrough :
    State.reset.N < Config.MAXBANDS ∧ oneFree.N < Config.MAXBANDS ∧
      fullStore.N = Config.MAXBANDS :=
  ⟨Nat.succ_pos _, by have := oneFree_N; omega, fullStore_N⟩

theorem witness_BqSetcoefReplacesCoefficients : IndexWitness := indexWitness

theorem witness_BqResetClearsRegisters : IndexWitness := indexWitness

theorem witness_BqProcRunsOneStep : isNaN qNaN = true ∧ IndexWitness := ⟨by decide, indexWitness⟩

theorem witness_BqProcbRunsTheBlock : isNaN qNaN = true ∧ IndexWitness := ⟨by decide, indexWitness⟩

theorem witness_UnusedGainHasNoEffect :
    ∃ ft : FilterType, ft = .lowPass ∨ ft = .highPass ∨ ft = .bandPass ∨ ft = .notch ∨
      ft = .allPass := ⟨.allPass, by decide⟩

theorem allNaN_nans : AllNaN nans := fun _ => show isNaN qNaN = true by decide

/-- The parameters of V30 are valid for every type, those of V40 for none. -/
theorem p30_valid (ft : FilterType) : validParams posZero ft p30 = true := by
  revert ft
  have : ∀ ft ∈ [FilterType.lowPass, .highPass, .bandPass, .notch, .peaking, .lowShelf,
      .highShelf, .allPass], validParams posZero ft p30 = true := by decide +kernel
  intro ft
  exact this ft (by cases ft <;> decide)

/-- A design from V30's parameters exists, for every type and every record. -/
theorem p30_designed (num : Numerics) (ft : FilterType) :
    ∃ c, design num Config.SHAPE nans ft p30 = some c :=
  ⟨_, if_pos (by rw [validParams_nan _ posZero]; exact p30_valid ft)⟩

theorem p40_refused (num : Numerics) : design num Config.SHAPE nans .lowPass p40 = none :=
  if_neg (by decide +kernel)

theorem witness_DesignTreesFromQ (num : Numerics) :
    AllNaN nans ∧ isNaN qNaN = true ∧
      (∃ c, design num Config.SHAPE nans .lowPass p30 = some c) ∧
      (∃ c, design num Config.SHAPE nans .highPass p30 = some c) ∧
      (∃ c, design num Config.SHAPE nans .bandPass p30 = some c) ∧
      (∃ c, design num Config.SHAPE nans .notch p30 = some c) ∧
      ∃ c, design num Config.SHAPE nans .allPass p30 = some c :=
  ⟨allNaN_nans, by decide, p30_designed num _, p30_designed num _, p30_designed num _,
    p30_designed num _, p30_designed num _⟩

theorem witness_DesignTreesWithGain (num : Numerics) :
    AllNaN nans ∧ isNaN qNaN = true ∧
      (∃ c, design num Config.SHAPE nans .peaking p30 = some c) ∧
      (∃ c, design num Config.SHAPE nans .lowShelf p30 = some c) ∧
      ∃ c, design num Config.SHAPE nans .highShelf p30 = some c :=
  ⟨allNaN_nans, by decide, p30_designed num _, p30_designed num _, p30_designed num _⟩

theorem witness_DesignAnswersTheCoefficients :
    AllNaN nans ∧ design Config.numerics Config.SHAPE nans .lowPass p40 = none ∧
      ∃ c, design Config.numerics Config.SHAPE nans .lowPass p30 = some c :=
  ⟨allNaN_nans, p40_refused _, p30_designed _ _⟩

theorem witness_EqAddAppendsTheDesign :
    AllNaN nans ∧ design Config.numerics Config.SHAPE nans .lowPass p40 = none ∧
      (∃ c, design Config.numerics Config.SHAPE nans .lowPass p30 = some c) ∧
      fullStore.N = Config.MAXBANDS ∧ State.reset.N < Config.MAXBANDS ∧
      oneFree.N < Config.MAXBANDS :=
  ⟨allNaN_nans, p40_refused _, p30_designed _ _, fullStore_N, Nat.succ_pos _,
    by have := oneFree_N; omega⟩

theorem witness_EqSetReplacesTheDesign :
    AllNaN nans ∧ design Config.numerics Config.SHAPE nans .lowPass p40 = none ∧
      (∃ c, design Config.numerics Config.SHAPE nans .lowPass p30 = some c) ∧ IndexWitness :=
  ⟨allNaN_nans, p40_refused _, p30_designed _ _, indexWitness⟩

theorem witness_OneDesignFunction :
    validParams posZero .lowPass p30 = true ∧ State.reset.N < Config.MAXBANDS ∧
      v54.bands[(2 : BitVec 8).toNat]? = some ⟨⟨two, one, 0, 0, 0⟩, ⟨0, 0⟩⟩ :=
  ⟨p30_valid _, Nat.succ_pos _, rfl⟩

theorem witness_EqRemoveShiftsDown : IndexWitness := indexWitness

theorem witness_EqProcWalksTheChain : isNaN qNaN = true := by decide

theorem witness_EqProcbRunsTheSamples : isNaN qNaN = true ∧ State.reset.bands = [] := by decide

theorem witness_RdBandAnswersTheBand : IndexWitness := indexWitness

/-! ### Witnesses: arithmetic -/

/-- Ordinary numbers, the ends of the range, and an exact sum of zero that is left out. -/
theorem witness_OperationsRoundToNearestEven :
    isFinite one = true ∧ isFinite maxWord = true ∧ isFinite 0x0000000000000001 = true ∧
      (toRat one : ℝ) + toRat one ≠ 0 ∧ (toRat one : ℝ) - toRat (fneg one) ≠ 0 ∧
      isZero one = false ∧ isZero maxWord = false ∧ isZero 0x0000000000000001 = false ∧
      0 < toRat one := by
  refine ⟨by decide, by decide, by decide, ?_, ?_, by decide, by decide, by decide, ?_⟩
  · rw [toRat_one]; norm_num
  · rw [toRat_fneg, toRat_one]; norm_num
  · rw [toRat_one]; norm_num

theorem witness_SumsAndDifferencesSpecialCases :
    isNaN qNaN = true ∧ isInf negInf = true ∧ isFinite maxWord = true ∧ isZero maxWord = false ∧
      isNaN maxWord = false ∧ isZero negZero = true ∧ isNaN negInf = false ∧
      isZero negInf = false ∧ (toRat maxWord : ℝ) + toRat maxWord ≠ 0 := by
  refine ⟨by decide, by decide, by decide, by decide, by decide, by decide, by decide, by decide, ?_⟩
  have h := one_le_maxFinite
  rw [toRat_maxWord]
  linarith

/-- Half of the largest finite number: its double is that number. -/
theorem witness_ProductsQuotientsRootsSpecialCases :
    isNaN qNaN = true ∧ isNaN (fmul qNaN one maxWord) = false ∧
      isNaN (fdiv qNaN one posZero) = false ∧ isZero negZero = true ∧ isInf posInf = true ∧
      (isFinite maxWord = true ∧ isNaN maxWord = false ∧ isZero maxWord = false) ∧
      (isFinite 0x7FDFFFFFFFFFFFFF = true ∧ |2 * toRat 0x7FDFFFFFFFFFFFFF| ≤ maxFinite) ∧
      (isFinite 0x0020000000000000 = true ∧ 2 ≤ expField 0x0020000000000000) ∧
      (signBit 0x8000000000000001 = true ∧ isZero 0x8000000000000001 = false) := by
  refine ⟨by decide, by decide +kernel, by decide +kernel, by decide, by decide, by decide,
    ⟨by decide, ?_⟩, by decide, by decide⟩
  obtain ⟨v, hv, e⟩ := half_repr (a := maxWord) (by decide) (by decide)
  have h1 : toRat 0x7FDFFFFFFFFFFFFF = toRat maxWord / 2 := by
    apply toRat_of_units
    rw [div_mul_eq_mul_div, toRat_mul_rat, eq_div_iff (by norm_num)]
    have : units 0x7FDFFFFFFFFFFFFF * 2 = units maxWord := by decide +kernel
    exact_mod_cast this
  rw [h1, toRat_maxWord, mul_div_cancel₀ _ (by norm_num)]
  exact (abs_of_nonneg (by rw [maxFinite]; positivity)).le

theorem witness_ComparisonsAreNumeric :
    isNaN qNaN = true ∧ isFinite maxWord = true ∧ isFinite negZero = true := by decide

theorem witness_NaNResults : isNaN qNaN = true := by decide

/-- 1.0 and the F64 just below pi; a zero; the overflows of R100 and R101 at 400.0 and at -1000.0,
and the underflow of R100 at -1000.0;
and 10.0, the exact power for 1.0. -/
theorem witness_ElementaryFunctions :
    isNaN qNaN = true ∧ isInf negInf = true ∧ isZero negZero = true ∧ isNaN one = false ∧
      isFinite negZero = true ∧ (isFinite one = true ∧ 0 < toRat one ∧ (toRat one : ℝ) < Real.pi) ∧
      (isFinite 0x400921FB54442D18 = true ∧ 0 < toRat 0x400921FB54442D18 ∧
        (toRat 0x400921FB54442D18 : ℝ) < Real.pi) ∧
      (isFinite 0x4079000000000000 = true ∧
        (2 : ℝ) ^ 1024 ≤ (10 : ℝ) ^ (toRat 0x4079000000000000 : ℝ)) ∧
      (10 : ℝ) ^ (toRat 0xC08F400000000000 : ℝ) < (underflowBound : ℝ) ∧
      (isFinite 0xC08F400000000000 = true ∧
        (2 : ℝ) ^ 1024 ≤ |Real.sinh (toRat 0xC08F400000000000 : ℝ)|) ∧
      (isFinite 0x4024000000000000 = true ∧
        (toRat 0x4024000000000000 : ℝ) = (10 : ℝ) ^ (toRat one : ℝ)) := by
  have val : ∀ (w : Word) (x : ℤ), units w = x * 2 ^ 1074 → toRat w = x := by
    intro w x h
    apply toRat_of_units
    exact_mod_cast h
  have h : toRat 0x400921FB54442D18 = 7074237752028440 / 2 ^ 51 := by
    have : units 0x400921FB54442D18 * 2 ^ 51 = 7074237752028440 * 2 ^ 1074 := by decide +kernel
    have : (units 0x400921FB54442D18 : ℚ) * 2 ^ 51 = 7074237752028440 * 2 ^ 1074 := by
      exact_mod_cast this
    apply toRat_of_units
    rw [div_mul_eq_mul_div, eq_div_iff (by norm_num)]
    exact this
  have h400 := val 0x4079000000000000 400 (by decide +kernel)
  have h1000 := val 0xC08F400000000000 (-1000) (by decide +kernel)
  have h10 := val 0x4024000000000000 10 (by decide +kernel)
  refine ⟨by decide, by decide, by decide, by decide, by decide, ⟨by decide, ?_, ?_⟩,
    ⟨by decide, ?_, ?_⟩, ⟨by decide, ?_⟩, ?_, ⟨by decide, ?_⟩, by decide, ?_⟩
  · rw [toRat_one]; norm_num
  · rw [toRat_one]; norm_num; linarith [Real.pi_gt_three]
  · rw [h]; norm_num
  · rw [h]; push_cast; linarith [Real.pi_gt_d20]
  · rw [h400]
    push_cast
    calc (2 : ℝ) ^ 1024 ≤ 2 ^ (3 * 400) := pow_le_pow_right₀ (by norm_num) (by norm_num)
      _ = (2 ^ 3) ^ 400 := pow_mul _ _ _
      _ ≤ 10 ^ 400 := pow_le_pow_left₀ (by norm_num) (by norm_num) 400
      _ = (10 : ℝ) ^ (400 : ℝ) := by rw [← Real.rpow_natCast]; norm_num
  · rw [h1000, underflowBound]
    push_cast
    rw [Real.rpow_neg (by norm_num), ← one_div]
    refine one_div_lt_one_div_of_lt (by positivity) ?_
    calc (2 : ℝ) ^ 1075 < 2 ^ (3 * 1000) := pow_lt_pow_right₀ (by norm_num) (by norm_num)
      _ = (2 ^ 3) ^ 1000 := pow_mul _ _ _
      _ ≤ 10 ^ 1000 := pow_le_pow_left₀ (by norm_num) (by norm_num) 1000
      _ = (10 : ℝ) ^ (1000 : ℝ) := by rw [← Real.rpow_natCast]; norm_num
  · have e1 : (2 : ℝ) ^ 1026 ≤ Real.exp 1000 := by
      have he : (2.7 : ℝ) ≤ Real.exp 1 := by linarith [Real.exp_one_gt_d9]
      have h4 : (2 : ℝ) ^ 5 ≤ Real.exp 1 ^ 4 :=
        le_trans (by norm_num) (pow_le_pow_left₀ (by norm_num) he 4)
      calc (2 : ℝ) ^ 1026 ≤ 2 ^ (5 * 250) := pow_le_pow_right₀ (by norm_num) (by norm_num)
        _ = (2 ^ 5) ^ 250 := pow_mul _ _ _
        _ ≤ (Real.exp 1 ^ 4) ^ 250 := pow_le_pow_left₀ (by norm_num) h4 250
        _ = Real.exp 1000 := by rw [← pow_mul, ← Real.exp_nat_mul]; norm_num
    have e2 : Real.exp (-1000) ≤ 1 := Real.exp_le_one_iff.mpr (by norm_num)
    rw [h1000]
    push_cast
    rw [Real.sinh_neg, abs_neg, Real.sinh_eq]
    refine le_trans ?_ (le_abs_self _)
    have e3 : (2 : ℝ) ^ 1026 = 4 * 2 ^ 1024 := by rw [show 1026 = 1024 + 2 from rfl, pow_add]; ring
    have e4 : (1 : ℝ) ≤ 2 ^ 1024 := one_le_pow₀ (by norm_num)
    rw [e3] at e1
    clear e3
    generalize (2 : ℝ) ^ 1024 = P at *
    linarith
  · rw [h10, toRat_one]
    norm_num

/-! ### Witnesses: processing -/

theorem witness_BqBlockEqualsSingleSamples :
    (0 : BitVec 8).toNat < v54.N ∧ (2 : BitVec 8).toNat < v54.N := by decide

theorem witness_BandMajorEqualsSampleMajor : ∀ k : Nat, AllNaN ((fun _ => nans) k) :=
  fun _ => allNaN_nans

theorem witness_EqProcEqualsBqProcs :
    (1 ≤ v54.N ∧ 1 ≤ fullStore.N ∧ fullStore.N ≤ Config.MAXBANDS) ∧
      ∃ s : State, s.N = 1 ∧ s.N ≤ Config.MAXBANDS :=
  ⟨⟨by decide, by rw [fullStore_N]; exact Nat.succ_pos _, fullStore_N.le⟩,
    chain [⟨v20, ⟨0, 0⟩⟩], rfl, Nat.succ_le_of_lt (Nat.succ_pos _)⟩

/-- Blocks of different lengths that agree up to sample 0, and up to sample 1. -/
theorem witness_BlockOutputsAreStreamed :
    (0 < [one, two].length ∧ 0 < [one].length ∧ [one, two].take 1 = [one].take 1) ∧
      (1 < [one, two, qNaN].length ∧ 1 < [one, two, half].length ∧
        [one, two, qNaN].take 2 = [one, two, half].take 2) ∧ (0 : BitVec 8).toNat < v54.N := by
  decide

/-- Two states whose NaN payloads and counters differ. -/
theorem witness_StepIgnoresNaNPayloads :
    SameState { chain [⟨v20, ⟨qNaN, 0⟩⟩] with respPort := [[0x0000000100000500, qNaN]] }
      { chain [⟨v20, ⟨0xFFF8000000000123, 0⟩⟩] with
        respPort := [[0x0000000100000500, 0x7FF8000000000001]], nanDraws := 7 } :=
  ⟨.cons ⟨.refl _, .inr (by decide), .refl _⟩ .nil, rfl,
    .cons ⟨rfl, .cons (.inr (by decide)) .nil⟩ .nil⟩

theorem zeros_of_both_signs : ∀ x ∈ [posZero, negZero], isZero x = true := by
  intro x hx
  rcases List.mem_pair.mp hx with rfl | rfl <;> decide

theorem witness_ZeroInZeroOutOneBand :
    (chain [⟨v20, ⟨0, negZero⟩⟩]).bands[(0 : BitVec 8).toNat]? = some ⟨v20, ⟨0, negZero⟩⟩ ∧
      coeffsFinite v20 = true ∧ Delay.zeros ⟨0, negZero⟩ = true ∧
      ∀ x ∈ [posZero, negZero], isZero x = true :=
  ⟨rfl, by decide, by decide, zeros_of_both_signs⟩

theorem witness_ZeroInZeroOutChain :
    (∀ b ∈ v56.bands, coeffsFinite b.coef = true) ∧ ∀ x ∈ [posZero, negZero], isZero x = true :=
  ⟨by decide, zeros_of_both_signs⟩

/-- V20's band, and the corner of R163: `b0 = -0` with `s1 = +0`. -/
theorem witness_ImpulseResponseStartsWithB0 :
    (v56.bands[(0 : BitVec 8).toNat]? = some ⟨v20, ⟨0, 0⟩⟩ ∧ isZero (0 : Word) = true ∧
      isNaN v20.b0 = false ∧ ¬ (v20.b0 = negZero ∧ (0 : Word) = posZero)) ∧
    ((chain [⟨⟨negZero, 0, 0, 0, 0⟩, ⟨posZero, 0⟩⟩]).bands[(0 : BitVec 8).toNat]? =
        some ⟨⟨negZero, 0, 0, 0, 0⟩, ⟨posZero, 0⟩⟩ ∧ isZero posZero = true ∧
      isNaN negZero = false) := by decide

/-- The coefficients of V35. -/
def v35 : Coeffs :=
  ⟨one, 0xBFFDC854389C37D9, 0x3FEC143CF09872E6, 0xBFFDC854389C37D9, 0x3FEC143CF09872E6⟩

/-- The samples of P5, and `-0`. -/
def p5Samples : List Word := [0x3FD7AE147AE147AE, 0xBFD0000000000000, one, negZero]

theorem p5Samples_admitted :
    ∀ x ∈ p5Samples, isFinite x = true ∧ isFinite (fmul qNaN v35.a1 x) = true ∧
      isFinite (fmul qNaN v35.a2 x) = true := by
  have h : p5Samples.all (fun x => isFinite x && isFinite (fmul qNaN v35.a1 x) &&
      isFinite (fmul qNaN v35.a2 x)) = true := by decide +kernel
  intro x hx
  simpa [and_assoc] using List.all_eq_true.mp h x hx

/-- The band and the samples of P5, and `-0`. -/
theorem witness_IdentityBandPassesTheStream :
    isNaN qNaN = true ∧
      (chain [⟨v35, ⟨0, 0⟩⟩]).bands[(0 : BitVec 8).toNat]? = some ⟨v35, ⟨0, 0⟩⟩ ∧
      identityShape v35 ∧ Delay.zeros ⟨0, 0⟩ = true ∧
      ∀ x ∈ p5Samples, isFinite x = true ∧ isFinite (fmul qNaN v35.a1 x) = true ∧
        isFinite (fmul qNaN v35.a2 x) = true :=
  ⟨by decide, rfl, ⟨rfl, rfl, rfl, by decide⟩, by decide, p5Samples_admitted⟩

theorem witness_NaNRegistersStay :
    (chain [⟨v20, ⟨0, 0⟩⟩, ⟨v20, ⟨qNaN, 0⟩⟩]).bands[1]? = some ⟨v20, ⟨qNaN, 0⟩⟩ ∧
      (chain [⟨v20, ⟨0, qNaN⟩⟩]).bands[(0 : BitVec 8).toNat]? = some ⟨v20, ⟨0, qNaN⟩⟩ ∧
      isNaN qNaN = true := by decide

/-- A number whose pattern is a power of two. -/
theorem toRat_powTwo {w : Word} (k : Nat) (hs : signBit w = false) (hf : fracField w = 0)
    (he : 0 < expField w) (h : expField w + k = 1023) : toRat w = 1 / 2 ^ k := by
  apply toRat_of_units
  rw [units, hs, magUnits, hf, if_neg (by decide), if_neg (by omega)]
  obtain ⟨e, e1⟩ : ∃ e, expField w = e + 1 := ⟨expField w - 1, by omega⟩
  rw [e1, Nat.add_sub_cancel, show 1074 = 52 + e + k by omega, pow_add, pow_add]
  have h52 : (2 : ℚ) ^ k ≠ 0 := by positivity
  push_cast
  generalize (2 : ℚ) ^ k = K at *
  generalize (2 : ℚ) ^ e = E at *
  field_simp
  ring

/-- Row 0 of V20: every intermediate result is an F64. -/
theorem witness_StepIsExactWhenRepresentable :
    let c := exactCoeffs v20
    let u := toRat one
    let y := c.b0 * u + toRat posZero
    (v56.bands[(0 : BitVec 8).toNat]? = some ⟨v20, ⟨posZero, posZero⟩⟩ ∧ coeffsFinite v20 = true ∧
      isFinite posZero = true ∧ isFinite one = true) ∧
    Representable (c.b0 * u) ∧ Representable y ∧ Representable (c.b1 * u) ∧
    Representable (c.a1 * y) ∧ Representable (c.b1 * u - c.a1 * y) ∧
    Representable (c.b1 * u - c.a1 * y + toRat posZero) ∧ Representable (c.b2 * u) ∧
    Representable (c.a2 * y) ∧ Representable (c.b2 * u - c.a2 * y) := by
  have e1 : toRat 0x3FE0000000000000 = 1 / 2 ^ 1 :=
    toRat_powTwo 1 (by decide) (by decide) (by decide) (by decide)
  have e2 : toRat 0x3FD0000000000000 = 1 / 2 ^ 2 :=
    toRat_powTwo 2 (by decide) (by decide) (by decide) (by decide)
  have e3 : toRat 0x3FC0000000000000 = 1 / 2 ^ 3 :=
    toRat_powTwo 3 (by decide) (by decide) (by decide) (by decide)
  have e4 : toRat 0xBFE0000000000000 = -(1 / 2 ^ 1) := by
    rw [show (0xBFE0000000000000 : Word) = fneg 0x3FE0000000000000 by decide, toRat_fneg, e1]
  have e5 : toRat 0xBFD0000000000000 = -(1 / 2 ^ 2) := by
    rw [show (0xBFD0000000000000 : Word) = fneg 0x3FD0000000000000 by decide, toRat_fneg, e2]
  have e0 : toRat posZero = 0 := toRat_of_isZero (by decide)
  intro c u y
  have hc : c = ⟨1 / 2 ^ 1, 1 / 2 ^ 2, 1 / 2 ^ 3, -(1 / 2 ^ 1), 1 / 2 ^ 2⟩ := by
    simp only [c, exactCoeffs, v20, e1, e2, e3, e4]
  have hu : u = 1 := toRat_one
  have hy : y = 1 / 2 := by simp only [y, hc, hu, e0]; norm_num
  simp only [hc, hu, hy, e0]
  refine ⟨⟨rfl, by decide, by decide, by decide⟩, ⟨_, ?_, e1.trans ?_⟩, ⟨_, ?_, e1.trans ?_⟩,
    ⟨_, ?_, e2.trans ?_⟩, ⟨_, ?_, e5.trans ?_⟩, ⟨_, ?_, e1.trans ?_⟩, ⟨_, ?_, e1.trans ?_⟩,
    ⟨_, ?_, e3.trans ?_⟩, ⟨_, ?_, e3.trans ?_⟩, ⟨_, ?_, e0.trans ?_⟩⟩
  all_goals first | decide | norm_num

/-! ### Witnesses: the mathematics of the formulas -/

theorem witness_ExactFormulasAreStable :
    (0 : ℝ) < 1 ∧ (1 : ℝ) < Real.pi ∧ (1 : ℝ) * 1 = 1 ∧
      ∃ z : ℂ, z ^ 2 + ((0 : ℝ) : ℂ) * z + ((0 : ℝ) : ℂ) = 0 :=
  ⟨one_pos, by linarith [Real.pi_gt_three], one_mul 1, 0, by simp⟩

theorem witness_CoefficientShapes (num : Numerics) :
    AllNaN nans ∧ isZero p30.g = true ∧ ∀ ft, ∃ c, design num Config.SHAPE nans ft p30 = some c :=
  ⟨allNaN_nans, by decide, p30_designed num⟩

/-- An all-pass design with finite coefficients (-0.5, -0.25, 1, -0.25, -0.5), and the point 1 of the
unit circle, where the denominator is 0.25. -/
theorem witness_AllPassHasUnitMagnitude :
    AllNaN nans ∧
      design (constant 0x3FE8000000000000 half one 0) Config.SHAPE nans .allPass
        ⟨0x40E5888000000000, 0x408F400000000000, 0x3FC0000000000000, 0⟩ =
        some ⟨0xBFE0000000000000, 0xBFD0000000000000, one, 0xBFD0000000000000,
          0xBFE0000000000000⟩ ∧
      coeffsFinite ⟨0xBFE0000000000000, 0xBFD0000000000000, one, 0xBFD0000000000000,
        0xBFE0000000000000⟩ = true ∧
      ‖(1 : ℂ)‖ = 1 ∧ 1 + (toRat 0xBFD0000000000000 : ℂ) * 1 +
        (toRat 0xBFE0000000000000 : ℂ) * 1 ^ 2 ≠ 0 := by
  refine ⟨allNaN_nans, by decide +kernel, by decide, norm_one, ?_⟩
  rw [show (0xBFE0000000000000 : Word) = fneg 0x3FE0000000000000 by decide, toRat_fneg,
    toRat_powTwo (w := 0x3FE0000000000000) 1 (by decide) (by decide) (by decide) (by decide),
    show (0xBFD0000000000000 : Word) = fneg 0x3FD0000000000000 by decide, toRat_fneg,
    toRat_powTwo (w := 0x3FD0000000000000) 2 (by decide) (by decide) (by decide) (by decide)]
  norm_num

/-- V35, P5. -/
theorem witness_PeakingAtZeroGainIsTheIdentity :
    AllNaN nans ∧ isNaN qNaN = true ∧ isZero (0 : Word) = true ∧
      design (constant 0x3FC0B5150F6DA2D0 0x3FEFB9EA92EC689B 0 0) Config.SHAPE nans .peaking
        ⟨0x40E7700000000000, 0x408F400000000000, one, 0⟩ = some v35 ∧
      coeffsFinite v35 = true ∧ (chain [⟨v35, ⟨0, 0⟩⟩]).bands = [⟨v35, ⟨0, 0⟩⟩] ∧
      ∀ x ∈ p5Samples, isFinite x = true ∧ isFinite (fmul qNaN v35.a1 x) = true ∧
        isFinite (fmul qNaN v35.a2 x) = true :=
  ⟨allNaN_nans, by decide, by decide, by decide +kernel, by decide, rfl,
    p5Samples_admitted⟩

end Sys2Proof.Tests
end

section
/-!
PROOFS. The encoder's packet of a well-formed command decodes to it (R70, R73), and a step takes the
oldest event off the command port and performs it (R15, R47, R213).
-/

namespace Sys2Proof

/-- The decoder reads a header with zeros in the unused fields through its opcode's format (R70). -/
theorem decode_headerWord {o : Opcode} {idx : BitVec 8} {ft : FilterType} {ops : List Word}
    {i : Instr} (hidx : o.usesIdx = false → idx = 0)
    (hft : o.usesFt = false → ft.code = 0) (hread : o.read idx ft ops = .ok i) :
    decode (headerWord o.byte idx ft.code :: ops) = .ok i :=
  decode_eq_ok.mpr ⟨_, ops, o, rfl, by simp, by simp, by simpa using hidx, by simpa using hft,
    by simpa using hread⟩

/-- With `FT = 0`, the code of `lowPass`, no command has a set bit in an unused `FT` (R63, R71). -/
theorem decode_headerWord_untyped {o : Opcode} {idx : BitVec 8} {ops : List Word} {i : Instr}
    (hidx : o.usesIdx = false → idx = 0) (hread : o.read idx .lowPass ops = .ok i) :
    decode (headerWord o.byte idx 0 :: ops) = .ok i :=
  decode_headerWord (ft := .lowPass) hidx (fun _ => rfl) hread

/-- R73: the decoder reads the encoder's packet of a well-formed command as that command. -/
theorem decode_encode {i : Instr} (h : i.wf = true) : decode (encode i) = .ok i := by
  cases i with
  | design ft p =>
    exact decode_headerWord (o := .design) (fun _ => rfl) nofun (readHP_eq_ok.mpr ⟨p, rfl, rfl⟩)
  | bqNew => exact decode_headerWord_untyped (o := .bqNew) (fun _ => rfl) rfl
  | bqSetcoef idx c =>
    exact decode_headerWord_untyped (o := .bqSetcoef) nofun (readHC_eq_ok.mpr ⟨c, rfl, rfl⟩)
  | bqReset idx => exact decode_headerWord_untyped (o := .bqReset) nofun rfl
  | bqProc idx x => exact decode_headerWord_untyped (o := .bqProc) nofun rfl
  | bqProcb idx xs =>
    exact decode_headerWord_untyped (o := .bqProcb) nofun (readHX_eq_ok.mpr ⟨h, rfl⟩)
  | eqAdd ft p =>
    exact decode_headerWord (o := .eqAdd) (fun _ => rfl) nofun (readHP_eq_ok.mpr ⟨p, rfl, rfl⟩)
  | eqSet idx ft p =>
    exact decode_headerWord (o := .eqSet) nofun nofun (readHP_eq_ok.mpr ⟨p, rfl, rfl⟩)
  | eqRemove idx => exact decode_headerWord_untyped (o := .eqRemove) nofun rfl
  | eqReset => exact decode_headerWord_untyped (o := .eqReset) (fun _ => rfl) rfl
  | eqProc x => exact decode_headerWord_untyped (o := .eqProc) (fun _ => rfl) rfl
  | eqProcb xs =>
    exact decode_headerWord_untyped (o := .eqProcb) (fun _ => rfl) (readHX_eq_ok.mpr ⟨h, rfl⟩)
  | rdCount => exact decode_headerWord_untyped (o := .rdCount) (fun _ => rfl) rfl
  | rdBand idx => exact decode_headerWord_untyped (o := .rdBand) nofun rfl

end Sys2Proof

namespace Sys2Proof.Machine

theorem dropEvent_of_cmdPort {s : State} {e : HostEvent} {rest : List HostEvent}
    (h : s.cmdPort = e :: rest) : s.dropEvent = { s with cmdPort := rest } := by
  simp [State.dropEvent, h]

/-- A packet put first on the command port is the next to be performed. -/
theorem step_withPacket {s : State} {p : Packet} {i : Instr} (hd : decode p = .ok i) :
    step (s.withPacket p) = exec i s := by
  rw [step_packet (withPacket_cmdPort ..) hd, withPacket_dropEvent]

/-- Settles O5: a step performs the packet it takes (`step_packet`), and the encoder's packets decode
(`decode_encode`). -/
theorem stepRunsTheDecodedCommand : Obligations.StepRunsTheDecodedCommand := by
  refine ⟨fun s p rest i h hd => ?decoded, fun s i hwf => ?encoded, fun s h => ?idle⟩
  case decoded => rw [step_packet h hd, dropEvent_of_cmdPort h]
  case encoded => exact step_withPacket (decode_encode hwf)
  case idle => exact step_idle h

end Sys2Proof.Machine
end

section
/-!
PROOFS. The reset state (R34), what writes the band count (R24), the invariant of the step (R24,
R48, R68, R69), and what each command leaves as it was (R35).
-/

namespace Sys2Proof.Machine

/-! ### The reset state -/

/-- Settles O11: at reset no slot is occupied and no response has left the block. -/
theorem resetMeetsInvariant : Obligations.ResetMeetsInvariant :=
  ⟨Nat.zero_le _, fun _ hr => absurd hr List.not_mem_nil⟩

/-- Settles O7: the walk over no band hands the sample on (`answers_eqProc`). -/
theorem resetStateIsTheEmptyChain : Obligations.ResetStateIsTheEmptyChain :=
  ⟨rfl, rfl, rfl, answers_eqProc⟩

/-! ### The tests of R202, passed -/

/-- A command owes OK exactly when it passes every test of R202 that it is put to. -/
theorem owedStatus_eq_ok {i : Instr} {s : State} :
    owedStatus i s = .OK ↔
      (∀ ft p, designRequest? i = some (ft, p) → validParams posZero ft p = true) ∧
      (∀ idx, index? i = some idx → idx.toNat < s.N) ∧
      (appends i = true → s.N ≠ Config.MAXBANDS) := by
  unfold owedStatus
  split_ifs with hinvalid hrange hfull
  · obtain ⟨⟨ft, p⟩, hreq, hbad⟩ := (Option.any_eq_true ..).mp hinvalid
    refine iff_of_false (by decide) fun ⟨hvalid, _, _⟩ => ?_
    simp [hvalid ft p hreq] at hbad
  · obtain ⟨idx, hidx, hle⟩ := (Option.any_eq_true ..).mp hrange
    refine iff_of_false (by decide) fun ⟨_, hlt, _⟩ => ?_
    exact absurd (hlt idx hidx) (not_lt.mpr (of_decide_eq_true hle))
  · exact iff_of_false (by decide) fun ⟨_, _, hroom⟩ => hroom hfull.1 hfull.2
  · refine iff_of_true rfl ⟨fun ft p hreq => ?_, fun idx hidx => ?_, fun ha hN => hfull ⟨ha, hN⟩⟩
    · simpa [hreq] using hinvalid
    · simpa [hidx] using hrange

/-! ### What a completed command has done -/

section exec
variable {i : Instr} {s t : State}

/-- `exec` answers one state, so what a command answers is what its next state holds. -/
theorem Answers.of_exec {st : Status} {val : BitVec 8} {data : List Word} {bands : List Band}
    (ha : Answers i s st val data bands) (h : exec i s = .next t) :
    t.bands = bands ∧ t.cmdPort = s.cmdPort ∧
      t.respPort = s.respPort ++ [responsePacket i.opcode.byte st val data] := by
  obtain ⟨t', h', hb, hc, hr⟩ := ha
  obtain rfl : t' = t := by simpa [h'] using h
  exact ⟨hb, hc, hr⟩

theorem Answers.bands_of_exec {st : Status} {val : BitVec 8} {data : List Word} {bands : List Band}
    (ha : Answers i s st val data bands) (h : exec i s = .next t) : t.bands = bands :=
  (ha.of_exec h).1

/-- No command faults or is refused (R18). -/
theorem exec_next (i : Instr) (s : State) : ∃ t, exec i s = .next t := by
  obtain ⟨_, _, _, ⟨t, h, -⟩, -⟩ := exec_answers i s
  exact ⟨t, h⟩

theorem exec_ports (h : exec i s = .next t) :
    t.cmdPort = s.cmdPort ∧ ∃ r, t.respPort = s.respPort ++ [r] := by
  obtain ⟨_, _, _, ha, -⟩ := exec_answers i s
  obtain ⟨-, hc, hr⟩ := ha.of_exec h
  exact ⟨hc, _, hr⟩

/-- The response of a command that a packet can carry is well formed: a block's outputs fit CNT
(R66, R68). -/
theorem exec_responseWf (hw : i.wf = true) (h : exec i s = .next t) :
    ∃ r, t.respPort = s.respPort ++ [r] ∧ ResponseWf r := by
  obtain ⟨val, data, bands, ha, herr, -, hlen⟩ := exec_answers i s
  obtain ⟨-, -, hr⟩ := ha.of_exec h
  refine ⟨_, hr, responseWf_responsePacket (hlen hw) fun hne => ?_⟩
  obtain ⟨hval, hdata, -⟩ := herr hne
  exact ⟨hval, hdata⟩

/-- An error leaves the band store (R204). -/
theorem exec_bands_of_error (hne : owedStatus i s ≠ .OK) (h : exec i s = .next t) :
    t.bands = s.bands := by
  obtain ⟨_, _, bands, ha, herr, -⟩ := exec_answers i s
  obtain ⟨-, -, hb⟩ := herr hne
  exact (ha.bands_of_exec h).trans hb

/-- The count after a command: `countAfter` if it succeeds, and else the count before. -/
theorem exec_N (h : exec i s = .next t) :
    t.N = if owedStatus i s = .OK then countAfter i s.N else s.N := by
  split_ifs with hok
  · obtain ⟨_, _, bands, ha, -, hcount, -⟩ := exec_answers i s
    obtain ⟨hN, -⟩ := hcount hok
    rw [State.N, ha.bands_of_exec h, hN]
  · rw [State.N, exec_bands_of_error hok h, State.N]

end exec

/-! ### The band count -/

theorem maxBands_le : Config.MAXBANDS ≤ 255 := Config.maxBandsLessOne.isLt

/-- The 8-bit register holds every count in the range of R24. -/
theorem countReg_toNat {s : State} (h : s.N ≤ Config.MAXBANDS) : s.countReg.toNat = s.N := by
  have hlt : s.N < 2 ^ 8 := Nat.lt_succ_of_le (h.trans maxBands_le)
  rw [State.countReg, BitVec.toNat_ofNat, Nat.mod_eq_of_lt hlt]

/-- Settles O17: the count after a command is `exec_N`'s, and an illegal packet has no effect but
its response. -/
theorem bandCountWrites : Obligations.BandCountWrites := by
  refine ⟨fun i s => ?command, fun s rest h => ?reset, fun s p rest e h hd => ?illegal,
    fun s => countReg_toNat⟩
  case command =>
    obtain ⟨t, h⟩ := exec_next i s
    refine ⟨t, h, (exec_N h).trans ?_⟩
    cases i <;> rfl
  case reset => exact ⟨_, step_reset h, rfl⟩
  case illegal => exact ⟨_, step_illegal h hd, rfl⟩

/-! ### The invariant of the step -/

/-- Only a command that appends leaves more bands, and it leaves one more. -/
theorem countAfter_le (i : Instr) (n : Nat) :
    countAfter i n ≤ if appends i = true then n + 1 else n := by
  cases i <;> simp [countAfter, appends]

/-- R24: a successful append found the store not full (R156, R172). -/
theorem countAfter_le_maxBands {i : Instr} {s : State} (hN : s.N ≤ Config.MAXBANDS)
    (hok : owedStatus i s = .OK) : countAfter i s.N ≤ Config.MAXBANDS := by
  obtain ⟨-, -, hroom⟩ := owedStatus_eq_ok.mp hok
  have hle := countAfter_le i s.N
  split_ifs at hle with ha
  · have := hroom ha
    omega
  · exact hle.trans hN

/-- Emitting one well-formed response keeps the invariant while the count is in its range. -/
theorem State.Inv.emit {s t : State} {r : Packet} (hs : s.Inv) (hN : t.N ≤ Config.MAXBANDS)
    (hr : t.respPort = s.respPort ++ [r]) (hwf : ResponseWf r) : t.Inv := by
  refine ⟨hN, fun r' hr' => ?_⟩
  rw [hr, List.mem_append, List.mem_singleton] at hr'
  obtain hold | rfl := hr'
  · exact hs.2 r' hold
  · exact hwf

/-- A command that a packet can carry keeps the invariant. -/
theorem exec_preserves_inv {i : Instr} {s t : State} (hw : i.wf = true) (hs : s.Inv)
    (h : exec i s = .next t) : t.Inv := by
  obtain ⟨r, hr, hwf⟩ := exec_responseWf hw h
  refine hs.emit ?_ hr hwf
  rw [exec_N h]
  split_ifs with hok
  · exact countAfter_le_maxBands hs.1 hok
  · exact hs.1

theorem answerIllegal_preserves_inv {s : State} (p : Packet) (hs : s.Inv) :
    (answerIllegal p s).Inv :=
  hs.emit hs.1 (answerIllegal_respPort ..)
    (responseWf_responsePacket (Nat.zero_le _) fun _ => ⟨rfl, rfl⟩)

/-- Settles O12, by what the step finds on the command port: nothing, a reset pulse, a packet that
the decoder rejects, or one that it reads, whose command is then well formed (`wf_of_decode`). -/
theorem stepKeepsInvariant : Obligations.StepKeepsInvariant := by
  intro s t hs h
  have hdrop : s.dropEvent.Inv := hs
  cases hport : s.cmdPort with
  | nil =>
    obtain rfl : s = t := by simpa [step_idle hport] using h
    exact hs
  | cons e rest =>
    cases e with
    | reset =>
      obtain rfl : hardwareReset s.dropEvent = t := by simpa [step_reset hport] using h
      exact ⟨Nat.zero_le _, hs.2⟩
    | packet p =>
      cases hd : decode p with
      | error e =>
        obtain rfl : answerIllegal p s.dropEvent = t := by simpa [step_illegal hport hd] using h
        exact answerIllegal_preserves_inv p hdrop
      | ok i =>
        rw [step_packet hport hd] at h
        exact exec_preserves_inv (wf_of_decode hd) hdrop h

/-! ### The frames of the commands (R35) -/

section frames
variable {i : Instr} {s t : State} {st : Status} {val : BitVec 8} {data : List Word}
  {idx : BitVec 8} {b b' : Band}

/-- A command that writes slot `idx` and keeps its coefficients. -/
theorem Answers.frame_coef (ha : Answers i s st val data (s.bands.set idx.toNat b'))
    (h : exec i s = .next t) (hb : s.bands[idx.toNat]? = some b) (hcoef : b'.coef = b.coef) :
    t.bands.map Band.coef = s.bands.map Band.coef ∧
      ∀ j, j ≠ idx.toNat → t.bands[j]? = s.bands[j]? := by
  rw [ha.bands_of_exec h]
  exact Machine.frame_coef hb hcoef

/-- A command that writes slot `idx` and keeps its delay registers. -/
theorem Answers.frame_dly (ha : Answers i s st val data (s.bands.set idx.toNat b'))
    (h : exec i s = .next t) (hb : s.bands[idx.toNat]? = some b) (hdly : b'.dly = b.dly) :
    t.bands.map Band.dly = s.bands.map Band.dly ∧
      ∀ j, j ≠ idx.toNat → t.bands[j]? = s.bands[j]? := by
  rw [ha.bands_of_exec h]
  exact Machine.frame_dly hb hdly

end frames

/-- Settles O16. An error leaves every band (`exec_bands_of_error`); a command that succeeds has the
band and the design that it asks for, and leaves the store its `answers_` lemma names. -/
theorem commandFrames : Obligations.CommandFrames := by
  intro i s
  obtain ⟨t, h⟩ := exec_next i s
  obtain ⟨hcmd, hresp⟩ := exec_ports h
  refine ⟨t, h, hcmd, hresp, ?_⟩
  by_cases hok : owedStatus i s = .OK
  case neg =>
    rw [exec_bands_of_error hok h]
    cases i <;> simp
  case pos =>
    obtain ⟨hvalid, hidx, hroom⟩ := owedStatus_eq_ok.mp hok
    cases i with
    | design ft p =>
      exact (answers_design (state_design_some (hvalid ft p rfl))).bands_of_exec h
    | bqNew => exact .inr ⟨_, (answers_bqNew (hroom rfl)).bands_of_exec h⟩
    | bqSetcoef idx c =>
      obtain ⟨b, hb⟩ := exists_band (hidx idx rfl)
      exact (answers_bqSetcoef hb c).frame_dly h hb rfl
    | bqReset idx =>
      obtain ⟨b, hb⟩ := exists_band (hidx idx rfl)
      exact (answers_bqReset hb).frame_coef h hb rfl
    | bqProc idx x =>
      obtain ⟨b, hb⟩ := exists_band (hidx idx rfl)
      exact (answers_bqProc hb x).frame_coef h hb rfl
    | bqProcb idx xs =>
      obtain ⟨b, hb⟩ := exists_band (hidx idx rfl)
      exact (answers_bqProcb hb xs).frame_coef h hb rfl
    | eqAdd ft p =>
      have hdesign := state_design_some (s := s) (hvalid ft p rfl)
      exact .inr ⟨_, (answers_eqAdd hdesign (hroom rfl)).bands_of_exec h⟩
    | eqSet idx ft p =>
      obtain ⟨b, hb⟩ := exists_band (hidx idx rfl)
      exact (answers_eqSet (state_design_some (hvalid ft p rfl)) hb).frame_dly h hb rfl
    | eqRemove idx =>
      obtain ⟨b, hb⟩ := exists_band (hidx idx rfl)
      rw [(answers_eqRemove hb).bands_of_exec h]
      exact fun j hj => List.getElem?_eraseIdx_of_lt hj
    | eqReset =>
      rw [answers_eqReset.bands_of_exec h]
      simp
    | eqProc x =>
      rw [(answers_eqProc x).bands_of_exec h]
      exact eqStep_coefs ..
    | eqProcb xs =>
      rw [(answers_eqProcb xs).bands_of_exec h]
      exact eqBlock_coefs ..
    | rdCount => exact answers_rdCount.bands_of_exec h
    | rdBand idx =>
      obtain ⟨b, hb⟩ := exists_band (hidx idx rfl)
      exact (answers_rdBand hb).bands_of_exec h

end Sys2Proof.Machine
end

section
/-!
PROOFS. The decoder accepts the packets of the opcode table (R67, R70) and rejects those of R71; it
and the encoder are inverse to each other (R73).
-/

namespace Sys2Proof

/-! ### Header words by their fields (R61) -/

theorem bitvec_append_inj {m n : Nat} {a c : BitVec m} {b d : BitVec n} :
    a ++ b = c ++ d ↔ a = c ∧ b = d := by
  refine ⟨fun h => ⟨?high, ?low⟩, fun ⟨ha, hb⟩ => ha ▸ hb ▸ rfl⟩
  case high => simpa [BitVec.extractLsb'_append_eq_left] using congrArg (BitVec.extractLsb' n m) h
  case low => simpa [BitVec.extractLsb'_append_eq_right] using congrArg (BitVec.extractLsb' 0 n) h

/-- A masked match of four fields laid side by side is a masked match of each. -/
theorem and_append_fields_eq_iff {k l m n : Nat} {a a' r : BitVec k} {b b' s : BitVec l}
    {c c' t : BitVec m} {d d' u : BitVec n} :
    (a ++ b ++ c ++ d) &&& (a' ++ b' ++ c' ++ d') = r ++ s ++ t ++ u ↔
      ((a &&& a' = r ∧ b &&& b' = s) ∧ c &&& c' = t) ∧ d &&& d' = u := by
  simp only [BitVec.and_append, bitvec_append_inj]

/-- Every word is its four fields, also one with reserved bits set. -/
theorem append_fields (h : Word) : headerRsv h ++ headerFt h ++ headerIdx h ++ headerOpc h = h := by
  simp only [headerRsv, headerFt, headerIdx, headerOpc]
  rw [BitVec.extractLsb'_append_extractLsb'_eq_extractLsb' (by rfl),
    BitVec.extractLsb'_append_extractLsb'_eq_extractLsb' (by rfl),
    BitVec.extractLsb'_append_extractLsb'_eq_extractLsb' (by rfl)]
  exact BitVec.extractLsb'_eq_self

/-- A row's mask leaves open the fields that its command uses, and no other bit (R67). -/
theorem Opcode.row_mask (o : Opcode) :
    o.row.mask = BitVec.allOnes 45 ++ (if o.usesFt then 0 else BitVec.allOnes 3) ++
      (if o.usesIdx then 0 else BitVec.allOnes 8) ++ BitVec.allOnes 8 := by
  cases o <;> rfl

theorem Opcode.row_mtch (o : Opcode) : o.row.mtch = headerWord o.byte 0 0 := by
  cases o <;> rfl

/-- A mask that is zero for a used field and all ones for another tests only the other for zero. -/
theorem and_ite_allOnes_eq_zero {n : Nat} {used : Bool} {x : BitVec n} :
    x &&& (if used then 0 else BitVec.allOnes n) = 0 ↔ (used = false → x = 0) := by
  cases used <;> simp

/-- The masked match of a row, field by field. -/
theorem Opcode.row_masks_iff {o : Opcode} {h : Word} :
    h &&& o.row.mask = o.row.mtch ↔
      o.byte = headerOpc h ∧ headerRsv h = 0 ∧ (o.usesIdx = false → headerIdx h = 0) ∧
        (o.usesFt = false → headerFt h = 0) := by
  conv_lhs => rw [← append_fields h, o.row_mask, o.row_mtch, headerWord]
  refine and_append_fields_eq_iff.trans ?_
  rw [and_ite_allOnes_eq_zero, and_ite_allOnes_eq_zero, BitVec.and_allOnes, BitVec.and_allOnes,
    eq_comm (a := headerOpc h)]
  tauto

/-! ### Operand words (R64 to R66) -/

/-- Fields that are zero unless used are what the encoder writes. -/
theorem ite_used_eq {n : Nat} {used : Bool} {x : BitVec n} (h : used = false → x = 0) :
    (if used then x else 0) = x := by
  cases used <;> simp [h]

theorem blockFits_iff {xs : List Word} : blockFits xs = true ↔ xs.length ≤ MAXBLOCK :=
  decide_eq_true_iff

/-- What a reader answers: a command of the opcode, which the encoder writes with these operand
words and the used fields of the header; and there are as many words as the format admits (R60). -/
theorem Opcode.of_read_eq_ok {o : Opcode} {idx : BitVec 8} {ft : FilterType} {ops : List Word}
    {i : Instr} (h : o.read idx ft ops = .ok i) :
    encode i = headerWord o.byte (if o.usesIdx then idx else 0) (if o.usesFt then ft.code else 0)
        :: ops ∧
      i.opcode = o ∧ Machine.Format.admits o.format ops.length := by
  cases o
  case bqNew | bqReset | eqRemove | eqReset | rdCount | rdBand =>
    obtain ⟨rfl, rfl⟩ := readH_eq_ok.mp h
    exact ⟨rfl, rfl, rfl⟩
  case design | eqAdd | eqSet =>
    obtain ⟨p, rfl, rfl⟩ := readHP_eq_ok.mp h
    exact ⟨rfl, rfl, rfl⟩
  case bqSetcoef =>
    obtain ⟨c, rfl, rfl⟩ := readHC_eq_ok.mp h
    exact ⟨rfl, rfl, rfl⟩
  case bqProc | eqProc =>
    obtain ⟨x, rfl, rfl⟩ := readHX1_eq_ok.mp h
    exact ⟨rfl, rfl, rfl⟩
  case bqProcb | eqProcb =>
    obtain ⟨hfits, rfl⟩ := readHX_eq_ok.mp h
    exact ⟨rfl, rfl, blockFits_iff.mp hfits⟩

/-- The readers refuse a packet for its length alone, never for an operand's value (R70). -/
theorem Opcode.exists_read {o : Opcode} (idx : BitVec 8) (ft : FilterType) {ops : List Word}
    (h : Machine.Format.admits o.format ops.length) : ∃ i, o.read idx ft ops = .ok i := by
  cases o
  case bqNew | bqReset | eqRemove | eqReset | rdCount | rdBand =>
    exact ⟨_, readH_eq_ok.mpr ⟨List.length_eq_zero_iff.mp h, rfl⟩⟩
  case design | eqAdd | eqSet =>
    obtain ⟨fs, f, sh, g, rfl⟩ := List.length_eq_four.mp h
    exact ⟨_, rfl⟩
  case bqSetcoef =>
    obtain ⟨b0, rest, rfl, hrest⟩ := List.length_eq_succ_iff.mp h
    obtain ⟨b1, b2, a1, a2, rfl⟩ := List.length_eq_four.mp hrest
    exact ⟨_, rfl⟩
  case bqProc | eqProc =>
    obtain ⟨x, rfl⟩ := List.length_eq_one_iff.mp h
    exact ⟨_, rfl⟩
  case bqProcb | eqProcb => exact ⟨_, readHX_eq_ok.mpr ⟨blockFits_iff.mpr h, rfl⟩⟩

/-! ### Which packets decode (R70) -/

/-- What R71 asks of a legal packet of an opcode. -/
def Opcode.Fits (o : Opcode) (p : Packet) : Prop :=
  ∃ h ops, p = h :: ops ∧ Opcode.ofByte (headerOpc h) = some o ∧ headerRsv h = 0 ∧
    (o.usesIdx = false → headerIdx h = 0) ∧ (o.usesFt = false → headerFt h = 0) ∧
    Machine.Format.admits o.format ops.length

theorem exists_decode_opcode_iff {p : Packet} {o : Opcode} :
    (∃ i, decode p = .ok i ∧ i.opcode = o) ↔ o.Fits p := by
  constructor
  · rintro ⟨i, hd, rfl⟩
    obtain ⟨h, ops, o, rfl, ho, hrsv, hidx, hft, hread⟩ := decode_eq_ok.mp hd
    obtain ⟨-, rfl, hlen⟩ := Opcode.of_read_eq_ok hread
    exact ⟨h, ops, rfl, ho, hrsv, hidx, hft, hlen⟩
  · rintro ⟨h, ops, rfl, ho, hrsv, hidx, hft, hlen⟩
    obtain ⟨i, hread⟩ := Opcode.exists_read (headerIdx h) (.ofCode (headerFt h)) hlen
    obtain ⟨-, hop, -⟩ := Opcode.of_read_eq_ok hread
    exact ⟨i, decode_eq_ok.mpr ⟨h, ops, o, rfl, ho, hrsv, hidx, hft, hread⟩, hop⟩

theorem Opcode.ofByte_eq_some_iff {b : BitVec 8} {o : Opcode} :
    Opcode.ofByte b = some o ↔ o.byte = b :=
  ⟨Opcode.byte_of_ofByte, fun h => h ▸ o.ofByte_byte⟩

/-- The bounds of a row are the lengths that its format admits (R60, R67). -/
theorem Opcode.admits_iff_row_bounds {o : Opcode} {n : Nat} :
    Machine.Format.admits o.format n ↔ o.row.minOps ≤ n ∧ n ≤ o.row.maxOps := by
  cases o <;> simp only [Opcode.format, Machine.Format.admits, Opcode.row] <;> omega

theorem Opcode.fits_iff_row_accepts {o : Opcode} {p : Packet} : o.Fits p ↔ o.row.accepts p := by
  simp only [Opcode.Fits, TableRow.accepts, Opcode.row_masks_iff, Opcode.ofByte_eq_some_iff,
    Opcode.admits_iff_row_bounds, and_assoc]

/-- Settles O2, by way of `Opcode.Fits`: it is what the decoder tests, and a row's mask and bounds
say it again. -/
theorem decoderMatchesOpcodeTable : Obligations.DecoderMatchesOpcodeTable := fun _ _ =>
  exists_decode_opcode_iff.trans Opcode.fits_iff_row_accepts

/-! ### Decoding and encoding (R73) -/

/-- A packet that decodes holds nothing but its command: the encoder writes it again (R73). -/
theorem encode_of_decode {p : Packet} {i : Instr} (hd : decode p = .ok i) : encode i = p := by
  obtain ⟨h, ops, o, rfl, ho, hrsv, hidx, hft, hread⟩ := decode_eq_ok.mp hd
  obtain ⟨henc, -, -⟩ := Opcode.of_read_eq_ok hread
  rw [henc, FilterType.code_ofCode, ite_used_eq hidx, ite_used_eq hft, Opcode.byte_of_ofByte ho,
    headerWord_of_fields h hrsv]

/-- The encoder's header of every command, with zero in the fields its opcode does not use (R73). -/
theorem encode_eq_headerWord (i : Instr) : ∃ idx ft ops,
    encode i = headerWord i.opcode.byte idx ft :: ops ∧
      (i.opcode.usesIdx = false → idx = 0) ∧ (i.opcode.usesFt = false → ft = 0) := by
  cases i
  case bqNew | eqReset | eqProc | eqProcb | rdCount =>
    exact ⟨0, 0, _, rfl, fun _ => rfl, fun _ => rfl⟩
  case design ft _ | eqAdd ft _ => exact ⟨0, ft.code, _, rfl, fun _ => rfl, nofun⟩
  case bqSetcoef idx _ | bqReset idx | bqProc idx _ | bqProcb idx _ | eqRemove idx | rdBand idx =>
    exact ⟨idx, 0, _, rfl, nofun, fun _ => rfl⟩
  case eqSet idx ft _ => exact ⟨idx, ft.code, _, rfl, nofun, nofun⟩

/-- Settles O1: `decode_encode` and `encode_of_decode`, and the header of `encode_eq_headerWord`. -/
theorem encodingIsCanonical : Obligations.EncodingIsCanonical := by
  refine ⟨fun _ => decode_encode, fun _ _ => encode_of_decode, fun i => ?header⟩
  case header =>
    obtain ⟨idx, ft, ops, henc, hidx, hft⟩ := encode_eq_headerWord i
    exact ⟨_, ops, henc, by simp, by simpa using hidx, by simpa using hft⟩

end Sys2Proof
end

section
/-!
PROOFS. The illegal packets and their answer (R71, R201), and what every response holds (R68, R69),
with the worked encodings (R75).
-/

namespace Sys2Proof.Machine

/-! ### Illegal packets (R71, R201) -/

/-- The list of R71 leaves the packets that fit some opcode. -/
theorem not_illegalPacket_iff {p : Packet} : ¬ illegalPacket p ↔ ∃ o : Opcode, o.Fits p := by
  cases p with
  | nil => simp [illegalPacket, Opcode.Fits]
  | cons h ops =>
    cases ho : Opcode.ofByte (headerOpc h) with
    | none => simp [illegalPacket, Opcode.Fits, ho]
    | some o => simp [illegalPacket, Opcode.Fits, ho]

theorem exists_decode_error_iff {p : Packet} :
    (∃ e, decode p = .error e) ↔ ¬ ∃ i, decode p = .ok i := by
  cases decode p <;> simp

/-- The decoder rejects exactly the packets of R71's list. -/
theorem decode_error_iff_illegalPacket {p : Packet} :
    (∃ e, decode p = .error e) ↔ illegalPacket p := by
  rw [exists_decode_error_iff, not_iff_comm, not_illegalPacket_iff]
  simp only [← exists_decode_opcode_iff]
  exact ⟨fun ⟨o, i, hd, _⟩ => ⟨i, hd⟩, fun ⟨i, hd⟩ => ⟨i.opcode, i, hd, rfl⟩⟩

/-- The bytes that R67 does not list (R71). -/
theorem ofByte_eq_none_iff : ∀ b : BitVec 8, Opcode.ofByte b = none ↔
    b = 0x00 ∨ b = 0x07 ∨ b = 0x0E ∨ b = 0x0F ∨ 0x12 ≤ b := by
  decide

/-- Settles O3: the decoder rejects the packets of R71 (`decode_error_iff_illegalPacket`), and a
step on one of them does no more than `answerIllegal`. -/
theorem illegalPacketsChangeNothing : Obligations.IllegalPacketsChangeNothing := by
  refine ⟨ofByte_eq_none_iff, fun _ => decode_error_iff_illegalPacket, fun s p rest hport hp => ?_⟩
  obtain ⟨e, he⟩ := decode_error_iff_illegalPacket.mpr hp
  refine ⟨_, echoedOpc p, step_illegal hport he, rfl, by simp [hport], rfl, ?empty, ?received⟩
  case empty => rintro rfl; rfl
  case received => rintro h ops rfl; rfl

/-! ### Responses (R68, R69) -/

/-- CNT holds the length of every block that a packet can carry (R66). -/
theorem respCnt_responseHeader_toNat {st : Status} {opc val : BitVec 8} {n : Nat}
    (h : n ≤ MAXBLOCK) : (respCnt (responseHeader st opc val n)).toNat = n := by
  rw [respCnt_responseHeader, BitVec.toNat_ofNat]
  exact Nat.mod_eq_of_lt (lt_of_le_of_lt h (by decide))

/-- The commands that R69 gives a VAL. -/
theorem contents_val_ne_zero {i : Instr} {s : State} (h : (contents i s).1 ≠ 0) :
    i = .bqNew ∨ i = .rdCount ∨ ∃ ft q, i = .eqAdd ft q := by
  cases i
  case bqNew => exact .inl rfl
  case rdCount => exact .inr (.inl rfl)
  case eqAdd ft q => exact .inr (.inr ⟨ft, q, rfl⟩)
  all_goals exact absurd rfl h

/-- The one response of a step on a packet, legal or not. -/
theorem step_response {s t : State} {p : Packet} {rest : List HostEvent}
    (hport : s.cmdPort = .packet p :: rest) (h : step s = .next t) :
    ∃ st val data, t.respPort = s.respPort ++ [responsePacket (echoedOpc p) st val data] ∧
      data.length ≤ MAXBLOCK ∧
      (val ≠ 0 → ∃ i, decode p = .ok i ∧
        (i = .bqNew ∨ i = .rdCount ∨ ∃ ft q, i = .eqAdd ft q)) := by
  cases hd : decode p with
  | error e =>
    obtain rfl : answerIllegal p s.dropEvent = t := by simpa [step_illegal hport hd] using h
    exact ⟨.IllegalCommand, 0, [], rfl, Nat.zero_le _, fun hval => absurd rfl hval⟩
  | ok i =>
    rw [step_packet hport hd] at h
    obtain ⟨val, data, bands, ha, herr, hok, hlen⟩ := exec_answers i s.dropEvent
    obtain ⟨-, -, hresp⟩ := ha.of_exec h
    rw [opcode_of_decode hd] at hresp
    refine ⟨_, val, data, hresp, hlen (wf_of_decode hd), fun hval => ⟨i, rfl, ?_⟩⟩
    by_cases hst : owedStatus i s.dropEvent = .OK
    · obtain ⟨-, hc⟩ := hok hst
      exact contents_val_ne_zero (s := s.dropEvent) (hc ▸ hval)
    · obtain ⟨hzero, -, -⟩ := herr hst
      exact absurd hzero hval

/-- Settles O9: the fields are those of `responseHeader`, and every response of a step is one of
`step_response`. -/
theorem responseLayout : Obligations.ResponseLayout := by
  refine ⟨fun st opc val data hlen => ?fields, rfl, rfl, rfl, rfl, rfl,
    fun s t p rest hport h => ?step⟩
  case fields =>
    exact ⟨_, rfl, respStatus_responseHeader .., respRsvLow_responseHeader ..,
      respOpc_responseHeader .., respVal_responseHeader .., respRsvHigh_responseHeader ..,
      respCnt_responseHeader_toNat hlen⟩
  case step =>
    obtain ⟨st, val, data, hresp, hlen, hval⟩ := step_response hport h
    have hopc : respOpc (responseHeader st (echoedOpc p) val data.length) = echoedOpc p :=
      respOpc_responseHeader ..
    refine ⟨_, data, hresp, ?empty, ?received, respCnt_responseHeader_toNat hlen, fun hne => ?val⟩
    case empty => rintro rfl; exact hopc
    case received => rintro h' ops rfl; exact hopc
    case val =>
      rw [← respVal_responseHeader st (echoedOpc p) val data.length] at hval
      obtain ⟨i, hd, rfl | rfl | ⟨ft, q, rfl⟩⟩ := hval hne
      · exact .inl hd
      · exact .inr (.inl hd)
      · exact .inr (.inr ⟨ft, q, hd⟩)

/-- Settles O10: `exec_answers`, whose `contents` is the table of R69. -/
theorem responseContents : Obligations.ResponseContents := by
  intro i s
  obtain ⟨val, data, bands, ha, herr, hok, -⟩ := exec_answers i s
  refine ⟨val, data, bands, ha, ?_⟩
  split_ifs with hst
  · obtain ⟨-, hc⟩ := hok hst
    rw [hc]
    cases i <;> rfl
  · obtain ⟨hval, hdata, -⟩ := herr hst
    exact ⟨hval, hdata⟩

/-! ### The worked encodings (R75) -/

/-- The parameters of R75: 48000.0, 8000.0, 1.0, -6.0. -/
def workedParams : DesignParams :=
  ⟨0x40E7700000000000, 0x40BF400000000000, 0x3FF0000000000000, 0xC018000000000000⟩

theorem workedParams_valid : validParams posZero .highShelf workedParams = true := by
  decide +kernel

/-- Settles O4: the packets are evaluated, and R75's command passes R121's tests
(`workedParams_valid`), so that only its index decides between the two responses. -/
theorem wordsWrittenOutDecode : Obligations.WordsWrittenOutDecode := by
  refine ⟨by decide, fun s hN => ?accepted, fun s hN => ?outOfRange,
    by decide, by decide, by decide, by decide, by decide⟩
  case accepted =>
    obtain ⟨b, hb⟩ := exists_band (idx := 2) hN
    obtain ⟨t, h, -, -, hr⟩ := answers_eqSet (state_design_some workedParams_valid) hb
    exact ⟨t, h, hr⟩
  case outOfRange =>
    obtain ⟨t, h, -, -, hr⟩ :=
      answers_eqSet_range (idx := 2) (state_design_some workedParams_valid) hN
    exact ⟨t, h, hr⟩

end Sys2Proof.Machine
end

section
/-!
PROOFS. A step is a function of the packet and of the state up to NaN payloads (R104, R107): two
states that are equal but for NaN payloads answer with one status and one VAL, and with words and
bands that are equal but for NaN payloads.
-/

namespace Sys2Proof.Machine

theorem rel_of_eq {α : Type} {R : α → α → Prop} {a a' b b' : α} (h : R b b') (ha : a = b)
    (ha' : a' = b') : R a a' :=
  ha ▸ ha' ▸ h

-- What equal states share

section same
variable {s s' : State}

theorem SameState.bands_same (h : SameState s s') : List.Forall₂ SameBand s.bands s'.bands := h.1

theorem SameState.cmdPort_eq (h : SameState s s') : s.cmdPort = s'.cmdPort := h.2.1

theorem SameState.respPort_same (h : SameState s s') :
    List.Forall₂ SameResponse s.respPort s'.respPort := h.2.2

theorem SameState.N_eq (h : SameState s s') : s.N = s'.N := h.bands_same.length_eq

theorem SameState.countReg_eq (h : SameState s s') : s.countReg = s'.countReg :=
  congrArg (BitVec.ofNat 8) h.N_eq

theorem SameState.owedStatus_eq (h : SameState s s') (i : Instr) :
    owedStatus i s = owedStatus i s' := by
  unfold owedStatus
  rw [h.N_eq]

theorem SameState.dropEvent (h : SameState s s') : SameState s.dropEvent s'.dropEvent :=
  ⟨h.bands_same, congrArg List.tail h.cmdPort_eq, h.respPort_same⟩

theorem SameState.hardwareReset (h : SameState s s') :
    SameState (hardwareReset s) (hardwareReset s') :=
  ⟨.nil, h.cmdPort_eq, h.respPort_same⟩

theorem SameState.answerIllegal (h : SameState s s') (p : Packet) :
    SameState (answerIllegal p s) (answerIllegal p s') :=
  ⟨h.bands_same, h.cmdPort_eq, forall₂_snoc h.respPort_same (sameResp_refl _)⟩

end same

theorem SameCoeffs.words {c d : Coeffs} (h : SameCoeffs c d) :
    List.Forall₂ SameF64 c.words d.words :=
  .cons h.1 (.cons h.2.1 (.cons h.2.2.1 (.cons h.2.2.2.1 (.cons h.2.2.2.2 .nil))))

theorem SameBand.words {a b : Band} (h : SameBand a b) : List.Forall₂ SameF64 a.words b.words :=
  List.rel_append h.1.words (.cons h.2.1 (.cons h.2.2 .nil))

theorem SameBand.cleared {a b : Band} (h : SameBand a b) : SameBand a.cleared b.cleared :=
  ⟨h.1, .refl _, .refl _⟩

-- Commands in equal states

/-- Two outcomes that are next states, equal up to NaN payloads. -/
def SameNext (o o' : Host.Outcome State Fault Refusal) : Prop :=
  ∃ t t', o = .next t ∧ o' = .next t' ∧ SameState t t'

theorem SameState.next {t t' : State} (h : SameState t t') : SameNext (.next t) (.next t') :=
  ⟨t, t', rfl, rfl, h⟩

section outcome
variable {i : Instr} {s s' : State}

/-- One status, one VAL, and data words and band stores that are equal up to NaN payloads. -/
theorem Answers.same {st : Status} {val : BitVec 8} {data data' : List Word}
    {bands bands' : List Band} (ha : Answers i s st val data bands)
    (ha' : Answers i s' st val data' bands') (h : SameState s s')
    (hd : List.Forall₂ SameF64 data data') (hb : List.Forall₂ SameBand bands bands') :
    SameNext (exec i s) (exec i s') :=
  ha.elim fun t ht => ha'.elim fun t' ht' => ⟨t, t', ht.1, ht'.1, rel_of_eq hb ht.2.1 ht'.2.1,
    ht.2.2.1.trans (h.cmdPort_eq.trans ht'.2.2.1.symm),
    rel_of_eq (forall₂_snoc h.respPort_same (sameResp_packet hd)) ht.2.2.2 ht'.2.2.2⟩

theorem Answers.of_error {st : Status} {val : BitVec 8} {data : List Word} {bands : List Band}
    (ha : Answers i s st val data bands) (h : val = 0 ∧ data = [] ∧ bands = s.bands) :
    Answers i s st 0 [] s.bands :=
  h.1 ▸ h.2.1 ▸ h.2.2 ▸ ha

/-- An error has no data and changes no band (R204). -/
theorem answers_of_error (i : Instr) (s : State) (hne : owedStatus i s ≠ .OK) :
    Answers i s (owedStatus i s) 0 [] s.bands :=
  (exec_answers i s).elim fun _ h => h.elim fun _ h => h.elim fun _ h => h.1.of_error (h.2.1 hne)

theorem exec_same_of_error (h : SameState s s') (hne : owedStatus i s ≠ .OK) :
    SameNext (exec i s) (exec i s') :=
  have ha' := answers_of_error i s' (h.owedStatus_eq i ▸ hne)
  (answers_of_error i s hne).same ((h.owedStatus_eq i).symm ▸ ha') h .nil h.bands_same

theorem valid_of_owed_ok (hok : owedStatus i s = .OK) {ft : FilterType} {p : DesignParams}
    (hi : designRequest? i = some (ft, p)) : validParams posZero ft p = true :=
  (owedStatus_eq_ok.mp hok).1 ft p hi

theorem room_of_owed_ok (hok : owedStatus i s = .OK) (hi : appends i = true) :
    s.N ≠ Config.MAXBANDS :=
  (owedStatus_eq_ok.mp hok).2.2 hi

/-- A command that succeeds on a band answers by its `answers_` lemma in both states: with data
words and with a band store that are equal up to NaN payloads. -/
theorem exec_same_of_index (h : SameState s s') (hok : owedStatus i s = .OK) {idx : BitVec 8}
    (hi : index? i = some idx) {data : State → Band → List Word} {bands : State → Band → List Band}
    (ha : ∀ s b, s.band? idx = some b → Answers i s .OK 0 (data s b) (bands s b))
    (hd : ∀ b b', SameBand b b' → List.Forall₂ SameF64 (data s b) (data s' b'))
    (hb : ∀ b b', SameBand b b' → List.Forall₂ SameBand (bands s b) (bands s' b')) :
    SameNext (exec i s) (exec i s') :=
  (exists_band ((owedStatus_eq_ok.mp hok).2.1 idx hi)).elim fun b hget =>
    (sameBands_get h.bands_same hget).elim fun b' hb' =>
      (ha s b hget).same (ha s' b' hb'.1) h (hd b b' hb'.2) (hb b b' hb'.2)

theorem SameState.set (h : SameState s s') (i : Nat) {b b' : Band} (hb : SameBand b b') :
    List.Forall₂ SameBand (s.bands.set i b) (s'.bands.set i b') :=
  sameBands_set h.bands_same i hb

theorem SameState.snoc (h : SameState s s') {c c' : Coeffs} (hc : SameCoeffs c c') :
    List.Forall₂ SameBand (s.bands ++ [newBand c]) (s'.bands ++ [newBand c']) :=
  forall₂_snoc h.bands_same ⟨hc, .refl _, .refl _⟩

/-- The coefficients of a design differ between states in NaN payloads only (R141). -/
theorem sameCoeffs_draws (s s' : State) (ft : FilterType) (p : DesignParams) :
    SameCoeffs (designCoeffs Config.numerics Config.SHAPE s.draws ft p)
      (designCoeffs Config.numerics Config.SHAPE s'.draws ft p) :=
  designCoeffs_same _ _ _ _ (allNaN_draws s) (allNaN_draws s') ft p

/-- A command that succeeds passes in both states the tests it is put to, and answers by its
`answers_` lemma, whose words and bands the `_same` lemmas of the chain and the designer compare. -/
theorem exec_same_of_ok (h : SameState s s') (hok : owedStatus i s = .OK) :
    SameNext (exec i s) (exec i s') := by
  induction i with
  | design ft p =>
    exact (answers_design (state_design_some (valid_of_owed_ok hok rfl))).same
      (answers_design (state_design_some (valid_of_owed_ok hok rfl))) h
      (sameCoeffs_draws s s' ft p).words h.bands_same
  | bqNew =>
    exact (answers_bqNew (room_of_owed_ok hok rfl)).same
      (h.countReg_eq ▸ answers_bqNew (h.N_eq ▸ room_of_owed_ok hok rfl)) h .nil (h.snoc (.refl _))
  | bqSetcoef idx c =>
    exact exec_same_of_index h hok rfl (fun _s _b hb => answers_bqSetcoef hb c)
      (fun _b _b' _h => .nil) fun _b _b' hb => h.set _ ⟨.refl _, hb.2⟩
  | bqReset idx =>
    exact exec_same_of_index h hok rfl (fun _s _b hb => answers_bqReset hb) (fun _b _b' _h => .nil)
      fun _b _b' hb => h.set _ hb.cleared
  | bqProc idx x =>
    exact exec_same_of_index h hok rfl (fun _s _b hb => answers_bqProc hb x)
      (fun _b _b' hb =>
        .cons (bqStep_same (allNaN_draws s) (allNaN_draws s') hb.1 hb.2 (.refl x)).1 .nil)
      fun _b _b' hb => h.set _
        ⟨hb.1, (bqStep_same (allNaN_draws s) (allNaN_draws s') hb.1 hb.2 (.refl x)).2⟩
  | bqProcb idx xs =>
    exact exec_same_of_index h hok rfl (fun _s _b hb => answers_bqProcb hb xs)
      (fun _b _b' hb =>
        (bqBlock_same (allNaN_draws s) (allNaN_draws s') hb.1 hb.2 (sameF64s_refl xs)).1)
      fun _b _b' hb => h.set _
        ⟨hb.1, (bqBlock_same (allNaN_draws s) (allNaN_draws s') hb.1 hb.2 (sameF64s_refl xs)).2⟩
  | eqAdd ft p =>
    exact (answers_eqAdd (state_design_some (valid_of_owed_ok hok rfl))
      (room_of_owed_ok hok rfl)).same
      (h.countReg_eq ▸ answers_eqAdd (state_design_some (valid_of_owed_ok hok rfl))
        (h.N_eq ▸ room_of_owed_ok hok rfl)) h .nil (h.snoc (sameCoeffs_draws s s' ft p))
  | eqSet idx ft p =>
    exact exec_same_of_index h hok rfl
      (fun _s _b hb => answers_eqSet (state_design_some (valid_of_owed_ok hok rfl)) hb)
      (fun _b _b' _h => .nil) fun _b _b' hb => h.set _ ⟨sameCoeffs_draws s s' ft p, hb.2⟩
  | eqRemove idx =>
    exact exec_same_of_index h hok rfl (fun _s _b hb => answers_eqRemove hb) (fun _b _b' _h => .nil)
      fun _b _b' _h => sameBands_eraseIdx h.bands_same _
  | eqReset =>
    exact answers_eqReset.same answers_eqReset h .nil
      (List.rel_map (fun _b _b' hsame => hsame.cleared) h.bands_same)
  | eqProc x =>
    have hr := eqStep_same (allNaN_draws s) (allNaN_draws s') h.bands_same (.refl x)
    exact (answers_eqProc x).same (answers_eqProc x) h (.cons hr.1 .nil) hr.2
  | eqProcb xs =>
    have hr := eqBlock_same (allNaN_draws s) (allNaN_draws s') h.bands_same (sameF64s_refl xs)
    exact (answers_eqProcb xs).same (answers_eqProcb xs) h hr.1 hr.2
  | rdCount =>
    exact answers_rdCount.same (h.countReg_eq ▸ answers_rdCount) h .nil h.bands_same
  | rdBand idx =>
    exact exec_same_of_index h hok rfl (fun _s _b hb => answers_rdBand hb)
      (fun _b _b' hb => hb.words) fun _b _b' _h => h.bands_same

theorem exec_same (h : SameState s s') (i : Instr) : SameNext (exec i s) (exec i s') :=
  (em (owedStatus i s = .OK)).elim (exec_same_of_ok h) (exec_same_of_error h)

end outcome

-- A step from equal states

section step
variable {s s' : State} (h : SameState s s')
include h

theorem step_same_of_packet {p : Packet} {rest : List HostEvent}
    (hport : s.cmdPort = .packet p :: rest) : ∀ r, decode p = r → SameNext (step s) (step s') := by
  intro r hd
  have hport' := h.cmdPort_eq ▸ hport
  induction r with
  | error e =>
    exact rel_of_eq (h.dropEvent.answerIllegal p).next (step_illegal hport hd)
      (step_illegal hport' hd)
  | ok i => exact rel_of_eq (exec_same h.dropEvent i) (step_packet hport hd) (step_packet hport' hd)

theorem step_same : ∀ es, s.cmdPort = es → SameNext (step s) (step s') := by
  intro es hport
  induction es with
  | nil => exact rel_of_eq h.next (step_idle hport) (step_idle (h.cmdPort_eq ▸ hport))
  | cons e _ _ =>
    induction e with
    | reset =>
      exact rel_of_eq h.dropEvent.hardwareReset.next (step_reset hport)
        (step_reset (h.cmdPort_eq ▸ hport))
    | packet _ => exact step_same_of_packet h hport _ rfl

end step

/-- Settles O48, by what the step finds on the command port, the same in both states: nothing, a
reset pulse, an illegal packet, or a command (`exec_same`). -/
theorem stepIgnoresNaNPayloads : Obligations.StepIgnoresNaNPayloads :=
  fun s _s' h => step_same h s.cmdPort rfl

end Sys2Proof.Machine
end

section
/-!
PROOFS. The five operations on finite operands as one rounding (R91 to R96), and that this rounding
is the nearest number, ties to even.
-/

namespace Sys2Proof.Machine

-- The operations on finite operands, as one rounding each

section finite
variable {n a b : Word}

theorem not_nan_or (ha : isNaN a = false) (hb : isNaN b = false) :
    ¬ (isNaN a || isNaN b) = true := by
  rw [ha, hb]; exact Bool.false_ne_true

theorem not_nan_or_of_finite (ha : isFinite a = true) (hb : isFinite b = true) :
    ¬ (isNaN a || isNaN b) = true :=
  not_nan_or (isNaN_of_isFinite ha) (isNaN_of_isFinite hb)

theorem not_inf_of_finite (ha : isFinite a = true) : ¬ isInf a = true :=
  ne_true_of_eq_false (isInf_of_isFinite ha)

/-- A finite sum is its units, rounded; an exact zero has a sign rule of its own (R92). -/
theorem fadd_of_finite (ha : isFinite a = true) (hb : isFinite b = true) :
    fadd n a b = if units a + units b = 0 then signedZero (signBit a && signBit b)
      else roundTo (decide (units a + units b < 0)) (units a + units b).natAbs 1 :=
  (if_neg (not_nan_or_of_finite ha hb)).trans
    ((if_neg (not_inf_of_finite ha)).trans (if_neg (not_inf_of_finite hb)))

theorem fmul_of_finite (ha : isFinite a = true) (hb : isFinite b = true) :
    fmul n a b = roundTo (signBit a != signBit b) (magUnits a * magUnits b) unitsPerOne :=
  (if_neg (not_nan_or_of_finite ha hb)).trans
    ((if_neg (not_inf_of_finite ha)).trans (if_neg (not_inf_of_finite hb)))

theorem fdiv_of_finite (ha : isFinite a = true) (hb : isFinite b = true) (hb0 : isZero b = false) :
    fdiv n a b = roundTo (signBit a != signBit b) (magUnits a * unitsPerOne) (magUnits b) :=
  (if_neg (not_nan_or_of_finite ha hb)).trans ((if_neg (not_inf_of_finite ha)).trans
    ((if_neg (not_inf_of_finite hb)).trans (if_neg (ne_true_of_eq_false hb0))))

/-- The root of a positive number is rounded from the integer root of its units: twice that root,
and one more where it is not exact, in half units (R96). -/
theorem fsqrt_of_finite (ha : isFinite a = true) (ha0 : isZero a = false)
    (hs : signBit a = false) :
    fsqrt n a = roundTo false (
      if isqrt (magUnits a * unitsPerOne) * isqrt (magUnits a * unitsPerOne) =
        magUnits a * unitsPerOne
      then 2 * isqrt (magUnits a * unitsPerOne) else 2 * isqrt (magUnits a * unitsPerOne) + 1) 2 :=
  (if_neg (ne_true_of_eq_false (isNaN_of_isFinite ha))).trans
    ((if_neg (ne_true_of_eq_false ha0)).trans
      ((if_neg (ne_true_of_eq_false hs)).trans (if_neg (not_inf_of_finite ha))))

end finite

-- Values as signed sizes

/-- A size with a sign. -/
noncomputable def withSign (neg : Bool) (y : ℝ) : ℝ := if neg then -y else y

theorem withSign_op {f : ℝ → ℝ → ℝ} (hl : ∀ y z, f (-y) z = -(f y z))
    (hr : ∀ y z, f y (-z) = -(f y z)) (s t : Bool) (y z : ℝ) :
    f (withSign s y) (withSign t z) = withSign (s != t) (f y z) := by
  induction s <;> induction t
  exacts [rfl, hr y z, hl y z, (hl y (-z)).trans ((congrArg _ (hr y z)).trans (neg_neg _))]

theorem withSign_mul (s t : Bool) (y z : ℝ) :
    withSign s y * withSign t z = withSign (s != t) (y * z) :=
  withSign_op neg_mul mul_neg s t y z

theorem withSign_div (s t : Bool) (y z : ℝ) :
    withSign s y / withSign t z = withSign (s != t) (y / z) :=
  withSign_op (fun y z => neg_div z y) (fun y _z => div_neg y) s t y z

theorem withSign_div_right (s : Bool) (y z : ℝ) : withSign s y / z = withSign s (y / z) :=
  (withSign_div s false y z).trans (congrArg₂ withSign (Bool.bne_false s) rfl)

theorem withSign_mul_right (s : Bool) (y z : ℝ) : withSign s y * z = withSign s (y * z) :=
  (withSign_mul s false y z).trans (congrArg₂ withSign (Bool.bne_false s) rfl)

theorem withSign_int (u : ℤ) : (u : ℝ) = withSign (decide (u < 0)) u.natAbs := by
  cases u with
  | ofNat _ => rfl
  | negSucc m =>
    exact (Int.cast_negSucc m).trans
      (congrArg₂ withSign (decide_eq_true (Int.negSucc_lt_zero m)).symm rfl)

theorem toRat_withSign (a : Word) :
    (toRat a : ℝ) = withSign (signBit a) (magUnits a / 2 ^ 1074) :=
  (toRat_cast a).trans ((congrArg₂ _ (units_cast a) rfl).trans (withSign_div_right ..))

-- The rounding of an exact result (R91)

theorem two_pow_ne_zero : (2 : ℝ) ^ 1074 ≠ 0 := pow_ne_zero _ two_ne_zero

/-- `roundTo` rounds the number of that sign and that many units. -/
theorem rounds_roundTo {neg : Bool} {n d : Nat} {x y : ℝ} {w : Word} (hw : w = roundTo neg n d)
    (hn : 0 < n) (hd : 0 < d) (hx : x = withSign neg y) (hy : y * 2 ^ 1074 = n / d) :
    RoundsNearestEven x w :=
  hw ▸ roundsNearestEven_roundTo hn hd
    ((congrArg₂ _ hx rfl).trans ((withSign_mul_right ..).trans (congrArg (withSign neg) hy)))

theorem toRat_add (a b : Word) :
    (toRat a : ℝ) + toRat b = ((units a + units b : ℤ) : ℝ) / 2 ^ 1074 :=
  (congrArg₂ _ (toRat_cast a) (toRat_cast b)).trans
    ((add_div ..).symm.trans (congrArg₂ _ (Int.cast_add ..).symm rfl))

theorem units_add_eq_zero {a b : Word} :
    (toRat a : ℝ) + toRat b = 0 ↔ units a + units b = 0 :=
  (toRat_add a b ▸ div_eq_zero_iff.trans (or_iff_left two_pow_ne_zero)).trans Int.cast_eq_zero

theorem toRat_sub (a b : Word) : (toRat a : ℝ) - toRat b = toRat a + toRat (fneg b) :=
  (sub_eq_add_neg ..).trans
    (congrArg _ ((Rat.cast_neg _).symm.trans (congrArg _ (toRat_fneg b).symm)))

/-- The units of a product. -/
theorem units_mul {A B C : ℝ} (hC : C ≠ 0) : A / C * (B / C) * C = A * B / C :=
  (mul_assoc ..).trans ((congrArg _ (div_mul_cancel₀ B hC)).trans (div_mul_eq_mul_div A C B))

/-- The units of a quotient. -/
theorem units_div {A B C : ℝ} (hC : C ≠ 0) : A / C / (B / C) * C = A * C / B :=
  (congrArg₂ _ (div_div_div_cancel_right₀ hC A B) rfl).trans (div_mul_eq_mul_div A B C)

section round
variable {n a b : Word} (ha : isFinite a = true) (hb : isFinite b = true)
include ha hb

theorem roundsNearestEven_fadd (hne : (toRat a : ℝ) + toRat b ≠ 0) :
    RoundsNearestEven ((toRat a : ℝ) + toRat b) (fadd n a b) :=
  have hu := mt units_add_eq_zero.mpr hne
  rounds_roundTo ((fadd_of_finite ha hb).trans (if_neg hu)) (Int.natAbs_pos.mpr hu) one_pos
    ((toRat_add a b).trans ((congrArg₂ _ (withSign_int _) rfl).trans (withSign_div_right ..)))
    ((div_mul_cancel₀ _ two_pow_ne_zero).trans
      ((div_one _).symm.trans (congrArg _ Nat.cast_one.symm)))

theorem roundsNearestEven_fsub (hne : (toRat a : ℝ) - toRat b ≠ 0) :
    RoundsNearestEven ((toRat a : ℝ) - toRat b) (fsub n a b) :=
  toRat_sub a b ▸ roundsNearestEven_fadd ha ((isFinite_fneg b).trans hb) (toRat_sub a b ▸ hne)

theorem roundsNearestEven_fmul (ha0 : isZero a = false) (hb0 : isZero b = false) :
    RoundsNearestEven ((toRat a : ℝ) * toRat b) (fmul n a b) :=
  rounds_roundTo (fmul_of_finite ha hb) (Nat.mul_pos (magUnits_pos ha0) (magUnits_pos hb0))
    unitsPerOne_pos ((congrArg₂ _ (toRat_withSign a) (toRat_withSign b)).trans (withSign_mul ..))
    ((units_mul two_pow_ne_zero).trans
      (congrArg₂ _ (Nat.cast_mul ..).symm unitsPerOne_cast.symm))

theorem roundsNearestEven_fdiv (ha0 : isZero a = false) (hb0 : isZero b = false) :
    RoundsNearestEven ((toRat a : ℝ) / toRat b) (fdiv n a b) :=
  rounds_roundTo (fdiv_of_finite ha hb hb0) (Nat.mul_pos (magUnits_pos ha0) unitsPerOne_pos)
    (magUnits_pos hb0)
    ((congrArg₂ _ (toRat_withSign a) (toRat_withSign b)).trans (withSign_div ..))
    ((units_div two_pow_ne_zero).trans (congrArg₂ _
      ((congrArg _ unitsPerOne_cast.symm).trans (Nat.cast_mul ..).symm) rfl))

end round

theorem size_nonneg (a : Word) : (0 : ℝ) ≤ magUnits a / 2 ^ 1074 :=
  div_nonneg (Nat.cast_nonneg _) (pow_nonneg zero_le_two _)

/-- A number is not positive where its sign bit is set. -/
theorem toRat_nonpos {a : Word} (h : signBit a = true) : (toRat a : ℝ) ≤ 0 := by
  rw [toRat_withSign, h]
  exact neg_nonpos.mpr (size_nonneg a)

theorem signBit_of_toRat_pos {a : Word} (h : 0 < toRat a) : signBit a = false :=
  eq_false_of_ne_true fun hs => (Rat.cast_pos.mpr h).not_ge (toRat_nonpos hs)

theorem isZero_of_toRat_pos {a : Word} (h : 0 < toRat a) : isZero a = false :=
  eq_false_of_ne_true fun hz => h.ne' (toRat_of_isZero hz)

/-- The root of a number of `m` units is the root of the whole number `m * 2^1074`, in units. -/
theorem sqrt_units_sq {a : Word} (h : 0 < toRat a) :
    Real.sqrt (toRat a : ℝ) * 2 ^ 1074 * (Real.sqrt (toRat a : ℝ) * 2 ^ 1074) =
      ((magUnits a * unitsPerOne : ℕ) : ℝ) :=
  have hv := (toRat_mul_real a).trans (if_neg (ne_true_of_eq_false (signBit_of_toRat_pos h)))
  (mul_mul_mul_comm ..).trans <|
    (congrArg₂ _ (Real.mul_self_sqrt (Rat.cast_nonneg.mpr h.le)) rfl).trans <|
    (mul_assoc ..).symm.trans <| (congrArg₂ _ hv unitsPerOne_cast.symm).trans (Nat.cast_mul ..).symm

/-- `isqrt` of a whole number from `2^1074` on is far above the significands. -/
theorem le_isqrt {m : Nat} (h : unitsPerOne ≤ m) : 2 ^ 53 ≤ isqrt m :=
  have hU : 2 ^ 53 * 2 ^ 53 ≤ unitsPerOne :=
    (Nat.pow_add 2 53 53).symm.trans_le (Nat.pow_le_pow_right two_pos (by decide))
  Nat.le_of_lt_succ (Nat.mul_self_lt_mul_self_iff.mp ((hU.trans h).trans_lt (isqrt_spec m).2))

section root
variable {m r : Nat} {x : ℝ} {w : Word}

theorem rounds_exact_root (hw : w = roundTo false (2 * r) 2) (h0 : 0 < r) (hr : x * 2 ^ 1074 = r) :
    RoundsNearestEven x w :=
  rounds_roundTo hw (Nat.mul_pos two_pos h0) two_pos rfl
    (hr.trans ((mul_div_cancel_left₀ _ two_ne_zero).symm.trans
      (congrArg₂ _ (Nat.cast_mul 2 r).symm rfl)))

theorem rounds_inexact_root (hw : w = roundTo false (2 * r + 1) 2) (h0 : 2 ^ 53 ≤ r)
    (hlo : r * r < m) (hhi : m < (r + 1) * (r + 1)) (hx : 0 < x * 2 ^ 1074)
    (hsq : x * 2 ^ 1074 * (x * 2 ^ 1074) = m) : RoundsNearestEven x w :=
  hw ▸ roundsNearestEven_of_mag (neg := false) hx rfl (roundMag_root hlo hhi h0 hx.le hsq)

/-- The word of `fsqrt` is the rounding of the root `x` of `m` units. -/
theorem rounds_isqrt
    (hw : w = roundTo false (if isqrt m * isqrt m = m then 2 * isqrt m else 2 * isqrt m + 1) 2)
    (hm : unitsPerOne ≤ m) (hx : 0 < x * 2 ^ 1074) (hsq : x * 2 ^ 1074 * (x * 2 ^ 1074) = m) :
    RoundsNearestEven x w :=
  (em (isqrt m * isqrt m = m)).elim
    (fun h => rounds_exact_root (hw.trans (congrArg (fun k => roundTo false k 2) (if_pos h)))
      ((Nat.two_pow_pos 53).trans_le (le_isqrt hm))
      ((mul_self_inj hx.le (Nat.cast_nonneg _)).mp
        (hsq.trans ((congrArg _ h).symm.trans (Nat.cast_mul _ _)))))
    fun h => rounds_inexact_root (hw.trans (congrArg (fun k => roundTo false k 2) (if_neg h)))
      (le_isqrt hm) (lt_of_le_of_ne (isqrt_spec m).1 h) (isqrt_spec m).2 hx hsq

end root

theorem roundsNearestEven_fsqrt {n a : Word} (ha : isFinite a = true) (hpos : 0 < toRat a) :
    RoundsNearestEven (Real.sqrt (toRat a : ℝ)) (fsqrt n a) :=
  rounds_isqrt (fsqrt_of_finite ha (isZero_of_toRat_pos hpos) (signBit_of_toRat_pos hpos))
    (Nat.le_mul_of_pos_left unitsPerOne (magUnits_pos (isZero_of_toRat_pos hpos)))
    (mul_pos (Real.sqrt_pos.mpr (Rat.cast_pos.mpr hpos)) (pow_pos two_pos _)) (sqrt_units_sq hpos)

/-- Settles O37: each operation is one rounding of its exact result in units, and `roundTo` picks
the nearest number, ties to even. -/
theorem operationsRoundToNearestEven : Obligations.OperationsRoundToNearestEven :=
  fun _n _a _b ha hb => ⟨roundsNearestEven_fadd ha hb, roundsNearestEven_fsub ha hb,
    roundsNearestEven_fmul ha hb, roundsNearestEven_fdiv ha hb, roundsNearestEven_fsqrt ha⟩

end Sys2Proof.Machine
end

section
/-!
PROOFS. The comparisons and the sign operation (R97), and which operations answer a NaN, and that it
is a quiet one (R104).
-/

namespace Sys2Proof.Machine

-- Comparisons (R97)

section compare
variable {a b : Word}

/-- A comparison that looks at the operands only where neither is a NaN. -/
theorem compare_of_nan {p : Bool} (h : isNaN a = true ∨ isNaN b = true) :
    (!isNaN a && !isNaN b && p) = false :=
  eq_false_of_ne_true fun hc =>
    have hc := Bool.and_eq_true_iff.mp (Bool.and_eq_true_iff.mp hc).1
    h.elim (fun ha => Bool.not_ne_self true (ha ▸ hc.1)) fun hb => Bool.not_ne_self true (hb ▸ hc.2)

theorem compare_of_numbers {p : Bool} (ha : isNaN a = false) (hb : isNaN b = false) :
    (!isNaN a && !isNaN b && p) = p := by
  rw [ha, hb]; rfl

section numbers
variable (ha : isNaN a = false) (hb : isNaN b = false)
include ha hb

theorem flt_of_lt (h : orderKey a < orderKey b) : flt a b = true :=
  (compare_of_numbers ha hb).trans (decide_eq_true h)

theorem flt_of_gt (h : orderKey b < orderKey a) : flt a b = false :=
  (compare_of_numbers ha hb).trans (decide_eq_false h.not_gt)

theorem feq_of_ne (h : orderKey a ≠ orderKey b) : feq a b = false :=
  (compare_of_numbers ha hb).trans (decide_eq_false h)

end numbers

/-- The infinities lie beyond every finite number. -/
theorem infinities_beyond (ha : isFinite a = true) :
    flt negInf a = true ∧ flt a posInf = true ∧ flt a negInf = false ∧ flt posInf a = false ∧
      feq a posInf = false ∧ feq posInf a = false ∧ feq a negInf = false ∧
      feq negInf a = false :=
  ⟨flt_of_lt rfl (isNaN_of_isFinite ha) (orderKey_bound ha).1,
    flt_of_lt (isNaN_of_isFinite ha) rfl (orderKey_bound ha).2,
    flt_of_gt (isNaN_of_isFinite ha) rfl (orderKey_bound ha).1,
    flt_of_gt rfl (isNaN_of_isFinite ha) (orderKey_bound ha).2,
    feq_of_ne (isNaN_of_isFinite ha) rfl (orderKey_bound ha).2.ne,
    feq_of_ne rfl (isNaN_of_isFinite ha) (orderKey_bound ha).2.ne',
    feq_of_ne (isNaN_of_isFinite ha) rfl (orderKey_bound ha).1.ne',
    feq_of_ne rfl (isNaN_of_isFinite ha) (orderKey_bound ha).1.ne⟩

theorem isFinite_iff_exponent (a : Word) :
    isFinite a = true ↔ a.extractLsb' 52 11 ≠ 2047#11 :=
  bne_iff_ne.trans (not_congr (BitVec.toNat_inj (y := 2047#11)))

theorem getLsbD_negZero (i : Nat) : negZero.getLsbD i = decide (63 = i) :=
  BitVec.getLsbD_twoPow 63 i

/-- `fneg` inverts bit 63 and nothing else. -/
theorem getLsbD_fneg (a : Word) (i : Nat) :
    (fneg a).getLsbD i = if i = 63 then !a.getLsbD 63 else a.getLsbD i := by
  refine (BitVec.getLsbD_xor ..).trans ?_
  rcases eq_or_ne i 63 with rfl | h
  · exact Bool.xor_true _
  · rw [getLsbD_negZero, decide_eq_false h.symm, if_neg h]; exact Bool.xor_false _

end compare

/-- Settles O40: the comparisons are those of `orderKey`, which orders finite words as their values
(`flt_iff`, `feq_iff`) and puts the infinities outermost. -/
theorem comparisonsAreNumeric : Obligations.ComparisonsAreNumeric :=
  ⟨fun _a _b h => ⟨compare_of_nan h, compare_of_nan h⟩,
    fun _a _b ha hb => ⟨flt_iff ha hb, feq_iff ha hb⟩,
    fun _a => infinities_beyond, rfl, rfl, rfl, rfl, rfl, rfl, rfl, rfl, rfl, rfl, rfl,
    isFinite_iff_exponent, fun a i _hi => getLsbD_fneg a i⟩

-- NaN results (R104)

theorem isQuietNaN_quieten (w : Word) : isQuietNaN (quieten w) = true :=
  Bool.and_eq_true_iff.mpr
    ⟨isNaN_quieten w, (BitVec.getLsbD_or ..).trans (Bool.or_true (w.getLsbD 51))⟩

theorem isNaN_of_isQuietNaN {w : Word} (h : isQuietNaN w = true) : isNaN w = true :=
  (Bool.and_eq_true_iff.mp h).1

section elementary
variable (num : Numerics) {w : Word}

theorem isQuietNaN_of_eq {r : Word} (h : r = quieten w) : isQuietNaN r = true :=
  h ▸ isQuietNaN_quieten w

theorem isQuietNaN_fsin (h : isNaN w = true ∨ isInf w = true) : isQuietNaN (fsin num w) = true :=
  isQuietNaN_of_eq (if_pos ((Bool.or_eq_true ..).mpr h))

theorem isQuietNaN_fcos (h : isNaN w = true ∨ isInf w = true) : isQuietNaN (fcos num w) = true :=
  isQuietNaN_of_eq (if_pos ((Bool.or_eq_true ..).mpr h))

theorem isQuietNaN_fpow10 (h : isNaN w = true) : isQuietNaN (fpow10 num w) = true :=
  isQuietNaN_of_eq (if_pos h)

theorem isQuietNaN_fsinh (h : isNaN w = true) : isQuietNaN (fsinh num w) = true :=
  isQuietNaN_of_eq (if_pos h)

end elementary

-- Invalid operands

/-- R92: a NaN operand, or infinities of opposite sign. -/
def AddInvalid (a b : Word) : Prop :=
  isNaN a = true ∨ isNaN b = true ∨ (isInf a = true ∧ isInf b = true ∧ signBit a ≠ signBit b)

/-- R94: a NaN operand, or a zero times an infinity. -/
def MulInvalid (a b : Word) : Prop :=
  isNaN a = true ∨ isNaN b = true ∨ (isInf a = true ∧ isZero b = true) ∨
    (isZero a = true ∧ isInf b = true)

/-- R95: a NaN operand, an infinity over an infinity, or a zero over a zero. -/
def DivInvalid (a b : Word) : Prop :=
  isNaN a = true ∨ isNaN b = true ∨ (isInf a = true ∧ isInf b = true) ∨
    (isZero a = true ∧ isZero b = true)

/-- R96: a NaN, or a negative number other than zero. -/
def SqrtInvalid (a : Word) : Prop := isNaN a = true ∨ (signBit a = true ∧ isZero a = false)

section invalid
variable {n a b : Word}

theorem fadd_of_invalid (h : AddInvalid a b) : fadd n a b = n :=
  h.elim (fun h => if_pos ((Bool.or_eq_true ..).mpr (.inl h))) fun h =>
    h.elim (fun h => if_pos ((Bool.or_eq_true ..).mpr (.inr h))) fun h =>
      (if_neg (not_nan_or (isNaN_of_isInf h.1) (isNaN_of_isInf h.2.1))).trans
        ((if_pos h.1).trans (if_pos (Bool.and_eq_true_iff.mpr (h.2.imp_right bne_iff_ne.mpr))))

theorem fmul_inf_zero (ha : isInf a = true) (hb : isZero b = true) : fmul n a b = n :=
  (if_neg (not_nan_or (isNaN_of_isInf ha) (isNaN_of_isZero hb))).trans
    ((if_pos ha).trans (if_pos hb))

theorem fmul_of_invalid (h : MulInvalid a b) : fmul n a b = n :=
  h.elim (fun h => fmul_nan (.inl h)) fun h => h.elim (fun h => fmul_nan (.inr h)) fun h =>
    h.elim (fun h => fmul_inf_zero h.1 h.2) fun h =>
      (fmul_comm n a b).trans (fmul_inf_zero h.2 h.1)

theorem fdiv_of_invalid (h : DivInvalid a b) : fdiv n a b = n :=
  h.elim (fun h => fdiv_nan (.inl h)) fun h => h.elim (fun h => fdiv_nan (.inr h)) fun h =>
    h.elim (fun h => (if_neg (not_nan_or (isNaN_of_isInf h.1) (isNaN_of_isInf h.2))).trans
      ((if_pos h.1).trans (if_pos h.2))) fun h =>
    (if_neg (not_nan_or (isNaN_of_isZero h.1) (isNaN_of_isZero h.2))).trans
      ((if_neg (not_inf_of_finite (isFinite_of_isZero h.1))).trans
        ((if_neg (not_inf_of_finite (isFinite_of_isZero h.2))).trans
          ((if_pos h.2).trans (if_pos h.1))))

theorem fsqrt_of_invalid (h : SqrtInvalid a) : fsqrt n a = n :=
  (em (isNaN a = true)).elim fsqrt_nan fun hn => (if_neg hn).trans <|
    (if_neg (ne_true_of_eq_false (h.resolve_left hn).2)).trans (if_pos (h.resolve_left hn).1)

end invalid

-- Valid operands

/-- A word that is no NaN and has a sign. -/
def HasSign (neg : Bool) (w : Word) : Prop := isNaN w = false ∧ signBit w = neg

theorem hasSign_signedInf (neg : Bool) : HasSign neg (signedInf neg) :=
  ⟨isNaN_signedInf neg, by induction neg <;> rfl⟩

theorem hasSign_signedZero (neg : Bool) : HasSign neg (signedZero neg) :=
  ⟨isNaN_signedZero neg, by induction neg <;> rfl⟩

theorem hasSign_roundTo (neg : Bool) (n d : Nat) : HasSign neg (roundTo neg n d) :=
  ⟨isNaN_roundTo .., signBit_roundTo ..⟩

section valid
variable {n a b : Word}

theorem isNaN_of_valid {w : Word} {c : Prop} (h : ¬ (isNaN w = true ∨ c)) : isNaN w = false :=
  eq_false_of_ne_true fun hc => h (.inl hc)

theorem isNaN_ite {c : Prop} [Decidable c] {x y : Word} (hx : c → isNaN x = false)
    (hy : ¬ c → isNaN y = false) : isNaN (if c then x else y) = false :=
  iteInduction (motive := fun w => isNaN w = false) hx hy

theorem isNaN_fadd_of_valid (h : ¬ AddInvalid a b) : isNaN (fadd n a b) = false :=
  have ha := isNaN_of_valid h
  have hb := isNaN_of_valid fun hc => h (.inr hc)
  isNaN_ite (fun hnan => absurd hnan (not_nan_or ha hb)) fun _h =>
    isNaN_ite (fun hia => isNaN_ite (fun hib =>
        absurd (.inr (.inr ⟨hia, (Bool.and_eq_true_iff.mp hib).imp_right bne_iff_ne.mp⟩)) h)
      fun _h => ha) fun _h => isNaN_ite (fun _h => hb) fun _h =>
    isNaN_ite (fun _h => isNaN_signedZero _) fun _h => isNaN_roundTo ..

/-- The sign of a product is the exclusive-or of the operand signs (R94). -/
theorem hasSign_fmul (h : ¬ MulInvalid a b) :
    HasSign (signBit a != signBit b) (fmul n a b) := by
  unfold fmul
  refine iteInduction (fun hnan => ?nan) fun _h =>
    iteInduction (fun hia => iteInduction (fun hzb => ?infZero) fun _h => hasSign_signedInf _)
    fun _h => iteInduction (fun hib => iteInduction (fun hza => ?zeroInf) fun _h =>
      hasSign_signedInf _) fun _h => hasSign_roundTo ..
  case nan => exact absurd (((Bool.or_eq_true ..).mp hnan).imp_right .inl) h
  case infZero => exact absurd (.inr (.inr (.inl ⟨hia, hzb⟩))) h
  case zeroInf => exact absurd (.inr (.inr (.inr ⟨hza, hib⟩))) h

/-- The sign of a quotient is the exclusive-or of the operand signs (R95). -/
theorem hasSign_fdiv (h : ¬ DivInvalid a b) :
    HasSign (signBit a != signBit b) (fdiv n a b) := by
  unfold fdiv
  refine iteInduction (fun hnan => ?nan) fun _h =>
    iteInduction (fun hia => iteInduction (fun hib => ?infInf) fun _h => hasSign_signedInf _)
    fun _h => iteInduction (fun _h => hasSign_signedZero _) fun _h =>
    iteInduction (fun hzb => iteInduction (fun hza => ?zeroZero) fun _h => hasSign_signedInf _)
    fun _h => hasSign_roundTo ..
  case nan => exact absurd (((Bool.or_eq_true ..).mp hnan).imp_right .inl) h
  case infInf => exact absurd (.inr (.inr (.inl ⟨hia, hib⟩))) h
  case zeroZero => exact absurd (.inr (.inr (.inr ⟨hza, hzb⟩))) h

theorem isNaN_fsqrt_of_valid (h : ¬ SqrtInvalid a) : isNaN (fsqrt n a) = false :=
  have ha := isNaN_of_valid h
  isNaN_ite (fun hnan => absurd (.inl hnan) h) fun _h => isNaN_ite (fun _h => ha) fun h0 =>
    isNaN_ite (fun hs => absurd (.inr ⟨hs, eq_false_of_ne_true h0⟩) h) fun _h =>
    isNaN_ite (fun _h => ha) fun _h => isNaN_roundTo ..

end valid

section result
variable {n r : Word} {invalid : Prop}

/-- An operation that answers no NaN for valid operands answers a NaN only for invalid ones. -/
theorem invalid_of_isNaN (hvalid : ¬ invalid → isNaN r = false) (hr : isNaN r = true) : invalid :=
  by_contra fun hc => Bool.false_ne_true ((hvalid hc).symm.trans hr)

theorem isNaN_of_eq (hn : isNaN n = true) (h : r = n) : isNaN r = true := h ▸ hn

theorem isNaN_result_iff (hn : isNaN n = true) (hinvalid : invalid → r = n)
    (hvalid : ¬ invalid → isNaN r = false) : isNaN r = true ↔ invalid :=
  ⟨invalid_of_isNaN hvalid, fun h => isNaN_of_eq hn (hinvalid h)⟩

end result

section results
variable {n a b : Word}

theorem isNaN_fadd_iff (hn : isNaN n = true) : isNaN (fadd n a b) = true ↔ AddInvalid a b :=
  isNaN_result_iff hn fadd_of_invalid isNaN_fadd_of_valid

theorem addInvalid_fneg : AddInvalid a (fneg b) ↔ isNaN a = true ∨ isNaN b = true ∨
    (isInf a = true ∧ isInf b = true ∧ signBit a = signBit b) := by
  simp [AddInvalid]

theorem fadd_eq_of_isNaN (h : isNaN (fadd n a b) = true) : fadd n a b = n :=
  fadd_of_invalid (invalid_of_isNaN isNaN_fadd_of_valid h)

end results

/-- Settles O41: for each operation, its invalid operands and the others (`isNaN_result_iff`). -/
theorem naNResults : Obligations.NaNResults :=
  ⟨fun _ _ => isQuietNaN_qnan _, fun num _ =>
    ⟨fun h => ⟨isQuietNaN_fsin num h, isQuietNaN_fcos num h⟩,
      fun h => ⟨isQuietNaN_fpow10 num h, isQuietNaN_fsinh num h⟩⟩,
    fun _n _a _b hn => ⟨isNaN_fadd_iff hn, (isNaN_fadd_iff hn).trans addInvalid_fneg,
      isNaN_result_iff hn fmul_of_invalid fun h => (hasSign_fmul h).1,
      isNaN_result_iff hn fdiv_of_invalid fun h => (hasSign_fdiv h).1,
      isNaN_result_iff hn fsqrt_of_invalid isNaN_fsqrt_of_valid,
      fadd_eq_of_isNaN, fadd_eq_of_isNaN,
      fun h => fmul_of_invalid (invalid_of_isNaN (fun h => (hasSign_fmul h).1) h),
      fun h => fdiv_of_invalid (invalid_of_isNaN (fun h => (hasSign_fdiv h).1) h),
      fun h => fsqrt_of_invalid (invalid_of_isNaN isNaN_fsqrt_of_valid h)⟩⟩

end Sys2Proof.Machine
end

section
/-!
PROOFS. Sums, differences, products, quotients and roots of special operands (R92 to R96), and the
exact results: where the exact result is an F64, the operation gives its value (R91).
-/

namespace Sys2Proof.Machine

-- Sums and differences (R92, R93)

section sums
variable {n a b : Word}

/-- An infinity plus a word that is no infinity of the other sign. -/
theorem fadd_inf_left (ha : isInf a = true) (hb : isNaN b = false)
    (h : ¬ (isInf b && signBit a != signBit b) = true) : fadd n a b = a :=
  (if_neg (not_nan_or (isNaN_of_isInf ha) hb)).trans ((if_pos ha).trans (if_neg h))

theorem fadd_inf_finite (ha : isInf a = true) (hb : isFinite b = true) : fadd n a b = a :=
  fadd_inf_left ha (isNaN_of_isFinite hb) fun h =>
    not_inf_of_finite hb (Bool.and_eq_true_iff.mp h).1

theorem fadd_inf_self (ha : isInf a = true) : fadd n a a = a :=
  fadd_inf_left ha (isNaN_of_isInf ha) fun h => bne_iff_ne.mp (Bool.and_eq_true_iff.mp h).2 rfl

theorem signBit_ne_fneg (a : Word) : signBit a ≠ signBit (fneg a) :=
  fun h => Bool.not_ne_self _ (h.trans (signBit_fneg a)).symm

/-- An infinity minus itself is an invalid operation. -/
theorem fsub_inf_self (ha : isInf a = true) : fsub n a a = n :=
  fadd_of_invalid (.inr (.inr ⟨ha, (isInf_fneg a).trans ha, signBit_ne_fneg a⟩))

theorem fsub_fneg_self (ha : isInf a = true) : fsub n a (fneg a) = a :=
  (congrArg (fadd n a) (fneg_fneg a)).trans (fadd_inf_self ha)

end sums

/-- Settles O38: each special sum by its lemma; a difference is the sum with the negated operand. -/
theorem sumsAndDifferencesSpecialCases : Obligations.SumsAndDifferencesSpecialCases :=
  fun n a b hn => ⟨fun h => ⟨isNaN_of_eq hn (fadd_nan h), isNaN_of_eq hn (fsub_nan h)⟩,
    isNaN_of_eq hn rfl, isNaN_of_eq hn rfl,
    fun ha hb => ⟨fadd_inf_finite ha hb, (fadd_comm n b a).trans (fadd_inf_finite ha hb)⟩,
    fun ha => ⟨fadd_inf_self ha, isNaN_of_eq hn (fsub_inf_self ha), fsub_fneg_self ha⟩,
    rfl, rfl, rfl, rfl, fun ha _h => fsub_self ha,
    fun ha h0 hb => ⟨fadd_zero_right ha h0 hb, (fadd_comm n b a).trans (fadd_zero_right ha h0 hb)⟩,
    roundsNearestEven_fadd, fun _ha _hb => rfl, fsub_self, rfl, rfl, isNaN_of_eq hn rfl⟩

-- Exact results (R91)

section exact
variable {n a b : Word}

/-- A finite word with this value. -/
def HasValue (w : Word) (x : ℚ) : Prop := isFinite w = true ∧ toRat w = x

theorem HasValue.cast {x : ℚ} (h : HasValue a x) : (x : ℝ) = toRat a := congrArg _ h.2.symm

theorem isZero_of_toRat (h : (toRat a : ℝ) = 0) : isZero a = true :=
  Bool.eq_true_of_not_eq_false fun h0 => toRat_ne_zero h0 (Rat.cast_eq_zero.mp h)

theorem isZero_of_toRat_ne_zero (h : (toRat a : ℝ) ≠ 0) : isZero a = false :=
  eq_false_of_ne_true fun h0 => h (Rat.cast_eq_zero.mpr (toRat_of_isZero h0))

/-- A rounding of a number that is an F64 has its value. -/
theorem hasValue_of_rounds {x : ℚ} {r : ℝ} {w : Word} (hx : Representable x) (hr : x = r)
    (h0 : r = 0 → isZero w = true) (h : r ≠ 0 → RoundsNearestEven r w) : HasValue w x :=
  (em (r = 0)).elim
    (fun hz => ⟨isFinite_of_isZero (h0 hz),
      (toRat_of_isZero (h0 hz)).trans (Rat.cast_eq_zero.mp (hr.trans hz)).symm⟩)
    fun hz => hx.elim fun _v hv =>
      (exact_of_rounds (h hz) hv.1 ((congrArg _ hv.2).trans hr)).imp_right fun hw =>
        toRat_of_real (hw.trans hr.symm)

theorem isZero_fadd_of_sum (ha : isFinite a = true) (hb : isFinite b = true)
    (h : (toRat a : ℝ) + toRat b = 0) : isZero (fadd n a b) = true := by
  rw [fadd_of_finite ha hb, if_pos (units_add_eq_zero.mp h)]
  exact isZero_signedZero _

theorem isZero_fmul_of_product (ha : isFinite a = true) (hb : isFinite b = true)
    (h : (toRat a : ℝ) * toRat b = 0) : isZero (fmul n a b) = true :=
  (mul_eq_zero.mp h).elim (fun h0 => fmul_comm n b a ▸ isZero_fmul hb (isZero_of_toRat h0))
    fun h0 => isZero_fmul ha (isZero_of_toRat h0)

theorem isZero_fdiv_of_quotient (hb : isNaN b = false) (h0 : isZero b = false)
    (h : (toRat a : ℝ) / toRat b = 0) : isZero (fdiv n a b) = true :=
  have ha := (div_eq_zero_iff.mp h).resolve_right (Rat.cast_ne_zero.mpr (toRat_ne_zero h0))
  (congrArg isZero (fdiv_zero_left (isZero_of_toRat ha) hb h0)).trans (isZero_signedZero _)

section operands
variable {x y : ℚ} (ha : HasValue a x) (hb : HasValue b y)
include ha hb

theorem HasValue.fadd (h : Representable (x + y)) : HasValue (fadd n a b) (x + y) :=
  hasValue_of_rounds h ((Rat.cast_add x y).trans (congrArg₂ _ ha.cast hb.cast))
    (isZero_fadd_of_sum ha.1 hb.1) (roundsNearestEven_fadd ha.1 hb.1)

theorem HasValue.fsub (h : Representable (x - y)) : HasValue (fsub n a b) (x - y) :=
  hasValue_of_rounds h ((Rat.cast_sub x y).trans (congrArg₂ _ ha.cast hb.cast))
    (fun h0 => isZero_fadd_of_sum ha.1 ((isFinite_fneg b).trans hb.1)
      ((toRat_sub a b).symm.trans h0))
    (roundsNearestEven_fsub ha.1 hb.1)

theorem HasValue.fmul (h : Representable (x * y)) : HasValue (fmul n a b) (x * y) :=
  hasValue_of_rounds h ((Rat.cast_mul x y).trans (congrArg₂ _ ha.cast hb.cast))
    (isZero_fmul_of_product ha.1 hb.1) fun hne => roundsNearestEven_fmul ha.1 hb.1
      (isZero_of_toRat_ne_zero (left_ne_zero_of_mul hne))
      (isZero_of_toRat_ne_zero (right_ne_zero_of_mul hne))

end operands

/-- A dividend at least twice the least normal number halves exactly (log 14). -/
theorem fdiv_two_exact (ha : isFinite a = true) (he : 2 ≤ expField a) :
    toRat (fdiv n a two) = toRat a / 2 :=
  (hasValue_of_rounds (half_repr ha he)
    ((Rat.cast_div _ _).trans (congrArg (fun y : ℚ => (toRat a : ℝ) / y) toRat_two.symm))
    (isZero_fdiv_of_quotient rfl rfl)
    fun hne => roundsNearestEven_fdiv ha rfl
      (isZero_of_toRat_ne_zero fun h => hne (div_eq_zero_iff.mpr (.inl h))) rfl).2

theorem Representable.neg {x y : ℚ} (h : Representable x) (hy : y = -x) : Representable y :=
  h.elim fun v hv =>
    ⟨fneg v, (isFinite_fneg v).trans hv.1, (toRat_fneg v).trans (hv.2 ▸ hy.symm)⟩

/-- Doubles are exact while they are at most the largest finite number (log 14). -/
theorem fmul_two_exact (ha : isFinite a = true) (h : |2 * toRat a| ≤ maxFinite) :
    toRat (fmul n two a) = 2 * toRat a ∧ toRat (fmul n minusTwo a) = -2 * toRat a :=
  ⟨(HasValue.fmul ⟨rfl, toRat_two⟩ ⟨ha, rfl⟩ (double_repr ha h)).2,
    (HasValue.fmul ⟨rfl, toRat_minusTwo⟩ ⟨ha, rfl⟩
      (Representable.neg (double_repr ha h) (neg_mul 2 _))).2⟩

theorem toRat_one_cast : (toRat one : ℝ) = 1 := (congrArg _ toRat_one).trans Rat.cast_one

theorem eq_one_of_rounds {r : ℝ} {w : Word} (hr : 1 = r) (h : RoundsNearestEven r w) : w = one :=
  have hone : (toRat one : ℝ) = r := toRat_one_cast.trans hr
  (eq_of_toRat rfl (Rat.cast_injective (hone.trans (exact_of_rounds h rfl hone).2.symm))).symm

end exact

-- Products, quotients and roots (R94 to R96)

section products
variable {n a : Word}

/-- A finite number other than zero over itself (R95). -/
theorem fdiv_self_of_finite (ha : isFinite a = true) (h0 : isZero a = false) :
    fdiv n a a = one :=
  eq_one_of_rounds (div_self (Rat.cast_ne_zero.mpr (toRat_ne_zero h0))).symm
    (roundsNearestEven_fdiv ha ha h0 h0)

theorem fsqrt_one : fsqrt n one = one :=
  eq_one_of_rounds (Real.sqrt_one.symm.trans (congrArg _ toRat_one_cast.symm))
    (roundsNearestEven_fsqrt rfl (toRat_one ▸ one_pos))

/-- Where an operation answers no NaN, its operands are valid. -/
theorem valid_of_isNaN {r : Word} {invalid : Prop} (hn : isNaN n = true)
    (hinvalid : invalid → r = n) (hr : isNaN r = false) : ¬ invalid := fun h =>
  Bool.false_ne_true (hr.symm.trans (isNaN_of_eq hn (hinvalid h)))

end products

/-- Settles O39: each special product, quotient and root by its lemma, the sides of a product by
`fmul_comm`, the exact ones by `fmul_two_exact` and `fdiv_two_exact`. -/
theorem productsQuotientsRootsSpecialCases : Obligations.ProductsQuotientsRootsSpecialCases :=
  fun n a b hn => ⟨fun h => ⟨isNaN_of_eq hn (fmul_nan h), isNaN_of_eq hn (fdiv_nan h)⟩,
    fun h => (hasSign_fmul (valid_of_isNaN hn fmul_of_invalid h)).2,
    fun h => (hasSign_fdiv (valid_of_isNaN hn fdiv_of_invalid h)).2,
    fun ha hb => ⟨isNaN_of_eq hn ((fmul_comm n a b).trans (fmul_inf_zero hb ha)),
      isNaN_of_eq hn (fmul_inf_zero hb ha)⟩,
    fun ha hb h0 => ⟨fmul_inf ha hb h0, (fmul_comm n b a).trans (fmul_inf ha hb h0)⟩,
    fun ha hb => ⟨fmul_zero_left ha hb, (fmul_comm n b a).trans (fmul_zero_left ha hb)⟩,
    fmul_zero_left rfl rfl, fmul_zero_right rfl rfl,
    fun ha => ⟨fmul_one_left ha, fmul_one_right ha⟩, fmul_two_exact, fdiv_zero, fdiv_inf_left,
    fdiv_zero_left, fun ha hb => isNaN_of_eq hn (fdiv_of_invalid (.inr (.inr (.inr ⟨ha, hb⟩)))),
    fun ha hb => isNaN_of_eq hn (fdiv_of_invalid (.inr (.inr (.inl ⟨ha, hb⟩)))),
    fdiv_self_of_finite, fdiv_two_exact, fdiv_inf_right, rfl, rfl, rfl,
    fun hs h0 => isNaN_of_eq hn (fsqrt_of_invalid (.inr ⟨hs, h0⟩)),
    fun h => isNaN_of_eq hn (fsqrt_nan h), fsqrt_one⟩

end Sys2Proof.Machine
end

section
/-!
PROOFS. The elementary functions: the special values of every record, and the ranges and exact
values that faithful rounding gives the machine's own (R98 to R101).
-/

namespace Sys2Proof.Machine

-- Special values of every record

theorem signBit_clearSign (w : Word) : signBit (clearSign w) = false :=
  (BitVec.getLsbD_and ..).trans (Bool.and_false _)

section values
variable (num : Numerics) {w : Word}

theorem fsinh_of_zero_or_inf (h : isZero w = true ∨ isInf w = true) : fsinh num w = w :=
  (if_neg (ne_true_of_eq_false (h.elim isNaN_of_isZero isNaN_of_isInf))).trans
    (if_pos ((Bool.or_eq_true ..).mpr h))

theorem signBit_ite {c : Prop} [Decidable c] {x y : Word} (hx : c → signBit x = false)
    (hy : ¬ c → signBit y = false) : signBit (if c then x else y) = false :=
  iteInduction (motive := fun w => signBit w = false) hx hy

/-- A power of ten is never negative and never `-0`. -/
theorem signBit_fpow10 (hn : isNaN w = false) : signBit (fpow10 num w) = false :=
  signBit_ite (fun h => absurd (hn.symm.trans h) Bool.false_ne_true) fun _h =>
    signBit_ite (fun _h => rfl) fun _h =>
      signBit_ite (fun _h => signBit_ite (fun _h => rfl) fun _h => rfl) fun _h =>
        signBit_clearSign _

end values

-- What faithful rounding gives

theorem toRat_fneg_one : toRat (fneg one) = -1 := (toRat_fneg one).trans (congrArg _ toRat_one)

theorem toRat_fneg_one_cast : (toRat (fneg one) : ℝ) = -1 :=
  (congrArg _ (toRat_fneg one)).trans ((Rat.cast_neg _).trans (congrArg _ toRat_one_cast))

section faithful
variable {r : ℝ} {y v : Word} (h : Faithful r y)
include h

/-- A faithful rounding of a number of size at most 1 has size at most 1. -/
theorem Faithful.within_one (hr : |r| ≤ 1) :
    isFinite y = true ∧ -1 ≤ toRat y ∧ toRat y ≤ 1 :=
  (faithful_between h rfl rfl (toRat_fneg_one_cast.trans_le (abs_le.mp hr).1)
    ((abs_le.mp hr).2.trans_eq toRat_one_cast.symm) (hr.trans one_le_maxFinite)).imp_right
      (And.imp toRat_fneg_one.symm.trans_le fun h => h.trans_eq toRat_one)

/-- A faithful rounding of zero is a zero. -/
theorem Faithful.isZero (hr : 0 = r) : isZero y = true :=
  have hz : (toRat posZero : ℝ) = 0 := Rat.cast_eq_zero.mpr (toRat_of_isZero rfl)
  isZero_of_toRat ((congrArg _ (faithful_exact h rfl (hz.trans hr)).2).trans hz)

/-- A faithful rounding of an F64 other than zero is that word. -/
theorem Faithful.eq_word (hv : isFinite v = true) (hr : (toRat v : ℝ) = r) (h0 : r ≠ 0) : y = v :=
  (eq_of_toRat (isZero_of_toRat_ne_zero (hr ▸ h0)) (faithful_exact h hv hr).2.symm).symm

end faithful

theorem toRat_nonneg {a : Word} (h : signBit a = false) : (0 : ℝ) ≤ toRat a := by
  rw [toRat_withSign, h]; exact size_nonneg a

section machine
variable {w : Word}

/-- A hyperbolic sine other than zero has the sign of its operand. -/
theorem decide_sinh_neg (h : Real.sinh (toRat w : ℝ) ≠ 0) :
    decide (Real.sinh (toRat w : ℝ) < 0) = signBit w := by
  by_cases hs : signBit w = true
  · exact (decide_eq_true ((Real.sinh_nonpos_iff.mpr (toRat_nonpos hs)).lt_of_ne h)).trans hs.symm
  · have hs := eq_false_of_ne_true hs
    exact (decide_eq_false (Real.sinh_nonneg_iff.mpr (toRat_nonneg hs)).not_gt).trans hs.symm

theorem pow_ten_pos (w : Word) : 0 < (10 : ℝ) ^ (toRat w : ℝ) :=
  Real.rpow_pos_of_pos Nat.ofNat_pos _

variable (hw : isFinite w = true)
include hw

/-- Beyond the numbers a hyperbolic sine is the infinity of its operand's sign (R101). -/
theorem fsinh_overflow (h : (2 : ℝ) ^ 1024 ≤ |Real.sinh (toRat w : ℝ)|) :
    fsinh Config.numerics w = signedInf (signBit w) :=
  (faithful_overflow (Config.numerics_admissible.sinh w hw) h).trans
    (congrArg _ (decide_sinh_neg (abs_pos.mp ((pow_pos two_pos _).trans_le h))))

theorem fpow10_overflow (h : (2 : ℝ) ^ 1024 ≤ (10 : ℝ) ^ (toRat w : ℝ)) :
    fpow10 Config.numerics w = posInf :=
  (faithful_overflow (Config.numerics_admissible.pow10 w hw) (h.trans (le_abs_self _))).trans
    (congrArg _ (decide_eq_false (pow_ten_pos w).not_gt))

theorem isZero_fsin (h0 : isZero w = true) : isZero (fsin Config.numerics w) = true :=
  (Config.numerics_admissible.sin w hw).isZero
    (by rw [toRat_of_isZero h0, Rat.cast_zero, Real.sin_zero])

theorem fcos_range : isFinite (fcos Config.numerics w) = true ∧
    -1 ≤ toRat (fcos Config.numerics w) ∧ toRat (fcos Config.numerics w) ≤ 1 :=
  (Config.numerics_admissible.cos w hw).within_one (Real.abs_cos_le_one _)

/-- Between 0 and pi a sine is positive and at most 1 (R98 c). -/
theorem fsin_range (h0 : 0 < toRat w) (hpi : (toRat w : ℝ) < Real.pi) :
    isFinite (fsin Config.numerics w) = true ∧ 0 < toRat (fsin Config.numerics w) ∧
      toRat (fsin Config.numerics w) ≤ 1 :=
  ((Config.numerics_admissible.sin w hw).within_one (Real.abs_sin_le_one _)).imp_right
    (And.imp_left fun _h => Config.numerics_admissible.sin_pos w hw h0 hpi)

end machine

/-- Settles O42: the special values of every record, and what faithful rounding
(`Config.numerics_admissible`) gives the machine's. -/
theorem elementaryFunctions : Obligations.ElementaryFunctions :=
  ⟨fun num _w => ⟨fun h => ⟨isNaN_of_isQuietNaN (isQuietNaN_fsin num h),
        isNaN_of_isQuietNaN (isQuietNaN_fcos num h)⟩,
      fun h => ⟨isNaN_of_isQuietNaN (isQuietNaN_fpow10 num h),
        isNaN_of_isQuietNaN (isQuietNaN_fsinh num h)⟩,
      rfl, rfl, rfl, rfl, rfl, rfl, fsinh_of_zero_or_inf num, signBit_fpow10 num⟩,
    fun w hw => ⟨Config.numerics_admissible.sin w hw, Config.numerics_admissible.cos w hw,
      Config.numerics_admissible.pow10 w hw, Config.numerics_admissible.sinh w hw,
      isZero_fsin hw, fsin_range hw, (fcos_range hw).1, (fcos_range hw).2.1, (fcos_range hw).2.2,
      fpow10_overflow hw, Config.numerics_admissible.pow10_underflow w hw, fsinh_overflow hw,
      fun _v hv h => (Config.numerics_admissible.pow10 w hw).eq_word hv h (pow_ten_pos w).ne'⟩⟩

end Sys2Proof.Machine
end

section
/-!
PROOFS. The biquad step in exact arithmetic where every intermediate result is an F64 (R152, R153),
and the Peaking band with 0 dB gain, which is the identity (R134, R164).
-/

namespace Sys2Proof.Machine

-- Finite coefficients

section coeffs
variable {c : Coeffs}

variable (h : coeffsFinite c = true)
include h

theorem isFinite_b0 : isFinite c.b0 = true :=
  Bool.and_elim_left (Bool.and_elim_left (Bool.and_elim_left (Bool.and_elim_left h)))
theorem isFinite_b1 : isFinite c.b1 = true :=
  Bool.and_elim_right (Bool.and_elim_left (Bool.and_elim_left (Bool.and_elim_left h)))
theorem isFinite_b2 : isFinite c.b2 = true :=
  Bool.and_elim_right (Bool.and_elim_left (Bool.and_elim_left h))
theorem isFinite_a1 : isFinite c.a1 = true := Bool.and_elim_right (Bool.and_elim_left h)
theorem isFinite_a2 : isFinite c.a2 = true := Bool.and_elim_right h

end coeffs

-- The step in exact arithmetic

theorem hasValue_self {w : Word} (h : isFinite w = true) : HasValue w (toRat w) := ⟨h, rfl⟩

/-- Settles O54: each of the nine operations of the step has F64 operands and an F64 result, so it
gives its exact value (`HasValue.fadd`, `HasValue.fsub`, `HasValue.fmul`). -/
theorem stepIsExactWhenRepresentable : Obligations.StepIsExactWhenRepresentable := by
  intro s idx b x hb hc hs1 hs2 hx c u y r0 ry r1 ra1 rd1 rs1 r2 ra2 rs2
  have hu : HasValue x u := hasValue_self hx
  have hy : HasValue (bqStep s.draws b.coef b.dly x).1 y :=
    ((hasValue_self (isFinite_b0 hc)).fmul hu r0).fadd (hasValue_self hs1) ry
  exact ⟨_, _, answers_bqProc hb x, congrArg₂ Prod.mk hy.2 (congrArg₂ Prod.mk
    ((((hasValue_self (isFinite_b1 hc)).fmul hu r1).fsub
      ((hasValue_self (isFinite_a1 hc)).fmul hy ra1) rd1).fadd (hasValue_self hs2) rs1).2
    (((hasValue_self (isFinite_b2 hc)).fmul hu r2).fsub
      ((hasValue_self (isFinite_a2 hc)).fmul hy ra2) rs2).2)⟩

-- The identity band (R164)

theorem SameF64.eq_of_isFinite {a b : Word} (h : SameF64 a b) (ha : isFinite a = true) : a = b :=
  h.resolve_right fun hn => Bool.false_ne_true ((isNaN_of_isFinite ha).symm.trans hn.1)

theorem isZero_of_feq_zero {y z : Word} (hz : isZero z = true) (h : feq y z = true) :
    isZero y = true :=
  units_eq_zero.mp ((units_orderKey_eq.mp (of_decide_eq_true (Bool.and_eq_true_iff.mp h).2)).trans
    (units_eq_zero.mpr hz))

/-- What R164 says of an output: it is the sample, but may be `+0` for the sample `-0`. -/
def Passes (y x : Word) : Prop := feq y x = true ∧ (x ≠ negZero → y = x)

section identity
variable {n m m1 m2 a b x y z : Word} {q : Nat → Word} {c : Coeffs} {d : Delay}

theorem fmul_of_one (hb : b = one) (hx : isFinite x = true) : fmul n b x = x :=
  hb ▸ fmul_one_left (isNaN_of_isFinite hx)

theorem passes_fadd_zero (h : b = x) (hx : isFinite x = true) (hz : isZero z = true) :
    Passes (fadd n b z) x := by
  subst h
  exact (fadd_zero_cases (isNaN_of_isFinite hx) hz).imp_right fun h hne => h.1 fun h => hne h.1

/-- A finite product does not depend on the NaN word. -/
theorem fmul_eq_of_isFinite (hn : isNaN n = true) (hm : isNaN m = true)
    (h : isFinite (fmul n a x) = true) : fmul n a x = fmul m a x :=
  (SameF64.fmul hn hm (.refl a) (.refl x)).eq_of_isFinite h

theorem isZero_fsub_self (h : isFinite x = true) (ha : x = a) (hb : x = b) :
    isZero (fsub m a b) = true :=
  ha ▸ hb ▸ congrArg isZero (fsub_self h)

/-- The products of a coefficient with the sample and with the output cancel: they are one finite
word, or both are zeros. -/
theorem isZero_fsub_products (hn : isNaN n = true) (hq : AllNaN q) {i j : Nat} (hba : b = a)
    (ha : isFinite a = true) (hx : isFinite (fmul n a x) = true) (hyx : Passes y x) :
    isZero (fsub m (fmul (q i) b x) (fmul (q j) a y)) = true := by
  subst hba
  by_cases h0 : x = negZero
  · have hx0 : isZero x = true := h0 ▸ rfl
    exact isZero_fsub (isZero_fmul ha hx0) (isZero_fmul ha (isZero_of_feq_zero hx0 hyx.1))
  · exact isZero_fsub_self hx (fmul_eq_of_isFinite hn (hq i) hx)
      ((fmul_eq_of_isFinite hn (hq j) hx).trans (congrArg (fmul _ _) (hyx.2 h0).symm))

/-- R164's hypothesis on a sample. -/
def Admits (n : Word) (c : Coeffs) (x : Word) : Prop :=
  isFinite x = true ∧ isFinite (fmul n c.a1 x) = true ∧ isFinite (fmul n c.a2 x) = true

theorem bqStep_passes (hc : identityShape c) (hd : d.zeros = true) (hx : Admits n c x) :
    Passes (bqStep q c d x).1 x :=
  passes_fadd_zero (fmul_of_one hc.1 hx.1) hx.1 (Bool.and_eq_true_iff.mp hd).1

theorem bqStep_keeps_zeros (hn : isNaN n = true) (hq : AllNaN q) (hc : identityShape c)
    (hd : d.zeros = true) (hx : Admits n c x) : (bqStep q c d x).2.zeros = true :=
  Bool.and_eq_true_iff.mpr
    ⟨isZero_fadd (isZero_fsub_products hn hq hc.2.1 (isFinite_a1 hc.2.2.2) hx.2.1
        (bqStep_passes hc hd hx)) (Bool.and_eq_true_iff.mp hd).2,
      isZero_fsub_products hn hq hc.2.2.1 (isFinite_a2 hc.2.2.2) hx.2.2 (bqStep_passes hc hd hx)⟩

/-- A chain of one identity band with zero registers passes the samples it admits (R164, R178). -/
theorem eqBlock_identity {xs : List Word} (hn : isNaN n = true) (hc : identityShape c) :
    ∀ {q d}, AllNaN q → d.zeros = true → (∀ x ∈ xs, Admits n c x) →
      List.Forall₂ Passes (eqBlock q [⟨c, d⟩] xs).1 xs := by
  induction xs with
  | nil => exact fun _hq _hd _hx => .nil
  | cons x xs ih =>
    exact fun hq hd hxs => .cons (bqStep_passes hc hd (hxs _ List.mem_cons_self))
      (ih (hq.skip _) (bqStep_keeps_zeros hn hq hc hd (hxs _ List.mem_cons_self))
        fun _x hx => hxs _ (List.mem_cons_of_mem _ hx))

end identity

-- Peaking with 0 dB gain (R134)

section peaking
variable {q q' : Nat → Word} {c : Coeffs}

theorem same_mul_div_one {n m al : Word} (hn : isNaN n = true) (hm : isNaN m = true) :
    SameF64 (fmul n al one) (fdiv m al one) :=
  (same_one hn).2.trans (same_one hm).1.symm

/-- With `A = 1` both products of alpha are alpha, so the numerator and the denominator are one. -/
theorem identityShape_of_peakingForm {cs al A : Word} (hq : AllNaN q) (hq' : AllNaN q')
    (hA : A = one) (h : c = normalise q (peakingForm q' cs al A)) (hc : coeffsFinite c = true) :
    identityShape c := by
  subst hA h
  exact ⟨(self_div (hq 0) (.fadd (hq' 1) (hq' 6) (.refl _)
      (same_mul_div_one (hq' 0) (hq' 5)))).resolve_right fun hnan =>
        Bool.false_ne_true ((isNaN_of_isFinite (isFinite_b0 hc :)).symm.trans hnan),
    (SameF64.fdiv (hq 1) (hq 3) (.fmul (hq' 2) (hq' 7) (.refl _) (.refl _))
      (.refl _)).eq_of_isFinite (isFinite_b1 hc :),
    (SameF64.fdiv (hq 2) (hq 4) (.fsub (hq' 4) (hq' 9) (.refl _)
      (same_mul_div_one (hq' 3) (hq' 8))) (.refl _)).eq_of_isFinite (isFinite_b2 hc :), hc⟩

/-- Finite coefficients designed for Peaking with 0 dB have the identity shape, for every record
Numerics and every reading of the shape operand. -/
theorem identityShape_of_peaking {num : Numerics} {shape : FilterType → ShapeKind}
    {p : DesignParams} (hq : AllNaN q) (hg : isZero p.g = true)
    (hdes : design num shape q .peaking p = some c) (hc : coeffsFinite c = true) :
    identityShape c :=
  identityShape_of_peakingForm (A := gainFactor num (q 2) .peaking p.g) ((hq.skip 4).skip 31)
    ((hq.skip 4).skip 9) (gain_one hg) (design_some hdes).2 hc

end peaking

/-- Settles O59: the designed band is an identity band (`identityShape_of_peaking`), and a chain of
that band passes the block (`eqBlock_identity`). -/
theorem peakingAtZeroGainIsTheIdentity : Obligations.PeakingAtZeroGainIsTheIdentity :=
  fun _num _shape _q _p _c _n hq hn hg hdes hc => ⟨identityShape_of_peaking hq hg hdes hc,
    fun s xs hs hxs => ⟨_, _, answers_eqProcb xs, hs ▸ eqBlock_identity hn
      (identityShape_of_peaking hq hg hdes hc) (allNaN_draws s) rfl hxs⟩⟩

end Sys2Proof.Machine
end

section

-- PROOFS. The expression trees of the designer (R122 to R137): with one NaN word in the place of the
-- words of all calls (R104), `designCoeffs` is each type's tree by definition.

namespace Sys2Proof.Machine

theorem design_same_uniform {num : Numerics} {q : Nat → Word} {n : Word} (hq : AllNaN q)
    (hn : isNaN n = true) (ft : FilterType) (p : DesignParams) (c : Coeffs)
    (h : design num Config.SHAPE q ft p = some c) :
    SameCoeffs c (designCoeffs num Config.SHAPE (fun _ => n) ft p) :=
  Eq.substr (p := (SameCoeffs · (designCoeffs num Config.SHAPE (fun _ => n) ft p)))
    (design_some h).2 (designCoeffs_same num _ q _ hq (fun _ => hn) ft p)

/-- Settles O25, by `design_same_uniform`. -/
theorem designTreesFromQ : Obligations.DesignTreesFromQ := by
  intro num q n fs f sh g hq hn w sn cs al ua0 a1 a2
  exact ⟨(design_same_uniform hq hn .lowPass ⟨fs, f, sh, g⟩ :),
    (design_same_uniform hq hn .highPass ⟨fs, f, sh, g⟩ :),
    (design_same_uniform hq hn .bandPass ⟨fs, f, sh, g⟩ :),
    (design_same_uniform hq hn .notch ⟨fs, f, sh, g⟩ :),
    (design_same_uniform hq hn .allPass ⟨fs, f, sh, g⟩ :)⟩

end Sys2Proof.Machine
end
